-- ==== Sys2Proof/Word.lean ====
section
/-! DEFINITION. The element and register types of the ringverb CORE, and the shape of a memory.
A sample is a 32-bit two's-complement word (`00_scope.md` R9, `20_memory.md` R82), a count or rate register is an
unsigned 32-bit word (R11, R43), a floating value is the 64-bit binary64 interchange word (R20). -/

namespace Sys2Proof

/-- An `I32` element: a sample in two's complement (R82); `BitVec.toInt` is the sample's value. -/
abbrev Sample := BitVec 32

/-- A `U32` element or register value (R11, R43). -/
abbrev U32 := BitVec 32

/-- An `F` value: the 64-bit binary64 encoding, sign in bit 63, exponent 62:52, fraction 51:0 (R20). -/
abbrev F := BitVec 64

/-- A memory of whole elements (R80): pairs of an index and an element, indices strictly rising.
An index that is not listed holds no specified value. -/
abbrev Mem (w : Nat) := List (Nat × BitVec w)

/-- The canonical form of a memory: indices strictly rising (so no index twice). -/
abbrev Mem.wf {w : Nat} (m : Mem w) : Prop := m.Pairwise (fun a b => a.1 < b.1)

end Sys2Proof
end

