-- ==== Sys2Proof/Syntax.lean ====
section
/-! DEFINITION. What the host can say to the block: the five commands (`30_encoding.md` R112), the register names
(`10_state.md` R44), the address spaces (`20_memory.md` R80) and the host's two primitives (R81). -/

namespace Sys2Proof

/-- The five commands of the opcode map (R112). A command word carries no operand (R111). -/
inductive Instr where
  /-- `APF`, one all-pass stage (R144). -/
  | apf
  /-- `DIFD`, the deterministic divisor cascade (R161). -/
  | difd
  /-- `SCHR`, the randomised Schroeder cascade (R171). -/
  | schr
  /-- `RMOD`, the ring modulator (R191). -/
  | rmod
  /-- `DSMP`, the decimating resampler (R231). -/
  | dsmp
  deriving DecidableEq, Repr

/-- The registers of the register map (R44). -/
inductive RegName where
  | cmd | result | sampleRate | inLen | outLen | sampleLength | newSampleRate
  | rmMix | rmAmount | rmWaveform | rmRate | rmFrequency
  | dlMix | dlDelay | dlFeedback | dlStages | dlWidth | dlHighPass | dlLowPass
  | divOffset | apM | mtabLen | lfoPhase | carrierPhase
  deriving DecidableEq, Repr

/-- The five address spaces (R80). -/
inductive Space where
  | reg | sigi | sigo | mtab | dly
  deriving DecidableEq, Repr

/-- The four spaces the host can reach; `DLY` has no host path (R80, `93_implementation_defined.md` U4). -/
inductive HostSpace where
  | reg | sigi | sigo | mtab
  deriving DecidableEq, Repr

/-- The address space a host space is. -/
def HostSpace.toSpace : HostSpace → Space
  | .reg => .reg
  | .sigi => .sigi
  | .sigo => .sigo
  | .mtab => .mtab

/-- The host's two primitives (R81). The value word travels in a 64-bit container: an element of a 32-bit space is
its bits 31:0 (R82; log entry 13). -/
inductive HostAccess where
  /-- `HostRead(space, index)`. -/
  | read (space : HostSpace) (index : Nat)
  /-- `HostWrite(space, index, v)`; a write of `REG[0x00]` runs a command (R45). -/
  | write (space : HostSpace) (index : Nat) (v : BitVec 64)
  deriving DecidableEq, Repr

/-- The operations that can produce a NaN, used only to index the free NaN of `Config.nanBits` (R21). -/
inductive FloatOp where
  | add | sub | mul | div | wrap | sine
  deriving DecidableEq, Repr

end Sys2Proof
end

