-- ==== Sys2Proof/Decode.lean ====
section
/-! DEFINITION. Decoding and encoding of the 32-bit command word (`30_encoding.md` R110 to R114). -/

namespace Sys2Proof

/-- Why a word is illegal (R113). -/
inductive DecodeError where
  /-- The field `RSV`, bits 31:8, is not zero. -/
  | reservedBits
  /-- `OP`, bits 7:0, is `0x00` or `0x06` to `0xFF`. -/
  | unassignedOpcode
  deriving DecidableEq, Repr

/-- The field `OP`, bits 7:0 (R111). -/
def opField (w : BitVec 32) : BitVec 8 := w.extractLsb' 0 8

/-- The field `RSV`, bits 31:8 (R111). -/
def rsvField (w : BitVec 32) : BitVec 24 := w.extractLsb' 8 24

/-- The operation an `OP` value selects (R112). -/
def opcode : Nat → Option Instr
  | 0x01 => some .apf
  | 0x02 => some .difd
  | 0x03 => some .schr
  | 0x04 => some .rmod
  | 0x05 => some .dsmp
  | _ => none

/-- Decoding of a command word, total (R114). -/
def decode (w : BitVec 32) : Except DecodeError Instr :=
  if rsvField w ≠ 0 then .error .reservedBits
  else
    match opcode (opField w).toNat with
    | some i => .ok i
    | none => .error .unassignedOpcode

/-- The `OP` value of a command (R112). -/
def opValue : Instr → BitVec 8
  | .apf => 0x01
  | .difd => 0x02
  | .schr => 0x03
  | .rmod => 0x04
  | .dsmp => 0x05

/-- The command word of a command: `RSV` zero above `OP` (R111). -/
def encode (i : Instr) : BitVec 32 := (0 : BitVec 24) ++ opValue i

/-- The command the decoder reads from a word of `nbits` bits; bits above are zero. There are no bytes at the block
(R83), so a word is laid out as the one `CMD` word it is. -/
def decodeTableWord (nbits w : Nat) : Option Instr :=
  match decode (BitVec.ofNat 32 (w % 2 ^ nbits)) with
  | .ok i => some i
  | .error _ => none

end Sys2Proof
end

