-- ==== Sys2Proof/Config.lean ====
section
/-! DEFINITION. What the spec leaves open. The constants without a body are free values: nothing can be proved of the
value they take. The three capacities are parameters (`00_scope.md` R9); they are plain numbers held in State, so that
every statement about all states is about all capacities, and only the numbers that State.reset starts with stand
here. -/

namespace Sys2Proof

/-- FREE VALUE (log entry 4). What a host reads from an element or register number that holds no specified value
(R61, R63, R64, R84), by space, epoch and index; a command that makes elements unspecified advances the epoch. -/
opaque Config.unspecified : Space → Nat → Nat → BitVec 64

/-- FREE VALUE (log entry 5). The bits of the NaN an operation produces from its operands, cut to a NaN by
`Machine.nanResult` (R21: "Which NaN is produced is not specified"). -/
opaque Config.nanBits : FloatOp → F → F → F

/-- FREE VALUE (log entry 6). The implementation's sine, cut to properties S1 to S4 of R27 by `Machine.cutSine`. -/
opaque Config.sineRaw : F → F

/-- FREE VALUE (log entry 7). The answer of the random source to its `n`-th draw when the state scripts none, cut to
the contract of R270 by `Machine.boundedDraw`. -/
opaque Config.freeDraw : Nat → F

/-- DESIGN CHOICE (log entry 3): the capacity State.reset carries for `SIG_CAP`, which the spec leaves OPEN; the
number is the one `95_test_vectors.md` assumes "unless a vector says otherwise". -/
def Config.resetSigCap : Nat := 65536

/-- DESIGN CHOICE (log entry 3): the capacity State.reset carries for `DLY_CAP`. -/
def Config.resetDlyCap : Nat := 4096

/-- DESIGN CHOICE (log entry 3): the capacity State.reset carries for `STAGE_CAP`. -/
def Config.resetStageCap : Nat := 16

end Sys2Proof
end

