-- ==== Sys2Proof/Machine/State.lean ====
section
/-! DEFINITION. The state of the block and of its two ports, the reasons a step can stop, and the state after reset
(`10_state.md`, `70_reset_and_hazards.md` R290). -/

namespace Sys2Proof.Machine

/-- The parameter registers: every register of R44 whose access is `RW`. Only the host writes them. -/
structure ParamRegs where
  /-- `SAMPLE_RATE`, `0x02` (R49). -/
  sampleRate : U32
  /-- `IN_LEN`, `0x03` (R50). -/
  inLen : U32
  /-- `SAMPLE_LENGTH`, `0x05` (R51). -/
  sampleLength : U32
  /-- `NEW_SAMPLE_RATE`, `0x06` (R51). -/
  newSampleRate : U32
  /-- `RM_MIX`, `0x08` (R52). -/
  rmMix : F
  /-- `RM_AMOUNT`, `0x09` (R52). -/
  rmAmount : F
  /-- `RM_WAVEFORM`, `0x0A`, one bit: 0 Sinusoidal, 1 Square (R53). -/
  rmWaveform : BitVec 1
  /-- `RM_RATE`, `0x0B` (R54). -/
  rmRate : F
  /-- `RM_FREQUENCY`, `0x0C` (R54). -/
  rmFrequency : F
  /-- `DL_MIX`, `0x10`, RAW64 pass-through (R56). -/
  dlMix : BitVec 64
  /-- `DL_DELAY`, `0x11` (R55). -/
  dlDelay : F
  /-- `DL_FEEDBACK`, `0x12` (R55). -/
  dlFeedback : F
  /-- `DL_STAGES`, `0x13` (R55). -/
  dlStages : U32
  /-- `DL_WIDTH`, `0x14`, RAW64 pass-through (R56). -/
  dlWidth : BitVec 64
  /-- `DL_HIGH_PASS`, `0x15`, RAW64 pass-through (R56). -/
  dlHighPass : BitVec 64
  /-- `DL_LOW_PASS`, `0x16`, RAW64 pass-through (R56). -/
  dlLowPass : BitVec 64
  /-- `DIV_OFFSET`, `0x17` (R57). -/
  divOffset : U32
  /-- `AP_M`, `0x18` (R57). -/
  apM : U32
  deriving DecidableEq, Repr

/-- The three capacities (R9): parameters of the implementation, changed by no step. -/
structure Capacities where
  /-- `SIG_CAP`, elements of `SIGI` and of `SIGO`. -/
  sigCap : Nat
  /-- `DLY_CAP`, elements of `DLY`. -/
  dlyCap : Nat
  /-- `STAGE_CAP`, elements of `MTAB`. -/
  stageCap : Nat
  deriving DecidableEq, Repr

/-- The state of the machine. A memory lists the elements that hold a specified value; an index that is not listed
holds an unspecified one (R61 to R64, R70). The working registers of R42 live only inside one command and are local
values of the meanings. -/
structure State where
  /-- `CMD`, `0x00`: the last word written (R45). -/
  cmd : U32
  /-- `RESULT`, `0x01`: the outcome of the most recent command (R46). -/
  result : BitVec 64
  /-- The `RW` registers. -/
  params : ParamRegs
  /-- `OUT_LEN`, `0x04` (R50). -/
  outLen : U32
  /-- `MTAB_LEN`, `0x19` (R58). -/
  mtabLen : U32
  /-- `LFO_PHASE`, `0x20` (R59). -/
  lfoPhase : F
  /-- `CARRIER_PHASE`, `0x21` (R59). -/
  carrierPhase : F
  /-- `SIGI`, the input signal memory (R60). -/
  sigi : Mem 32
  /-- `SIGO`, the output signal memory (R61). -/
  sigo : Mem 32
  /-- `MTAB`, the stage-length table (R63). -/
  mtab : Mem 32
  /-- `DLY`, the delay memory, hidden from the host (R62). -/
  dly : Mem 64
  /-- The model's own: how often `SIGO` was made unspecified; indexes `Config.unspecified` (log entry 4). -/
  sigoEpoch : Nat
  /-- The model's own: how often `MTAB` was made unspecified (log entry 4). -/
  mtabEpoch : Nat
  /-- The implementation's capacities (R9; log entry 3). -/
  caps : Capacities
  /-- The host port: the accesses the host has issued and the block has not yet performed, oldest first (R90). -/
  hostQueue : List HostAccess
  /-- The host port: the answers given to `HostRead`s, newest first (R81). -/
  hostAnswers : List (BitVec 64)
  /-- The random port: answers the source is scripted to give, in order (R271); past its end answers are free. -/
  drawScript : List F
  /-- The random port: draws taken since reset; indexes `Config.freeDraw` (log entry 7). -/
  drawCount : Nat
  deriving DecidableEq, Repr

/-- Why the machine stops with a fault. -/
inductive Fault where
  /-- Raised by a command that reads the element of `SIGI` at `index`, which the host has not written since reset:
  its output is unspecified and "a model should fault or refuse it" (R64, U2). SAFE: the block goes on. -/
  | unwrittenSample (index : Nat)
  deriving DecidableEq, Repr

/-- Why the model gives a step no meaning. -/
inductive Refusal where
  /-- An instruction that has no meaning yet, by mnemonic. No arm answers it. SAFE. -/
  | notModelled (mnemonic : String)
  /-- Raised by `SCHR` when the scripted random source answers `answer`, which is not finite or not in `[LO, HI)`:
  "the commands' rules then promise nothing" (R270, U6). SAFE: the block goes on. -/
  | drawOutsideContract (answer : F)
  deriving DecidableEq, Repr

/-- The parameter registers after reset: integers and raw registers 0, floating registers `+0.0` (R70). -/
def ParamRegs.reset : ParamRegs where
  sampleRate := 0
  inLen := 0
  sampleLength := 0
  newSampleRate := 0
  rmMix := 0
  rmAmount := 0
  rmWaveform := 0
  rmRate := 0
  rmFrequency := 0
  dlMix := 0
  dlDelay := 0
  dlFeedback := 0
  dlStages := 0
  dlWidth := 0
  dlHighPass := 0
  dlLowPass := 0
  divOffset := 0
  apM := 0

/-- The machine right after reset (R70, R290): every register 0 or `+0.0`, no memory element specified, no host access
issued. The capacities, counters and port fields are the model's own (log entries 3, 4, 7, 8). -/
def State.reset : State where
  cmd := 0
  result := 0
  params := .reset
  outLen := 0
  mtabLen := 0
  lfoPhase := 0
  carrierPhase := 0
  sigi := []
  sigo := []
  mtab := []
  dly := []
  sigoEpoch := 0
  mtabEpoch := 0
  caps := ⟨Config.resetSigCap, Config.resetDlyCap, Config.resetStageCap⟩
  hostQueue := []
  hostAnswers := []
  drawScript := []
  drawCount := 0

end Sys2Proof.Machine
end

