-- ==== Sys2Proof/Machine/Flags.lean ====
section
/-! DEFINITION. The status bits. The block has no flags and no condition codes (`10_state.md` R66); its only status bits
are the fields of `RESULT` (R46 to R48), built and read here. -/

namespace Sys2Proof.Machine

/-- The outcome codes (R47, R251). -/
inductive ResultCode where
  /-- 0, completed. -/
  | ok
  /-- 1, a parameter outside its range, or a derived stage length of 0 (R253). -/
  | invalidParameter
  /-- 2, a degenerate `DSMP` request (R254). -/
  | degenerateResample
  /-- 3, a request the finite memories cannot hold (R256). -/
  | capacityExceeded
  /-- 4, an illegal command word (R257). -/
  | illegalCommand
  deriving DecidableEq, Repr

/-- The number of a code in `RESULT.CODE` (R47). -/
def ResultCode.bits : ResultCode → BitVec 4
  | .ok => 0
  | .invalidParameter => 1
  | .degenerateResample => 2
  | .capacityExceeded => 3
  | .illegalCommand => 4

/-- The word of `RESULT`: `STAGE` 63:32, zero 31:16, `PARAM` 15:8, zero 7:5, `SIGX` 4, `CODE` 3:0 (R46). -/
def resultWord (code : ResultCode) (sigx : Bool) (param : BitVec 8) (stage : BitVec 32) : BitVec 64 :=
  stage ++ ((0 : BitVec 16) ++ (param ++ ((0 : BitVec 3) ++ (BitVec.ofBool sigx ++ code.bits))))

/-- `RESULT.CODE`, bits 3:0. -/
def codeOf (r : BitVec 64) : BitVec 4 := r.extractLsb' 0 4

/-- `RESULT.SIGX`, bit 4. -/
def sigxOf (r : BitVec 64) : BitVec 1 := r.extractLsb' 4 1

/-- `RESULT.PARAM`, bits 15:8. -/
def paramOf (r : BitVec 64) : BitVec 8 := r.extractLsb' 8 8

/-- `RESULT.STAGE`, bits 63:32. -/
def stageOf (r : BitVec 64) : BitVec 32 := r.extractLsb' 32 32

/-- The reserved bits 7:5 of `RESULT`. -/
def reservedLowOf (r : BitVec 64) : BitVec 3 := r.extractLsb' 5 3

/-- The reserved bits 31:16 of `RESULT`. -/
def reservedHighOf (r : BitVec 64) : BitVec 16 := r.extractLsb' 16 16

end Sys2Proof.Machine
end

