-- ==== Sys2Proof/Machine/Float.lean ====
section
/-! DEFINITION. The floating type `F` (`00_scope.md` R20 to R30; the sine of R27 is Sine.lean's): IEEE 754 binary64, round
to nearest, ties to even. Every finite value is a whole number of units of `2^-1074`, the smallest subnormal, so an
operation converts its operands to exact integers, computes exactly, and rounds once at the end. -/

namespace Sys2Proof.Machine

/-! ## The format (R20) -/

/-- The lower 63 bits: exponent and fraction. -/
def magBits (x : F) : Nat := x.toNat % 2 ^ 63

/-- The sign bit. -/
def signBit (x : F) : Bool := decide (2 ^ 63 ≤ x.toNat)

/-- The lower 63 bits of an infinity. -/
def infBits : Nat := 0x7FF0000000000000

/-- Neither an infinity nor a NaN (R23). -/
def isFinite (x : F) : Bool := decide (magBits x < infBits)

/-- A NaN: exponent all ones, fraction not zero. -/
def isNaN (x : F) : Bool := decide (infBits < magBits x)

/-- An infinity of either sign. -/
def isInf (x : F) : Bool := decide (magBits x = infBits)

/-- A zero of either sign. -/
def isZero (x : F) : Bool := decide (magBits x = 0)

/-- Units of `2^-1074` in the magnitude whose exponent and fraction bits are `m`. -/
def unitsOfBits (m : Nat) : Nat :=
  if m / 2 ^ 52 = 0 then m else (2 ^ 52 + m % 2 ^ 52) * 2 ^ (m / 2 ^ 52 - 1)

/-- The magnitude of `x` in units of `2^-1074` (of an infinity: more than that of any finite value). -/
def units (x : F) : Nat := unitsOfBits (magBits x)

/-- The value of a finite `x` in units of `2^-1074`. -/
def signedUnits (x : F) : Int := if signBit x then -(units x : Int) else (units x : Int)

/-- Units of `2^-1074` in 1; irreducible, so that no proof unfolds the number. -/
@[irreducible] def oneUnits : Nat := 2 ^ 1074

/-- The `F` with the given sign and exponent and fraction bits. -/
def packF (neg : Bool) (m : Nat) : F := BitVec.ofNat 64 ((if neg then 2 ^ 63 else 0) + m)

/-! ## Constants (R24) -/

def F_0 : F := 0x0000000000000000
def F_1 : F := 0x3FF0000000000000
def F_1p5 : F := 0x3FF8000000000000
def F_3 : F := 0x4008000000000000
def F_10 : F := 0x4024000000000000
def F_100 : F := 0x4059000000000000
def F_1000 : F := 0x408F400000000000
def F_0p9 : F := 0x3FECCCCCCCCCCCCD
def TWO_PI : F := 0x401921FB54442D18

/-! ## Comparison (R23) -/

/-- `a < b`; false when either is a NaN, and `-0.0` equals `+0.0`. -/
def fLt (a b : F) : Bool := !isNaN a && !isNaN b && decide (signedUnits a < signedUnits b)

/-- `a <= b`. -/
def fLe (a b : F) : Bool := !isNaN a && !isNaN b && decide (signedUnits a ≤ signedUnits b)

/-- `a = b`. -/
def fEq (a b : F) : Bool := !isNaN a && !isNaN b && decide (signedUnits a = signedUnits b)

/-! ## Rounding (R21) -/

/-- Exponent and fraction bits of the magnitude nearest to `num / den` units, ties to the even one, overflow to an
infinity. With `q` the whole units, the result keeps 53 significant bits (`k = log2 q - 52` dropped ones, 0 for a
subnormal); `k * 2^52 + m` is the encoding of `m * 2^k` units, a carry out of the fraction included. -/
def roundMag (num den : Nat) : Nat :=
  let k := (num / den).log2 - 52
  let d := den * 2 ^ k
  let m := num / d
  let r := num % d
  let up := if d < 2 * r ∨ (d = 2 * r ∧ m % 2 = 1) then 1 else 0
  min (k * 2 ^ 52 + (m + up)) infBits

/-- The `F` nearest to `± num / den` units. -/
def roundF (neg : Bool) (num den : Nat) : F := packF neg (roundMag num den)

/-- The `F` nearest to an integer number of units, `zneg` the sign of a zero. -/
def roundUnits (zneg : Bool) (t : Int) : F :=
  if t = 0 then packF zneg 0 else roundF (decide (t < 0)) t.natAbs 1

/-! ## Arithmetic (R21) -/

/-- The NaN of an operation on operands `a` and `b`: some NaN, which one is free (log entry 5). -/
def nanResult (op : FloatOp) (a b : F) : F :=
  if isNaN (Config.nanBits op a b) then Config.nanBits op a b else 0x7FF8000000000000

/-- `neg(a)`: flips the sign bit, exact. -/
def fNeg (a : F) : F := a ^^^ 0x8000000000000000

/-- The sum of `a` and `b`, a NaN taken as that of operation `op`. -/
def addAs (op : FloatOp) (a b : F) : F :=
  if isNaN a || isNaN b then nanResult op a b
  else if isInf a then (if isInf b && signBit a != signBit b then nanResult op a b else a)
  else if isInf b then b
  else roundUnits (signBit a && signBit b) (signedUnits a + signedUnits b)

/-- `a (+) b`. -/
def fAdd (a b : F) : F := addAs .add a b

/-- `a (-) b`. -/
def fSub (a b : F) : F := addAs .sub a (if isNaN b then b else fNeg b)

/-- `a (*) b`. -/
def fMul (a b : F) : F :=
  let neg := signBit a != signBit b
  if isNaN a || isNaN b then nanResult .mul a b
  else if isInf a || isInf b then (if isZero a || isZero b then nanResult .mul a b else packF neg infBits)
  else roundF neg (units a * units b) oneUnits

/-- `a (/) b`. -/
def fDiv (a b : F) : F :=
  let neg := signBit a != signBit b
  if isNaN a || isNaN b then nanResult .div a b
  else if isInf a then (if isInf b then nanResult .div a b else packF neg infBits)
  else if isInf b then packF neg 0
  else if isZero b then (if isZero a then nanResult .div a b else packF neg infBits)
  else roundF neg (units a * oneUnits) (units b)

/-! ## Conversions (R25, R26, R30) -/

/-- `I2F(n)`, exact for `|n| < 2^53` (R25). -/
def i2f (n : Int) : F := roundUnits false (n * oneUnits)

/-- `F2I32(y)`: truncation toward zero, saturating; a NaN gives 0 (R26). -/
def f2i32 (y : F) : Sample :=
  if isNaN y then 0
  else
    let t : Int := (signedUnits y).tdiv oneUnits
    BitVec.ofInt 32 (max (-2 ^ 31) (min t (2 ^ 31 - 1)))

/-- A length in samples, or the token `TOO_LONG` (R30). -/
inductive SampleCount where
  | tooLong
  | samples (n : Nat)
  deriving DecidableEq, Repr

/-- `FLOORLEN(t, sr)` (R30). Its callers give it a finite `t > 0` and `sr > 0`, and then the quotient is `+inf` or
finite and not negative; the value outside that domain is used by no rule (log entry 12). -/
def floorLen (t : F) (sr : U32) : SampleCount :=
  let q := fDiv (fMul t (i2f sr.toNat)) F_1000
  if isFinite q then .samples (units q / oneUnits) else .tooLong

/-- The `F` nearest to the decimal `± num / den`: how a host script's decimal is read (R120). -/
def nearestF (neg : Bool) (num den : Nat) : F := roundF neg (num * oneUnits) den

/-! ## The phase wrap (R28) -/

/-- The exact remainder `fmod(x, TWO_PI)` of a finite `x`, with the sign of `x` (R28). -/
def fmodTwoPi (x : F) : F := roundF (signBit x) (units x % units TWO_PI) 1

/-- `WRAP(x)` (R28). -/
def fWrap (x : F) : F :=
  if !isFinite x then nanResult .wrap x TWO_PI
  else
    let r := fmodTwoPi x
    if fEq r F_0 then F_0
    else if fLt F_0 r then r
    else
      let s := fAdd r TWO_PI
      if fLt s TWO_PI then s else F_0

end Sys2Proof.Machine
end

