-- ==== Sys2Proof/Machine/Ops.lean ====
section
/-! DEFINITION. The shared operations: memories of elements, the end of a command (completion, and rejection, which is
all there is of exception entry; there is no return, `60_exceptions.md` R261, R262), and the random port. -/

namespace Sys2Proof.Machine

/-! ## Memories (`20_memory.md` R80, R81) -/

/-- The element at index `i`; none where the element holds no specified value. -/
def memRead {w : Nat} : Mem w → Nat → Option (BitVec w)
  | [], _ => none
  | (j, v) :: m, i => if i = j then some v else memRead m i

/-- Store one whole element, keeping the indices strictly rising. -/
def memWrite {w : Nat} : Mem w → Nat → BitVec w → Mem w
  | [], i, v => [(i, v)]
  | (j, u) :: m, i, v =>
    if i < j then (i, v) :: (j, u) :: m
    else if i = j then (i, v) :: m
    else (j, u) :: memWrite m i v

/-- The memory that holds the elements of a list from index `start` upward and nothing else. -/
def memOfListFrom {w : Nat} : Nat → List (BitVec w) → Mem w
  | _, [] => []
  | start, v :: vs => (start, v) :: memOfListFrom (start + 1) vs

/-- The memory whose elements `0 ..< len(vs)` hold a sequence and whose other elements hold no specified value. -/
def memOfList {w : Nat} (vs : List (BitVec w)) : Mem w := memOfListFrom 0 vs

/-- The epoch that indexes the free value of an unspecified element: `SIGO` and `MTAB` become unspecified again at
commands, the other spaces never after reset (log entry 4). -/
def epochOf (sp : Space) (s : State) : Nat :=
  match sp with
  | .sigo => s.sigoEpoch
  | .mtab => s.mtabEpoch
  | .reg | .sigi | .dly => 0

/-- What an element that holds no specified value reads as: a free value (R61, R63, R64, R84). -/
def unspecifiedElement (w : Nat) (sp : Space) (s : State) (i : Nat) : BitVec w :=
  (Config.unspecified sp (epochOf sp s) i).setWidth w

/-! ## Ends of a command (`60_exceptions.md` R250 to R262) -/

/-- What `raise <Name>(param, stage)` records (R252). -/
structure Rejection where
  code : ResultCode
  param : BitVec 8
  stage : BitVec 32
  deriving DecidableEq, Repr

/-- The first check of a list that fails: each check is the failing condition and what it raises, in order (R260). -/
def firstFailure : List (Bool × Rejection) → Option Rejection
  | [] => none
  | (fails, r) :: rest => if fails then some r else firstFailure rest

/-- `raise`, taking an exception: `RESULT` rewritten, `OUT_LEN` 0, every element of `SIGO` unspecified, nothing else
(R252). No state is saved and control goes nowhere (R261). -/
def reject (r : Rejection) (s : State) : State :=
  { s with
    result := resultWord r.code false r.param r.stage
    outLen := 0
    sigo := []
    sigoEpoch := s.sigoEpoch + 1 }

/-- What `DIFD` and `SCHR` do besides when they are rejected: `MTAB_LEN` 0 and every element of `MTAB` unspecified
(R58, R252). -/
def clearStageTable (s : State) : State :=
  { s with mtabLen := 0, mtab := [], mtabEpoch := s.mtabEpoch + 1 }

/-- `raise` in a cascade command (R252). -/
def rejectCascade (r : Rejection) (s : State) : State := reject r (clearStageTable s)

/-- The stage-length table of a completed cascade command: `MTAB[k]` for `k < N`, `MTAB_LEN` `N` (R58, R63). -/
def setStageTable (lens : List Nat) (s : State) : State :=
  { s with
    mtab := memOfList (lens.map (BitVec.ofNat 32))
    mtabLen := BitVec.ofNat 32 lens.length
    mtabEpoch := s.mtabEpoch + 1 }

/-- The end of a completed command: `SIGO[0 ..< len(out)]` holds the output and its other elements are unspecified,
`OUT_LEN` is the length, `CODE` is 0 and `SIGX` the notice (R47, R48, R61). -/
def complete (out : List Sample) (sigx : Bool) (s : State) : State :=
  { s with
    sigo := memOfList out
    sigoEpoch := s.sigoEpoch + 1
    outLen := BitVec.ofNat 32 out.length
    result := resultWord .ok sigx 0 0 }

/-- Nothing in `DLY` survives a command (R62): after one that used it every element is unspecified (log entry 9). -/
def forgetDelays (s : State) : State := { s with dly := [] }

/-- The phase registers after a completed `RMOD` (R59). -/
def setPhases (lfo carrier : F) (s : State) : State := { s with lfoPhase := lfo, carrierPhase := carrier }

/-- The end of an illegal word (R113, R257): no operand is read and no operation runs. -/
def illegalCommand (s : State) : State := reject ⟨.illegalCommand, 0x00, 0⟩ s

/-! ## The random port (`60_exceptions.md` R270, R271) -/

/-- The contract on an answer to `Draw(lo, hi)`: finite and `lo <= r < hi` (R270). -/
def drawAllowed (lo hi r : F) : Bool := isFinite r && fLe lo r && fLt r hi

/-- A free answer cut to the contract: every answer the contract allows is possible, and no other (log entry 7). -/
def boundedDraw (lo hi r : F) : F := if drawAllowed lo hi r then r else lo

/-- One transaction `Draw(lo, hi)`: the next scripted answer, or a free one where none is scripted; a scripted answer
outside the contract is returned as an error (R270, U6). -/
def draw (lo hi : F) (s : State) : Except F (F × State) :=
  match s.drawScript with
  | [] => .ok (boundedDraw lo hi (Config.freeDraw s.drawCount), { s with drawCount := s.drawCount + 1 })
  | r :: rest =>
    if drawAllowed lo hi r then .ok (r, { s with drawScript := rest, drawCount := s.drawCount + 1 })
    else .error r

/-- `n` draws with the same bounds, in order (R173). -/
def drawMany (lo hi : F) : Nat → State → Except F (List F × State)
  | 0, s => .ok ([], s)
  | n + 1, s =>
    match draw lo hi s with
    | .error r => .error r
    | .ok (r, s1) =>
      match drawMany lo hi n s1 with
      | .error r' => .error r'
      | .ok (rs, s2) => .ok (r :: rs, s2)

end Sys2Proof.Machine
end

