-- ==== Sys2Proof/Machine/Operands.lean ====
section
/-! DEFINITION. The operands of the commands, all implicit, and their normalisation (`30_encoding.md` R115 to R117),
and the range checks several commands share. -/

namespace Sys2Proof.Machine

/-- The samples of `SIGI` at a list of indices, in order; the first index whose element the host has not written is
returned as an error (R64). -/
def readSamples (m : Mem 32) : List Nat → Except Nat (List Sample)
  | [] => .ok []
  | i :: is =>
    match memRead m i with
    | none => .error i
    | some v =>
      match readSamples m is with
      | .error e => .error e
      | .ok vs => .ok (v :: vs)

/-- The input Signal `SIGI[0 ..< n]`. -/
def readSignal (s : State) (n : Nat) : Except Nat (List Sample) := readSamples s.sigi (List.range n)

/-- `I2F` of a sample (R25). -/
def sampleF (x : Sample) : F := i2f x.toInt

/-- The sample rate in a floating expression, exact (R116). -/
def sampleRateF (s : State) : F := i2f s.params.sampleRate.toNat

/-- `G = REG[DL_FEEDBACK] (/) F_100` (R116). -/
def feedbackG (s : State) : F := fDiv s.params.dlFeedback F_100

/-- `MIXN = REG[RM_MIX] (/) F_100` (R116). -/
def mixN (s : State) : F := fDiv s.params.rmMix F_100

/-- `AMTN = REG[RM_AMOUNT] (/) F_10` (R116). -/
def amountN (s : State) : F := fDiv s.params.rmAmount F_10

/-- The waveform operand (R53, R117). -/
inductive Waveform where
  | sinusoidal
  | square
  deriving DecidableEq, Repr

/-- Bit 0 of `RM_WAVEFORM`: 0 Sinusoidal, 1 Square (R117). -/
def waveformOf (b : BitVec 1) : Waveform := if b = 0 then .sinusoidal else .square

/-- `PAD(x, sr)`: five seconds of silence appended (R162). -/
def padSignal (x : List Sample) (sr : Nat) : List Sample := x ++ List.replicate (5 * sr) 0

/-- `x` is a NaN, an infinity, below `lo` or above `hi`. -/
def outOfRange (lo hi x : F) : Bool := !isFinite x || fLt x lo || fLt hi x

/-- The failing condition of the check on `IN_LEN`, made by every command (R256). -/
def inLenTooLong (s : State) : Bool := decide (s.caps.sigCap < s.params.inLen.toNat)

/-- The failing condition of the check on `DL_FEEDBACK` (R144, R169). -/
def badFeedback (s : State) : Bool := outOfRange (fNeg F_100) F_100 s.params.dlFeedback

/-- `InvalidParameter(param, stage)`. -/
def invalidParameter (param : BitVec 8) (stage : Nat := 0) : Rejection :=
  ⟨.invalidParameter, param, BitVec.ofNat 32 stage⟩

/-- `CapacityExceeded(param, stage)`. -/
def capacityExceeded (param : BitVec 8) (stage : Nat := 0) : Rejection :=
  ⟨.capacityExceeded, param, BitVec.ofNat 32 stage⟩

/-- `DegenerateResample(0x06, 0)`. -/
def degenerateResample : Rejection := ⟨.degenerateResample, 0x06, 0⟩

end Sys2Proof.Machine
end

