-- ==== Sys2Proof/Machine/AllPass.lean ====
section
/-! DEFINITION. The all-pass stage and the command `APF` (`40_allpass_stage.md`). -/

namespace Sys2Proof.Machine

/-- The element of `DLY` a stage reads. A stage reads only elements it has initialised (R141), so the free value of an
unspecified element is never taken. -/
def delayRead (dly : Mem 64) (p : Nat) : F := (memRead dly p).getD (Config.unspecified .dly 0 p)

/-- The value `y` of the sample step before truncation: `(neg(G) (*) xi) (+) delayed` (R142). -/
def stageY (g xi delayed : F) : F := fAdd (fMul (fNeg g) xi) delayed

/-- The value the sample step feeds back: `xi (+) (G (*) y)`, with the untruncated `y` (R142, R143). -/
def stageFeed (g xi y : F) : F := fAdd xi (fMul g y)

/-- The sample step at index `i` (R142): the output sample and the delay memory after it. -/
def stageStep (m : Nat) (g : F) (i : Nat) (x : Sample) (dly : Mem 64) : Sample × Mem 64 :=
  let p := i % m
  let xi := sampleF x
  let y := stageY g xi (delayRead dly p)
  (f2i32 y, memWrite dly p (stageFeed g xi y))

/-- The sample steps from index `i` on. -/
def stageLoop (m : Nat) (g : F) : Nat → List Sample → Mem 64 → List Sample × Mem 64
  | _, [], dly => ([], dly)
  | i, x :: xs, dly =>
    let a := stageStep m g i x dly
    let b := stageLoop m g (i + 1) xs a.2
    (a.1 :: b.1, b.2)

/-- `DLY[0 ..< M]` set to `+0.0` at the start of a stage, which uses no other element (R62, R141). -/
def clearedDelays (m : Nat) : Mem 64 := memOfList (List.replicate m F_0)

/-- `STAGE(x, M, G)` (R140, R141). -/
def stage (x : List Sample) (m : Nat) (g : F) : List Sample := (stageLoop m g 0 x (clearedDelays m)).1

/-- The checks of `APF`, in order (R144). -/
def apfChecks (s : State) : List (Bool × Rejection) :=
  [(inLenTooLong s, capacityExceeded 0x03),
   (decide (s.params.apM = 0), invalidParameter 0x18),
   (decide (s.caps.dlyCap < s.params.apM.toNat), capacityExceeded 0x18),
   (badFeedback s, invalidParameter 0x12)]

/-- `APF`: one stage on the input signal (R144). -/
def execApf (s : State) : Host.Outcome State Fault Refusal :=
  match firstFailure (apfChecks s) with
  | some r => .next (reject r s)
  | none =>
    match readSignal s s.params.inLen.toNat with
    | .error i => .fault (.unwrittenSample i)
    | .ok x => .next (complete (stage x s.params.apM.toNat (feedbackG s)) false (forgetDelays s))

end Sys2Proof.Machine
end

