-- ==== Sys2Proof/Machine/Cascade.lean ====
section
/-! DEFINITION. The diffusion cascade and the commands `DIFD` and `SCHR` (`41_diffusion_cascade.md`). -/

namespace Sys2Proof.Machine

/-- `CASCADE(x, Mtab, G)`: stage `k` takes the truncated output of stage `k - 1` (R163, R168). -/
def cascade (g : F) : List Nat → List Sample → List Sample
  | [], x => x
  | m :: ms, x => cascade g ms (stage x m g)

/-- The six checks both commands make on their shared operands, in order (R169). -/
def sharedChecks (s : State) : List (Bool × Rejection) :=
  [(inLenTooLong s, capacityExceeded 0x03),
   (decide (s.params.sampleRate = 0), invalidParameter 0x02),
   (decide (s.caps.sigCap < s.params.inLen.toNat + 5 * s.params.sampleRate.toNat), capacityExceeded 0x04),
   (!isFinite s.params.dlDelay || fLe s.params.dlDelay F_0, invalidParameter 0x11),
   (badFeedback s, invalidParameter 0x12),
   (decide (s.caps.stageCap < s.params.dlStages.toNat), capacityExceeded 0x13)]

/-- The scan of the stage lengths from stage `k` upward: at the first stage whose length is too long or 0 the command is
rejected, otherwise the table is the list of lengths (R166, R167, R176). -/
def scanTable (dlyCap : Nat) : Nat → List SampleCount → Except Rejection (List Nat)
  | _, [] => .ok []
  | k, .tooLong :: _ => .error (capacityExceeded 0x11 k)
  | k, .samples m :: rest =>
    if dlyCap < m then .error (capacityExceeded 0x11 k)
    else if m = 0 then .error (invalidParameter 0x11 k)
    else
      match scanTable dlyCap (k + 1) rest with
      | .error r => .error r
      | .ok ms => .ok (m :: ms)

/-- The end of a cascade command once its table passed: pad, run the cascade, write the table and the output (R160,
R161, R171). -/
def runCascade (lens : List Nat) (s : State) : Host.Outcome State Fault Refusal :=
  match readSignal s s.params.inLen.toNat with
  | .error i => .fault (.unwrittenSample i)
  | .ok x =>
    .next (complete (cascade (feedbackG s) lens (padSignal x s.params.sampleRate.toNat)) false
      (setStageTable lens (forgetDelays s)))

/-- The length of stage `k` of the deterministic table: `B0 div (k + d)` (R165). -/
def divisorLength (b0 : SampleCount) (d k : Nat) : SampleCount :=
  match b0 with
  | .tooLong => .tooLong
  | .samples n => .samples (n / (k + d))

/-- The stage lengths of `DIFD`, stage 0 first (R165). -/
def difdLengths (s : State) : List SampleCount :=
  (List.range s.params.dlStages.toNat).map
    (divisorLength (floorLen s.params.dlDelay s.params.sampleRate) s.params.divOffset.toNat)

/-- The checks of `DIFD` before its table: the shared six, then (7) on `DIV_OFFSET` (R161, R164). -/
def difdChecks (s : State) : List (Bool × Rejection) :=
  sharedChecks s ++ [(decide (s.params.divOffset = 0), invalidParameter 0x17)]

/-- `DIFD`, the deterministic divisor cascade (R161). -/
def execDifd (s : State) : Host.Outcome State Fault Refusal :=
  match firstFailure (difdChecks s) with
  | some r => .next (rejectCascade r s)
  | none =>
    match scanTable s.caps.dlyCap 0 (difdLengths s) with
    | .error r => .next (rejectCascade r s)
    | .ok lens => runCascade lens s

/-- `LO = F_0p9 (*) base` (R172). -/
def drawLo (s : State) : F := fMul F_0p9 s.params.dlDelay

/-- `HI = F_1p5 (*) base` (R172). -/
def drawHi (s : State) : F := fMul F_1p5 s.params.dlDelay

/-- The checks of `SCHR` before its draws: the shared six, then (7) on the draw interval (R171, R172). -/
def schrChecks (s : State) : List (Bool × Rejection) :=
  sharedChecks s ++ [(!isFinite (drawHi s) || !fLt (drawLo s) (drawHi s), invalidParameter 0x11)]

/-- `SCHR`, the randomised Schroeder cascade: all `N` draws, then the table, then the cascade (R171, R173). -/
def execSchr (s : State) : Host.Outcome State Fault Refusal :=
  match firstFailure (schrChecks s) with
  | some r => .next (rejectCascade r s)
  | none =>
    match drawMany (drawLo s) (drawHi s) s.params.dlStages.toNat s with
    | .error r => .refused (.drawOutsideContract r)
    | .ok (rs, s1) =>
      match scanTable s.caps.dlyCap 0 (rs.map (fun r => floorLen r s.params.sampleRate)) with
      | .error r => .next (rejectCascade r s1)
      | .ok lens => runCascade lens s1

end Sys2Proof.Machine
end

