-- ==== Sys2Proof/Machine/Resampler.lean ====
section
/-! DEFINITION. The decimating resampler and the command `DSMP` (`43_resampler.md`). -/

namespace Sys2Proof.Machine

/-- The checks of `DSMP`, in order (R231, R232). -/
def dsmpChecks (s : State) : List (Bool × Rejection) :=
  [(inLenTooLong s, capacityExceeded 0x03),
   (decide (s.params.newSampleRate = 0) || decide (s.params.sampleRate.toNat < s.params.newSampleRate.toNat),
    degenerateResample)]

/-- `FACTOR = sr div nsr` (R231). -/
def decimationFactor (s : State) : Nat := s.params.sampleRate.toNat / s.params.newSampleRate.toNat

/-- The number of output samples, `(IN_LEN + FACTOR - 1) div FACTOR` (R233). -/
def decimatedLength (s : State) : Nat :=
  (s.params.inLen.toNat + decimationFactor s - 1) / decimationFactor s

/-- `DSMP`: every `FACTOR`-th input sample, unchanged (R231, R233). -/
def execDsmp (s : State) : Host.Outcome State Fault Refusal :=
  match firstFailure (dsmpChecks s) with
  | some r => .next (reject r s)
  | none =>
    match readSamples s.sigi ((List.range (decimatedLength s)).map (fun j => j * decimationFactor s)) with
    | .error i => .fault (.unwrittenSample i)
    | .ok out => .next (complete out false s)

end Sys2Proof.Machine
end

