-- ==== Sys2Proof/Machine/SineSearch.lean ====
section
/-! DEFINITION. The real sine of a rational number, enclosed by exact partial sums (`00_scope.md` R27, property S4). An
enclosure narrow enough lies strictly between two neighbouring values of `F`, and one exists because the sine of a nonzero
rational is irrational: that theorem stands here because the search of Sine.lean ends by it. -/

namespace Sys2Proof.Machine

/-! ## Encodings and their values -/

theorem oneUnits_pos : 0 < oneUnits := by unfold oneUnits; exact Nat.pow_pos (by norm_num)

/-- `k * 2^52 + m` encodes `m * 2^k` units. -/
theorem unitsOfBits_scaled {k m : Nat} (h : (k = 0 ∨ 2 ^ 52 ≤ m) ∧ m ≤ 2 ^ 53) :
    unitsOfBits (k * 2 ^ 52 + m) = m * 2 ^ k := by
  obtain ⟨h1, h2⟩ := h
  unfold unitsOfBits
  rcases Nat.lt_or_ge m (2 ^ 52) with hm | hm
  · have hk : k = 0 := by omega
    subst hk
    rw [Nat.zero_mul, Nat.zero_add, if_pos (Nat.div_eq_of_lt hm), pow_zero, Nat.mul_one]
  · rcases Nat.lt_or_ge m (2 ^ 53) with hm' | hm'
    · have e1 : (k * 2 ^ 52 + m) / 2 ^ 52 = k + 1 := by omega
      have e2 : (k * 2 ^ 52 + m) % 2 ^ 52 = m - 2 ^ 52 := by omega
      rw [e1, e2, if_neg (by omega), show 2 ^ 52 + (m - 2 ^ 52) = m by omega, Nat.add_sub_cancel]
    · have hm'' : m = 2 ^ 53 := by omega
      have e1 : (k * 2 ^ 52 + m) / 2 ^ 52 = k + 2 := by omega
      have e2 : (k * 2 ^ 52 + m) % 2 ^ 52 = 0 := by omega
      rw [e1, e2, if_neg (by omega), hm'']
      have : k + 2 - 1 = k + 1 := by omega
      rw [this, pow_succ]; ring

theorem unitsOfBits_lt_succ (n : Nat) : unitsOfBits n < unitsOfBits (n + 1) := by
  rcases Nat.lt_or_ge n (2 ^ 52) with h | h
  · have a := unitsOfBits_scaled (k := 0) (m := n) ⟨.inl rfl, by omega⟩
    have b := unitsOfBits_scaled (k := 0) (m := n + 1) ⟨.inl rfl, by omega⟩
    simp only [Nat.zero_mul, Nat.zero_add, pow_zero, Nat.mul_one] at a b
    omega
  · have e : n = (n / 2 ^ 52 - 1) * 2 ^ 52 + (n % 2 ^ 52 + 2 ^ 52) := by omega
    have a := unitsOfBits_scaled (k := n / 2 ^ 52 - 1) (m := n % 2 ^ 52 + 2 ^ 52) ⟨.inr (by omega), by omega⟩
    have b := unitsOfBits_scaled (k := n / 2 ^ 52 - 1) (m := n % 2 ^ 52 + 2 ^ 52 + 1) ⟨.inr (by omega), by omega⟩
    rw [← e] at a
    rw [← Nat.add_assoc, ← e] at b
    rw [a, b]
    exact Nat.mul_lt_mul_of_pos_right (by omega) (by positivity)

/-- The encodings are ordered as their values. -/
theorem unitsOfBits_strictMono : StrictMono unitsOfBits := strictMono_nat_of_lt_succ unitsOfBits_lt_succ

/-- The greatest encoding whose value is at most `n` units. -/
def floorBits (n : Nat) : Nat := (n.log2 - 52) * 2 ^ 52 + n / 2 ^ (n.log2 - 52)

/-- `n` lies from the value of its encoding up to that of the next one. -/
theorem floorBits_spec (n : Nat) : unitsOfBits (floorBits n) ≤ n ∧ n < unitsOfBits (floorBits n + 1) := by
  set k := n.log2 - 52 with hk
  have hbound : (k = 0 ∨ 2 ^ 52 ≤ n / 2 ^ k) ∧ n / 2 ^ k + 1 ≤ 2 ^ 53 := by
    rcases Nat.eq_zero_or_pos n with h0 | hpos
    · have : k = 0 := by rw [hk, h0]; simp
      refine ⟨.inl this, by simp [h0]⟩
    · have hlo : 2 ^ n.log2 ≤ n := Nat.log2_self_le (by omega)
      have hhi : n < 2 ^ (n.log2 + 1) := Nat.lt_log2_self
      have hup : n / 2 ^ k < 2 ^ 53 := by
        rw [Nat.div_lt_iff_lt_mul (by positivity), ← pow_add]
        exact hhi.trans_le (Nat.pow_le_pow_right (by norm_num) (by omega))
      refine ⟨?_, hup⟩
      rcases Nat.eq_zero_or_pos k with h | h
      · exact .inl h
      · refine .inr ?_
        rw [Nat.le_div_iff_mul_le (by positivity), ← pow_add]
        exact (Nat.pow_le_pow_right (by norm_num) (by omega)).trans hlo
  have a := unitsOfBits_scaled (k := k) (m := n / 2 ^ k) ⟨hbound.1, by omega⟩
  have b := unitsOfBits_scaled (k := k) (m := n / 2 ^ k + 1) ⟨by rcases hbound.1 with h | h <;> omega, hbound.2⟩
  rw [← Nat.add_assoc] at b
  rw [floorBits, ← hk, a, b]
  have h1 := Nat.div_add_mod n (2 ^ k)
  have h2 := Nat.mod_lt n (show 0 < 2 ^ k by positivity)
  constructor
  · rw [Nat.mul_comm]; omega
  · rw [Nat.add_mul, Nat.mul_comm]; omega

/-! ## The enclosure -/

/-- The first `n` terms of the sine series at `q`. -/
def sinSum (q : ℚ) : Nat → ℚ
  | 0 => 0
  | n + 1 => sinSum q n + (-1) ^ n * q ^ (2 * n + 1) / (2 * n + 1).factorial

/-- How far the sum of `n` terms can be from the sine, once `2 |q| <= 2 n + 1`. -/
def sinError (q : ℚ) (n : Nat) : ℚ := 2 * |q| ^ (2 * n) / (2 * n).factorial

/-- The encoding just below the magnitude of the sum of `n` terms. -/
def sinBits (q : ℚ) (n : Nat) : Nat := floorBits ⌊|sinSum q n| * oneUnits⌋₊

/-- The enclosure of the sine by `n` terms lies strictly between the values of two neighbouring encodings. -/
def sinSeparated (q : ℚ) (n : Nat) : Bool :=
  decide (2 * |q| ≤ 2 * n + 1) &&
    decide ((unitsOfBits (sinBits q n) : ℚ) < (|sinSum q n| - sinError q n) * oneUnits) &&
    decide ((|sinSum q n| + sinError q n) * oneUnits < unitsOfBits (sinBits q n + 1))

/-- The sum of `n` terms is within `sinError` of the real sine. -/
theorem sinSum_error (q : ℚ) (n : Nat) (h : 2 * |q| ≤ 2 * n + 1) :
    |Real.sin q - sinSum q n| ≤ sinError q n := by
  have im : ∀ n, ((∑ m ∈ Finset.range (2 * n), (Complex.I * q) ^ m / m.factorial : ℂ)).im = sinSum q n := by
    intro n
    induction n with
    | zero => simp [sinSum]
    | succ n ih =>
      rw [show 2 * (n + 1) = 2 * n + 1 + 1 by ring, Finset.sum_range_succ, Finset.sum_range_succ, Complex.add_im,
        Complex.add_im, ih, sinSum]
      have e0 : (Complex.I * (q : ℂ)) ^ (2 * n) / (2 * n).factorial = (((-1) ^ n * q ^ (2 * n) / (2 * n).factorial : ℝ) : ℂ) := by
        rw [mul_pow, pow_mul Complex.I, Complex.I_sq]; push_cast; ring
      have e1 : (Complex.I * (q : ℂ)) ^ (2 * n + 1) / (2 * n + 1).factorial =
          (((-1) ^ n * q ^ (2 * n + 1) / (2 * n + 1).factorial : ℝ) : ℂ) * Complex.I := by
        rw [mul_pow, pow_succ Complex.I, pow_mul Complex.I, Complex.I_sq]; push_cast; ring
      rw [e0, e1, Complex.ofReal_im, Complex.mul_I_im, Complex.ofReal_re]
      push_cast; ring
  have hn : ‖Complex.I * (q : ℂ)‖ = |(q : ℝ)| := by simp
  have hb := Complex.exp_bound' (x := Complex.I * q) (n := 2 * n) (by
    rw [hn, div_le_iff₀ (by positivity)]
    have : (2 * |(q : ℝ)|) ≤ 2 * n + 1 := by exact_mod_cast h
    push_cast; linarith)
  have hs : (Complex.exp (Complex.I * q)).im = Real.sin q := by
    rw [mul_comm, ← Complex.exp_ofReal_mul_I_im]; simp
  rw [hn] at hb
  have := (Complex.abs_im_le_norm _).trans hb
  rw [Complex.sub_im, hs, im] at this
  rw [sinError]; push_cast
  calc _ ≤ _ := this
    _ = _ := by ring

/-! ## The search ends -/

open Polynomial in
/-- The sine of a nonzero rational number `a / b` is irrational: with `n e^r` near `p g(r)` at both roots `r` of
`b^2 X^2 + a^2` (Mathlib's analytical part of Lindemann and Weierstrass), a rational sine would make a nonzero integer
smaller than 1 in magnitude. -/
theorem irrational_sin (q : ℚ) (hq : q ≠ 0) : Irrational (Real.sin q) := by
  intro ⟨s, hs⟩
  have hs0 : s ≠ 0 := by
    rintro rfl
    obtain ⟨k, hk⟩ := Real.sin_eq_zero_iff.1 (show Real.sin q = 0 by rw [← hs]; simp)
    have hk0 : k ≠ 0 := by rintro rfl; simp at hk; exact hq (by exact_mod_cast hk.symm)
    exact irrational_pi ⟨q / k, by push_cast; rw [← hk]; field_simp⟩
  set a : ℤ := q.num with ha
  set b : ℕ := q.den with hb
  have hb0 : 0 < b := q.den_pos
  have ha0 : a ≠ 0 := by simpa [ha] using hq
  have hqab : (q : ℂ) * b = a := by
    have := Rat.mul_den_eq_num q
    exact_mod_cast congrArg (fun r : ℚ => (r : ℂ)) this
  let f : ℤ[X] := C ((b : ℤ) ^ 2) * X ^ 2 + C (a ^ 2)
  have hf0 : f.eval 0 = a ^ 2 := by simp [f]
  have hdeg : f.natDegree ≤ 2 := by simp only [f]; compute_degree
  obtain ⟨c, hc⟩ := LindemannWeierstrass.exp_polynomial_approx f (by rw [hf0]; exact pow_ne_zero _ ha0)
  have hroot : ∀ w : ℂ, w ^ 2 = -(q : ℂ) ^ 2 → w ∈ f.aroots ℂ := by
    intro w hw
    rw [mem_aroots]
    refine ⟨?_, ?_⟩
    · intro h; rw [h] at hf0; simp at hf0; exact ha0 (pow_eq_zero_iff (two_ne_zero)|>.1 hf0.symm)
    · simp [f, hw]; rw [← hqab]; ring
  -- the differences of powers of the two roots
  have hmono : ∀ K j : ℕ, j ≤ K → ∃ Z : ℤ,
      (b : ℂ) ^ K * ((Complex.I * q) ^ j - (-(Complex.I * q)) ^ j) = 2 * Complex.I * Z := by
    intro K j hj
    obtain ⟨d, rfl⟩ := Nat.exists_eq_add_of_le hj
    have e : (b : ℂ) ^ (j + d) * (q : ℂ) ^ j = (b : ℂ) ^ d * (a : ℂ) ^ j := by rw [← hqab]; ring
    rcases Nat.even_or_odd' j with ⟨l, rfl | rfl⟩
    · exact ⟨0, by rw [neg_pow, pow_mul (-1 : ℂ)]; simp⟩
    · refine ⟨(-1) ^ l * b ^ d * a ^ (2 * l + 1), ?_⟩
      have e1 : (Complex.I * (q : ℂ)) ^ (2 * l + 1) = Complex.I * (-1) ^ l * (q : ℂ) ^ (2 * l + 1) := by
        rw [mul_pow, pow_succ Complex.I, pow_mul Complex.I, Complex.I_sq]; ring
      rw [neg_pow, e1, pow_succ (-1 : ℂ), pow_mul (-1 : ℂ)]
      push_cast
      linear_combination (2 * Complex.I * (-1) ^ l) * e
  have hpoly : ∀ (K : ℕ) (g : ℤ[X]), g.natDegree ≤ K → ∃ Z : ℤ,
      (b : ℂ) ^ K * (aeval (Complex.I * q) g - aeval (-(Complex.I * q)) g) = 2 * Complex.I * Z := by
    intro K g hg
    choose! Z hZ using hmono K
    refine ⟨∑ j ∈ Finset.range (K + 1), g.coeff j * Z j, ?_⟩
    rw [aeval_eq_sum_range' (Nat.lt_succ_of_le hg), aeval_eq_sum_range' (Nat.lt_succ_of_le hg),
      ← Finset.sum_sub_distrib, Finset.mul_sum]
    push_cast
    rw [Finset.mul_sum]
    refine Finset.sum_congr rfl fun j hj => ?_
    have := hZ j (by simpa [Nat.lt_succ_iff] using hj)
    simp only [zsmul_eq_mul]
    linear_combination (g.coeff j : ℂ) * this
  -- a prime that is large enough
  set C₁ : ℝ := |c| * b ^ 2 with hC₁
  have hlim := ((FloorSemiring.tendsto_pow_div_factorial_atTop C₁).const_mul (s.den * C₁))
  rw [mul_zero] at hlim
  obtain ⟨N, hN⟩ := (hlim.eventually (gt_mem_nhds (show (0 : ℝ) < 1 by norm_num))).exists_forall_of_atTop
  obtain ⟨p, hpN, hp⟩ := Nat.exists_infinite_primes (N + (a ^ 2).natAbs + s.num.natAbs + b + 2)
  obtain ⟨n, hn, g, hg, happ⟩ := hc p (by rw [hf0]; omega) hp
  have h1 := happ (hroot (Complex.I * q) (by rw [mul_pow, Complex.I_sq]; ring))
  have h2 := happ (hroot (-(Complex.I * q)) (by rw [neg_sq, mul_pow, Complex.I_sq]; ring))
  obtain ⟨Z, hZ⟩ := hpoly (2 * p) g (hg.trans (by
    have := Nat.mul_le_mul_left p hdeg; omega))
  have hexp : Complex.exp (Complex.I * q) - Complex.exp (-(Complex.I * q)) = 2 * Complex.I * s := by
    have h := Complex.ofReal_sin (q : ℝ)
    rw [← hs, Complex.sin] at h
    push_cast at h
    rw [h, mul_comm Complex.I (q : ℂ), neg_mul]
    have := Complex.I_sq
    linear_combination (Complex.exp (q * Complex.I) - Complex.exp (-(q * Complex.I))) * this
  have hden : (s : ℂ) * s.den = s.num := by
    have := Rat.mul_den_eq_num s
    exact_mod_cast congrArg (fun r : ℚ => (r : ℂ)) this
  set M : ℤ := n * s.num * b ^ (2 * p) - p * Z * s.den with hM
  have key : (2 * Complex.I * (M : ℂ)) = s.den * b ^ (2 * p) *
      ((n • Complex.exp (Complex.I * q) - p • aeval (Complex.I * q) g) -
        (n • Complex.exp (-(Complex.I * q)) - p • aeval (-(Complex.I * q)) g)) := by
    rw [hM]; push_cast
    simp only [zsmul_eq_mul, nsmul_eq_mul]
    linear_combination (-(s.den : ℂ) * b ^ (2 * p) * n) * hexp + (p * s.den : ℂ) * hZ -
      (2 * Complex.I * n * b ^ (2 * p)) * hden
  have hnorm : 2 * |(M : ℝ)| ≤ s.den * b ^ (2 * p) * (2 * (c ^ p / (p - 1).factorial)) := by
    have e : ‖2 * Complex.I * (M : ℂ)‖ = 2 * |(M : ℝ)| := by simp
    rw [← e, key, norm_mul]
    have e2 : ‖((s.den : ℂ) * b ^ (2 * p))‖ = s.den * b ^ (2 * p) := by simp
    rw [e2]
    refine mul_le_mul_of_nonneg_left ?_ (by positivity)
    refine (norm_sub_le _ _).trans ?_
    rw [two_mul]
    exact add_le_add h1 h2
  have hlt : |(M : ℝ)| < 1 := by
    have h3 := hN (p - 1) (by omega)
    have e : s.den * C₁ * (C₁ ^ (p - 1) / (p - 1).factorial) = s.den * b ^ (2 * p) * (|c| ^ p / (p - 1).factorial) := by
      have : C₁ ^ p = |c| ^ p * b ^ (2 * p) := by rw [hC₁, mul_pow, ← pow_mul]
      have e2 : C₁ * C₁ ^ (p - 1) = C₁ ^ p := by rw [← pow_succ']; congr 1; omega
      rw [mul_div_assoc', mul_assoc, e2, this]; ring
    rw [e] at h3
    have h4 : c ^ p / ((p - 1).factorial : ℝ) ≤ |c| ^ p / (p - 1).factorial := 
      div_le_div_of_nonneg_right ((le_abs_self _).trans_eq (abs_pow _ _)) (by positivity)
    have h5 : s.den * b ^ (2 * p) * (c ^ p / ((p - 1).factorial : ℝ)) ≤ s.den * b ^ (2 * p) * (|c| ^ p / (p - 1).factorial) :=
      mul_le_mul_of_nonneg_left h4 (by positivity)
    linarith
  have hM0 : M = 0 := by
    have : |M| < 1 := by exact_mod_cast hlt
    exact Int.abs_lt_one_iff.1 this
  have hdvd : (p : ℤ) ∣ n * s.num * b ^ (2 * p) := ⟨Z * s.den, by rw [hM] at hM0; linarith⟩
  have hp' := Nat.prime_iff_prime_int.1 hp
  rcases hp'.dvd_or_dvd hdvd with h | h
  · rcases hp'.dvd_or_dvd h with h | h
    · exact hn h
    · have := Int.natAbs_le_of_dvd_ne_zero h (by simpa using hs0)
      simp at this; omega
  · have h := hp'.dvd_of_dvd_pow h
    have := Nat.le_of_dvd hb0 (by exact_mod_cast h)
    omega

/-- Some number of terms separates the sine of a nonzero rational from every value of `F`. -/
theorem exists_sinSeparated (q : ℚ) (hq : q ≠ 0) : ∃ n, sinSeparated q n = true := by
  have hirr := irrational_sin q hq
  set T : ℝ := |Real.sin q| * oneUnits with hT
  have hone : (0 : ℝ) < oneUnits := by exact_mod_cast oneUnits_pos
  set m := floorBits ⌊T⌋₊ with hm
  obtain ⟨h1, h2⟩ := floorBits_spec ⌊T⌋₊
  rw [← hm] at h1 h2
  have hT0 : 0 ≤ T := by positivity
  have hTirr : Irrational T := by
    have : Irrational |Real.sin q| := by
      rcases abs_choice (Real.sin q) with h | h <;> rw [h]
      · exact hirr
      · exact hirr.neg
    exact this.mul_natCast oneUnits_pos.ne'
  have h3 : (unitsOfBits m : ℝ) < T := by
    refine lt_of_le_of_ne ?_ ?_
    · exact (Nat.le_floor_iff hT0).1 h1
    · intro h; exact hTirr ⟨(unitsOfBits m : ℚ), by rw [← h]; simp⟩
  have h4 : T < (unitsOfBits (m + 1) : ℝ) := (Nat.floor_lt hT0).1 h2
  -- the sums and the errors converge
  have hE : Filter.Tendsto (fun n => ((sinError q n : ℚ) : ℝ)) Filter.atTop (nhds 0) := by
    have := (FloorSemiring.tendsto_pow_div_factorial_atTop |(q : ℝ)|).const_mul 2
    rw [mul_zero] at this
    have h := this.comp (Filter.tendsto_atTop_mono (fun n : ℕ => show n ≤ 2 * n by omega) Filter.tendsto_id)
    refine h.congr fun n => ?_
    simp only [Function.comp, sinError]; push_cast; ring
  have hbig : ∀ᶠ n : ℕ in Filter.atTop, 2 * |q| ≤ 2 * n + 1 := by
    obtain ⟨N, hN⟩ := exists_nat_ge (2 * |q|)
    filter_upwards [Filter.eventually_ge_atTop N] with n hn
    have : (N : ℚ) ≤ n := by exact_mod_cast hn
    have := (n.cast_nonneg : (0 : ℚ) ≤ n)
    linarith
  set d := min (T - unitsOfBits m) (unitsOfBits (m + 1) - T) with hd
  have hdpos : 0 < d := lt_min (by linarith) (by linarith)
  have hsmall : ∀ᶠ n : ℕ in Filter.atTop, ((sinError q n : ℚ) : ℝ) < d / (2 * oneUnits) :=
    hE.eventually (gt_mem_nhds (by positivity))
  obtain ⟨n, hn1, hn2⟩ := (hbig.and hsmall).exists
  refine ⟨n, ?_⟩
  have herr := sinSum_error q n hn1
  have habs : |(|Real.sin q| - |((sinSum q n : ℚ) : ℝ)|)| ≤ sinError q n := (abs_abs_sub_abs_le _ _).trans herr
  rw [abs_le] at habs
  have hE1 : ((sinError q n : ℚ) : ℝ) * (2 * oneUnits) < d := (lt_div_iff₀ (by positivity)).1 hn2
  have hd1 : d ≤ T - unitsOfBits m := min_le_left _ _
  have hd2 : d ≤ unitsOfBits (m + 1) - T := min_le_right _ _
  have l1 : (unitsOfBits m : ℝ) < (|((sinSum q n : ℚ) : ℝ)| - sinError q n) * oneUnits := by nlinarith
  have l2 : (|((sinSum q n : ℚ) : ℝ)| + sinError q n) * oneUnits < unitsOfBits (m + 1) := by nlinarith
  have hE0 : (0 : ℝ) ≤ (sinError q n : ℚ) := by rw [sinError]; positivity
  have l3 : (unitsOfBits m : ℝ) < |((sinSum q n : ℚ) : ℝ)| * oneUnits := by nlinarith
  have l4 : |((sinSum q n : ℚ) : ℝ)| * oneUnits < unitsOfBits (m + 1) := by nlinarith
  have hbits : sinBits q n = m := by
    have e1 : unitsOfBits m ≤ ⌊|sinSum q n| * (oneUnits : ℚ)⌋₊ := by
      rw [Nat.le_floor_iff (by positivity)]; exact_mod_cast l3.le
    have e2 : ⌊|sinSum q n| * (oneUnits : ℚ)⌋₊ < unitsOfBits (m + 1) := by
      rw [Nat.floor_lt (by positivity)]; exact_mod_cast l4
    obtain ⟨f1, f2⟩ := floorBits_spec ⌊|sinSum q n| * (oneUnits : ℚ)⌋₊
    have a := unitsOfBits_strictMono.lt_iff_lt.1 (f1.trans_lt e2)
    have b := unitsOfBits_strictMono.lt_iff_lt.1 (e1.trans_lt f2)
    rw [sinBits]; omega
  simp only [sinSeparated, hbits, Bool.and_eq_true, decide_eq_true_eq]
  exact ⟨⟨hn1, by exact_mod_cast l1⟩, by exact_mod_cast l2⟩

end Sys2Proof.Machine
end

