-- ==== Sys2Proof/Machine/Sine.lean ====
section
/-! DEFINITION. The sine of the oscillators (`00_scope.md` R27): a free function cut to the four properties the spec
requires, so that every sine the spec allows is possible and no other (`93_implementation_defined.md` U1; log entry 6). -/

namespace Sys2Proof.Machine

/-- The exact value of a finite `x`. -/
def valueQ (x : F) : ℚ := (signedUnits x : ℚ) / (oneUnits : ℚ)

/-- The number of terms with which the sine of a nonzero rational is separated from every value of `F`. -/
def sinDepth (q : ℚ) (h : q ≠ 0) : Nat := Nat.find (exists_sinSeparated q h)

/-- `v` is one of the two values of `F` that bracket the real sine of a finite `x`, or is that number when it is one (S4).
The sine of a nonzero `x` lies strictly between two neighbouring magnitudes; that of a zero is 0. -/
def sineAllowed (x v : F) : Bool :=
  if h : valueQ x = 0 then isZero v
  else
    let n := sinDepth (valueQ x) h
    let m := sinBits (valueQ x) n
    (magBits v == m || magBits v == m + 1) && (isZero v || signBit v == decide (sinSum (valueQ x) n < 0))

/-- The bracketing value of the smaller magnitude. -/
def sineTowardZero (x : F) : F :=
  if h : valueQ x = 0 then F_0
  else
    let n := sinDepth (valueQ x) h
    packF (decide (sinSum (valueQ x) n < 0)) (sinBits (valueQ x) n)

/-- `f` cut to S1 (`+0.0` gives `+0.0`), S2 and S4 (a finite operand gives a bracketing value, which lies in `[-1, 1]`) and
S3 (a NaN or an infinity gives a NaN); a function that has them is unchanged. -/
def cutSine (f : F → F) (x : F) : F :=
  if x = F_0 then F_0
  else if !isFinite x then (if isNaN (f x) then f x else nanResult .sine x x)
  else if sineAllowed x (f x) then f x
  else sineTowardZero x

/-- `SINE(x)` (R27): the free sine of the implementation, cut to what the spec requires of it (log entry 6). -/
def sine (x : F) : F := cutSine Config.sineRaw x

end Sys2Proof.Machine
end

