-- ==== Sys2Proof/Machine/RingMod.lean ====
section
/-! DEFINITION. The ring modulator and the command `RMOD` (`42_ring_modulator.md`). The oscillator's sine is an argument
of every function here, as `93_implementation_defined.md` U1 has it; `execRmod` supplies the implementation's. -/

namespace Sys2Proof.Machine

/-- The set-up of an `RMOD`, made once after its checks (R193). -/
structure RingSetup where
  /-- `sr = I2F(SAMPLE_RATE)`. -/
  sr : F
  /-- `MIXN`. -/
  mix : F
  /-- `AMTN`. -/
  amount : F
  /-- The carrier base frequency. -/
  freq : F
  /-- The LFO waveform. -/
  wave : Waveform
  /-- `LFO_INC`. -/
  lfoInc : F
  deriving DecidableEq, Repr

/-- The set-up read from the registers: `LFO_INC = (TWO_PI (*) rate) (/) sr` (R193). -/
def ringSetup (s : State) : RingSetup where
  sr := sampleRateF s
  mix := mixN s
  amount := amountN s
  freq := s.params.rmFrequency
  wave := waveformOf s.params.rmWaveform
  lfoInc := fDiv (fMul TWO_PI s.params.rmRate) (sampleRateF s)

/-- Step 1: the LFO phase advanced and wrapped (R195). -/
def nextLfo (u : RingSetup) (lfo : F) : F := fWrap (fAdd lfo u.lfoInc)

/-- Step 2: the LFO value, from the phase step 1 wrote (R196). -/
def lfoValue (sin : F → F) (wave : Waveform) (lfo : F) : F :=
  match wave with
  | .sinusoidal => sin lfo
  | .square => if fLe F_0 (sin lfo) then F_1 else F_0

/-- Step 3: the carrier increment (R197). -/
def carrierInc (u : RingSetup) (lv : F) : F :=
  fDiv (fMul TWO_PI (fAdd u.freq (fMul (fMul (fMul lv u.freq) F_3) u.amount))) u.sr

/-- Step 4: the carrier phase advanced and wrapped, `lfo` being the phase step 1 wrote (R198). -/
def nextCarrier (sin : F → F) (u : RingSetup) (lfo carrier : F) : F :=
  fWrap (fAdd carrier (carrierInc u (lfoValue sin u.wave lfo)))

/-- Step 6: the dry sample and the sample times the carrier `c`, blended (R200). -/
def blend (u : RingSetup) (x c : F) : F := fAdd (fMul x (fSub F_1 u.mix)) (fMul (fMul x c) u.mix)

/-- The two phase accumulators. -/
structure Phases where
  lfo : F
  carrier : F
  deriving DecidableEq, Repr

/-- Steps 1 to 4: both phases advanced, the LFO first (R194). -/
def nextPhases (sin : F → F) (u : RingSetup) (ph : Phases) : Phases where
  lfo := nextLfo u ph.lfo
  carrier := nextCarrier sin u (nextLfo u ph.lfo) ph.carrier

/-- Steps 5 to 7: the output sample, from the carrier phase step 4 wrote (R199 to R201). -/
def ringSample (sin : F → F) (u : RingSetup) (carrier : F) (x : Sample) : Sample :=
  f2i32 (blend u (sampleF x) (sin carrier))

/-- The sample steps over a list of input samples: the output samples and the last phases (R194). -/
def ringLoop (sin : F → F) (u : RingSetup) : Phases → List Sample → List Sample × Phases
  | ph, [] => ([], ph)
  | ph, x :: xs =>
    let ph1 := nextPhases sin u ph
    let rest := ringLoop sin u ph1 xs
    (ringSample sin u ph1.carrier x :: rest.1, rest.2)

/-- The checks of `RMOD`, in order (R192). -/
def rmodChecks (s : State) : List (Bool × Rejection) :=
  [(inLenTooLong s, capacityExceeded 0x03),
   (decide (s.params.sampleRate = 0), invalidParameter 0x02),
   (outOfRange F_0 F_100 s.params.rmMix, invalidParameter 0x08),
   (outOfRange F_0 F_10 s.params.rmAmount, invalidParameter 0x09),
   (!isFinite s.params.rmRate, invalidParameter 0x0B),
   (!isFinite s.params.rmFrequency, invalidParameter 0x0C)]

/-- `n = min(SAMPLE_LENGTH, IN_LEN)` (R202). -/
def ringLength (s : State) : Nat := min s.params.sampleLength.toNat s.params.inLen.toNat

/-- The SignalExhausted notice: `SAMPLE_LENGTH > IN_LEN` (R48, R202). -/
def signalExhausted (s : State) : Bool := decide (s.params.inLen.toNat < s.params.sampleLength.toNat)

/-- `RMOD` with a given sine: both phases from `+0.0`, then one sample step per output sample (R191). -/
def ringModulate (sin : F → F) (s : State) : Host.Outcome State Fault Refusal :=
  match firstFailure (rmodChecks s) with
  | some r => .next (reject r s)
  | none =>
    match readSignal s (ringLength s) with
    | .error i => .fault (.unwrittenSample i)
    | .ok x =>
      let run := ringLoop sin (ringSetup s) ⟨F_0, F_0⟩ x
      .next (complete run.1 (signalExhausted s) (setPhases run.2.lfo run.2.carrier s))

/-- `RMOD`, the ring modulator (R191), with the implementation's sine. -/
def execRmod (s : State) : Host.Outcome State Fault Refusal := ringModulate sine s

end Sys2Proof.Machine
end

