-- ==== Sys2Proof/Machine/Dispatch.lean ====
section
/-! DEFINITION. One arm per command (`30_encoding.md` R112). -/

namespace Sys2Proof.Machine

def exec (i : Instr) (s : State) : Host.Outcome State Fault Refusal :=
  match i with
  | .apf => Sys2Proof.Machine.execApf s
  | .difd => Sys2Proof.Machine.execDifd s
  | .schr => Sys2Proof.Machine.execSchr s
  | .rmod => Sys2Proof.Machine.execRmod s
  | .dsmp => Sys2Proof.Machine.execDsmp s

end Sys2Proof.Machine
end

