-- ==== Sys2Proof/Machine/Registers.lean ====
section
/-! DEFINITION. The register map and the reading and writing of registers by the host (`10_state.md` R43, R44). -/

namespace Sys2Proof.Machine

/-- The container types (R43); `fields` is the type of `RESULT` (R46). -/
inductive RegType where
  | u32 | f | bit | raw64 | fields
  deriving DecidableEq, Repr

/-- The access rights (R43). -/
inductive RegAccess where
  | rw | ro | wt
  deriving DecidableEq, Repr

/-- Every register of the map, in its order (R44). -/
def allRegs : List RegName :=
  [.cmd, .result, .sampleRate, .inLen, .outLen, .sampleLength, .newSampleRate,
   .rmMix, .rmAmount, .rmWaveform, .rmRate, .rmFrequency] ++
  [.dlMix, .dlDelay, .dlFeedback, .dlStages, .dlWidth, .dlHighPass, .dlLowPass,
   .divOffset, .apM, .mtabLen, .lfoPhase, .carrierPhase]

/-- The register number (R44, column "number"). -/
def regNumber : RegName → Nat
  | .cmd => 0x00
  | .result => 0x01
  | .sampleRate => 0x02
  | .inLen => 0x03
  | .outLen => 0x04
  | .sampleLength => 0x05
  | .newSampleRate => 0x06
  | .rmMix => 0x08
  | .rmAmount => 0x09
  | .rmWaveform => 0x0A
  | .rmRate => 0x0B
  | .rmFrequency => 0x0C
  | .dlMix => 0x10
  | .dlDelay => 0x11
  | .dlFeedback => 0x12
  | .dlStages => 0x13
  | .dlWidth => 0x14
  | .dlHighPass => 0x15
  | .dlLowPass => 0x16
  | .divOffset => 0x17
  | .apM => 0x18
  | .mtabLen => 0x19
  | .lfoPhase => 0x20
  | .carrierPhase => 0x21

/-- The container type (R44, column "type"). -/
def regType : RegName → RegType
  | .cmd | .sampleRate | .inLen | .outLen | .sampleLength | .newSampleRate => .u32
  | .dlStages | .divOffset | .apM | .mtabLen => .u32
  | .rmMix | .rmAmount | .rmRate | .rmFrequency | .dlDelay | .dlFeedback => .f
  | .lfoPhase | .carrierPhase => .f
  | .rmWaveform => .bit
  | .dlMix | .dlWidth | .dlHighPass | .dlLowPass => .raw64
  | .result => .fields

/-- The access right (R44, column "access"). -/
def regAccess : RegName → RegAccess
  | .cmd => .wt
  | .result | .outLen | .mtabLen | .lfoPhase | .carrierPhase => .ro
  | _ => .rw

/-- The register with a number; none where the number is reserved (R43, R86) or above `0xFF` (R84). -/
def regOfNumber (n : Nat) : Option RegName := allRegs.find? (fun r => regNumber r == n)

/-- What the container of a type keeps of a 64-bit value written to it (R43). -/
def containerValue (ty : RegType) (v : BitVec 64) : BitVec 64 :=
  match ty with
  | .u32 => (v.setWidth 32).setWidth 64
  | .bit => (v.setWidth 1).setWidth 64
  | .f | .raw64 | .fields => v

/-- The 64-bit container of a register as the host reads it: a `U32` or `BIT` value zero-extended (R43). -/
def regRead (r : RegName) (s : State) : BitVec 64 :=
  match r with
  | .cmd => s.cmd.setWidth 64
  | .result => s.result
  | .sampleRate => s.params.sampleRate.setWidth 64
  | .inLen => s.params.inLen.setWidth 64
  | .outLen => s.outLen.setWidth 64
  | .sampleLength => s.params.sampleLength.setWidth 64
  | .newSampleRate => s.params.newSampleRate.setWidth 64
  | .rmMix => s.params.rmMix
  | .rmAmount => s.params.rmAmount
  | .rmWaveform => s.params.rmWaveform.setWidth 64
  | .rmRate => s.params.rmRate
  | .rmFrequency => s.params.rmFrequency
  | .dlMix => s.params.dlMix
  | .dlDelay => s.params.dlDelay
  | .dlFeedback => s.params.dlFeedback
  | .dlStages => s.params.dlStages.setWidth 64
  | .dlWidth => s.params.dlWidth
  | .dlHighPass => s.params.dlHighPass
  | .dlLowPass => s.params.dlLowPass
  | .divOffset => s.params.divOffset.setWidth 64
  | .apM => s.params.apM.setWidth 64
  | .mtabLen => s.mtabLen.setWidth 64
  | .lfoPhase => s.lfoPhase
  | .carrierPhase => s.carrierPhase

/-- A host write to a parameter register; a write to a register that is not `RW` changes no parameter (R43). The write
of `CMD` is `runCommandWord` of HostPort.lean. -/
def paramWrite (r : RegName) (v : BitVec 64) (p : ParamRegs) : ParamRegs :=
  match r with
  | .sampleRate => { p with sampleRate := v.setWidth 32 }
  | .inLen => { p with inLen := v.setWidth 32 }
  | .sampleLength => { p with sampleLength := v.setWidth 32 }
  | .newSampleRate => { p with newSampleRate := v.setWidth 32 }
  | .rmMix => { p with rmMix := v }
  | .rmAmount => { p with rmAmount := v }
  | .rmWaveform => { p with rmWaveform := v.setWidth 1 }
  | .rmRate => { p with rmRate := v }
  | .rmFrequency => { p with rmFrequency := v }
  | .dlMix => { p with dlMix := v }
  | .dlDelay => { p with dlDelay := v }
  | .dlFeedback => { p with dlFeedback := v }
  | .dlStages => { p with dlStages := v.setWidth 32 }
  | .dlWidth => { p with dlWidth := v }
  | .dlHighPass => { p with dlHighPass := v }
  | .dlLowPass => { p with dlLowPass := v }
  | .divOffset => { p with divOffset := v.setWidth 32 }
  | .apM => { p with apM := v.setWidth 32 }
  | .cmd | .result | .outLen | .mtabLen | .lfoPhase | .carrierPhase => p

/-- A host write to a register other than `CMD`. -/
def regWrite (r : RegName) (v : BitVec 64) (s : State) : State := { s with params := paramWrite r v s.params }

end Sys2Proof.Machine
end

