-- ==== Sys2Proof/Machine/HostPort.lean ====
section
/-! DEFINITION. The host's accesses (`20_memory.md` R81, R84; `10_state.md` R43, R45). -/

namespace Sys2Proof.Machine

/-- What `HostRead(space, index)` answers: a register's container, 0 at a reserved number, the element of a memory in
bits 31:0, and a free value where nothing is specified (R43, R61, R63, R64, R84). -/
def hostReadValue (sp : HostSpace) (i : Nat) (s : State) : BitVec 64 :=
  match sp with
  | .reg =>
    if 0xFF < i then unspecifiedElement 64 .reg s i
    else
      match regOfNumber i with
      | some r => regRead r s
      | none => 0
  | .sigi => ((memRead s.sigi i).getD (unspecifiedElement 32 .sigi s i)).setWidth 64
  | .sigo => ((memRead s.sigo i).getD (unspecifiedElement 32 .sigo s i)).setWidth 64
  | .mtab => ((memRead s.mtab i).getD (unspecifiedElement 32 .mtab s i)).setWidth 64

/-- A host read: the answer is given, nothing else changes (R81). -/
def hostRead (sp : HostSpace) (i : Nat) (s : State) : State :=
  { s with hostAnswers := hostReadValue sp i s :: s.hostAnswers }

/-- A host write of an element of `SIGI`; ignored at or above `SIG_CAP` (R60, R84). -/
def writeInput (i : Nat) (v : Sample) (s : State) : State :=
  if i < s.caps.sigCap then { s with sigi := memWrite s.sigi i v } else s

/-- The `CMD` register takes the word written, the low 32 bits of the container (R43, R45). -/
def latchCommand (v : BitVec 64) (s : State) : State := { s with cmd := v.setWidth 32 }

/-- A host write of `CMD`: the word is latched, decoded and run to its end (R45, R93); an illegal word is rejected
before any operand is read (R113). -/
def runCommandWord (v : BitVec 64) (s : State) : Host.Outcome State Fault Refusal :=
  match decode (v.setWidth 32) with
  | .ok i => exec i (latchCommand v s)
  | .error _ => .next (illegalCommand (latchCommand v s))

/-- A host write of a register: `CMD` runs a command, `RW` registers are stored, the others and the reserved numbers
ignore the write (R43, R44). -/
def hostWriteReg (n : Nat) (v : BitVec 64) (s : State) : Host.Outcome State Fault Refusal :=
  match regOfNumber n with
  | none => .next s
  | some .cmd => runCommandWord v s
  | some r => .next (regWrite r v s)

/-- One host access (R81). Writes to `SIGO` and `MTAB` are ignored (R61, R63). -/
def hostAccess (a : HostAccess) (s : State) : Host.Outcome State Fault Refusal :=
  match a with
  | .read sp i => .next (hostRead sp i s)
  | .write .reg n v => hostWriteReg n v s
  | .write .sigi i v => .next (writeInput i (v.setWidth 32) s)
  | .write .sigo _ _ => .next s
  | .write .mtab _ _ => .next s

/-- The oldest pending host access taken off the queue (R90). -/
def takeAccess (rest : List HostAccess) (s : State) : State := { s with hostQueue := rest }

/-- One step: the oldest pending host access is performed to its end; with none pending the block is idle (R90,
R290). -/
def stepOnce (s : State) : Host.Outcome State Fault Refusal :=
  match s.hostQueue with
  | [] => .next s
  | a :: rest => hostAccess a (takeAccess rest s)

/-- `s` with a write of a command word of `nbits` bits (bits above zero) as the next host access. -/
def placeCommand (s : State) (nbits w : Nat) : State :=
  { s with hostQueue := .write .reg 0x00 (BitVec.ofNat 64 (w % 2 ^ nbits)) :: s.hostQueue }

end Sys2Proof.Machine
end

