-- ==== Sys2Proof/Machine/Step.lean ====
section
/-! DEFINITION. The step. The block has no program counter and stores no program (`10_state.md` R41): what it runs next
is the next access the host issues (`20_memory.md` R90, R93; log entry 8). -/

namespace Sys2Proof.Machine

/-- One step of the machine. -/
def step (s : State) : Host.Outcome State Fault Refusal := stepOnce s

/-- The state whose next step writes the given command word to `CMD`. -/
def State.withFetchWord (s : State) (nbits w : Nat) : State := placeCommand s nbits w

end Sys2Proof.Machine
end

