-- ==== Sys2Proof/Machine/HostScript.lean ====
section
/-! DEFINITION. The host script: its lines and pseudo-instructions as host accesses (`30_encoding.md` R120, R121). A
value is given as the number or bit pattern it means; `nearestF` reads a decimal. -/

namespace Sys2Proof.Machine

/-- One line of a host script (R120). -/
inductive ScriptLine where
  /-- `wr NAME, value`. -/
  | wr (name : RegName) (value : BitVec 64)
  /-- `rd NAME`. -/
  | rd (name : RegName)
  /-- `wrs j, value`. -/
  | wrs (j : Nat) (value : Int)
  /-- `rds j`. -/
  | rds (j : Nat)
  /-- `rdm k`. -/
  | rdm (k : Nat)
  /-- `cmd MNEMONIC`. -/
  | cmd (i : Instr)
  /-- `cmd 0xNNNNNNNN`. -/
  | cmdWord (w : BitVec 32)
  deriving DecidableEq, Repr

/-- The encoding of a line: the triple (space, index, value word) (R120). -/
def lineAccess : ScriptLine → HostAccess
  | .wr name value => .write .reg (regNumber name) value
  | .rd name => .read .reg (regNumber name)
  | .wrs j value => .write .sigi j ((BitVec.ofInt 32 value).setWidth 64)
  | .rds j => .read .sigo j
  | .rdm k => .read .mtab k
  | .cmd i => .write .reg 0x00 ((encode i).setWidth 64)
  | .cmdWord w => .write .reg 0x00 (w.setWidth 64)

/-- The accesses of a script. -/
def scriptAccesses (ls : List ScriptLine) : List HostAccess := ls.map lineAccess

/-- `wrs start, v0` and so on, upward from index `start`. -/
def wrsFrom : Nat → List Int → List ScriptLine
  | _, [] => []
  | start, v :: vs => .wrs start v :: wrsFrom (start + 1) vs

/-- `ldsig [v0, ..., v(n-1)]` (R121). -/
def ldsig (vs : List Int) : List ScriptLine := wrsFrom 0 vs ++ [.wr .inLen (BitVec.ofNat 64 vs.length)]

/-- `rds start`, then `wrs start, v` with the value read, and so on upward. -/
def copyFrom : Nat → List Int → List ScriptLine
  | _, [] => []
  | start, v :: vs => .rds start :: .wrs start v :: copyFrom (start + 1) vs

/-- `mvsig` in a state `s` (R121): `rd OUT_LEN` gives `n`, each `rds j` gives the sample written back by `wrs j`, then
`wr IN_LEN, n`. The values are those the reads answer in `s`, which no line before the last write changes. -/
def mvsig (s : State) : List ScriptLine :=
  .rd .outLen ::
    (copyFrom 0 ((List.range s.outLen.toNat).map
        (fun j => ((memRead s.sigo j).getD (unspecifiedElement 32 .sigo s j)).toInt)) ++
      [.wr .inLen (s.outLen.setWidth 64)])

/-- `wave sin` and `wave square` (R121). -/
def wave (w : Waveform) : ScriptLine :=
  match w with
  | .sinusoidal => .wr .rmWaveform 0
  | .square => .wr .rmWaveform 1

end Sys2Proof.Machine
end

