-- ==== Sys2Proof/Safety.lean ====
section
/-! DEFINITION. The terms in which claims are made: what the host must have set up for a command to run (`10_state.md`
R64, `70_reset_and_hazards.md` R292), what a run leaves unchanged, the invariant of the state, and the requirements on
the sine (`00_scope.md` R27). -/

namespace Sys2Proof.Machine

/-! ## Signals in memory -/

/-- The samples of `SIGI` from 0 upward that a command reads are `x` (R60, R64). -/
def InputIs (s : State) (x : List Sample) : Prop :=
  ∀ j, j < x.length → memRead s.sigi j = some (x.getD j 0)

/-- The output Signal in `SIGO` and `OUT_LEN` is `y`, and no other element of `SIGO` is specified (R50, R61). -/
def OutputIs (t : State) (y : List Sample) : Prop :=
  t.outLen.toNat = y.length ∧ (∀ j, j < y.length → memRead t.sigo j = some (y.getD j 0)) ∧
    ∀ j, y.length ≤ j → memRead t.sigo j = none

/-- The stage-length table in `MTAB` and `MTAB_LEN` is `ms`, and no other element of `MTAB` is specified (R58, R63). -/
def StageTableIs (t : State) (ms : List Nat) : Prop :=
  t.mtabLen.toNat = ms.length ∧
    (∀ k, k < ms.length → (memRead t.mtab k).map BitVec.toNat = some (ms.getD k 0)) ∧
    ∀ k, ms.length ≤ k → memRead t.mtab k = none

/-! ## When a command's checks pass -/

/-- The input fits `SIG_CAP` (R256). -/
def InputFits (s : State) : Prop := s.params.inLen.toNat ≤ s.caps.sigCap

/-- `DL_FEEDBACK` is finite and its absolute value is at most 100 (R55). -/
def FeedbackOk (s : State) : Prop :=
  isFinite s.params.dlFeedback = true ∧ fLe (fNeg F_100) s.params.dlFeedback = true ∧
    fLe s.params.dlFeedback F_100 = true

/-- Every check of `APF` passes (R144). -/
def ApfReady (s : State) : Prop :=
  InputFits s ∧ 0 < s.params.apM.toNat ∧ s.params.apM.toNat ≤ s.caps.dlyCap ∧ FeedbackOk s

/-- Every check `DIFD` and `SCHR` share passes (R169). -/
def CascadeReady (s : State) : Prop :=
  InputFits s ∧ 0 < s.params.sampleRate.toNat ∧
    s.params.inLen.toNat + 5 * s.params.sampleRate.toNat ≤ s.caps.sigCap ∧
    (isFinite s.params.dlDelay = true ∧ fLt F_0 s.params.dlDelay = true) ∧ FeedbackOk s ∧
    s.params.dlStages.toNat ≤ s.caps.stageCap

/-- Every check of `DIFD` before its table passes (R161). -/
def DifdReady (s : State) : Prop := CascadeReady s ∧ 0 < s.params.divOffset.toNat

/-- Every check of `SCHR` before its draws passes (R171, R172). -/
def SchrReady (s : State) : Prop :=
  CascadeReady s ∧ isFinite (fMul F_1p5 s.params.dlDelay) = true ∧
    fLt (fMul F_0p9 s.params.dlDelay) (fMul F_1p5 s.params.dlDelay) = true

/-- `x` is finite and in the closed interval. -/
def InRange (lo hi x : F) : Prop := isFinite x = true ∧ fLe lo x = true ∧ fLe x hi = true

/-- Every check of `RMOD` passes (R192). -/
def RmodReady (s : State) : Prop :=
  InputFits s ∧ 0 < s.params.sampleRate.toNat ∧ InRange F_0 F_100 s.params.rmMix ∧
    InRange F_0 F_10 s.params.rmAmount ∧ isFinite s.params.rmRate = true ∧ isFinite s.params.rmFrequency = true

/-- Every check of `DSMP` passes (R231). -/
def DsmpReady (s : State) : Prop :=
  InputFits s ∧ 0 < s.params.newSampleRate.toNat ∧ s.params.newSampleRate.toNat ≤ s.params.sampleRate.toNat

/-! ## Frames and rejections -/

/-- What no command changes: the parameter registers, `SIGI`, `CMD` (latched by the write before the command runs), the
capacities and the host port (R60, R115, R252). -/
structure Kept (s t : State) : Prop where
  params : t.params = s.params
  sigi : t.sigi = s.sigi
  cmd : t.cmd = s.cmd
  caps : t.caps = s.caps
  hostQueue : t.hostQueue = s.hostQueue
  hostAnswers : t.hostAnswers = s.hostAnswers

/-- The phase registers are unchanged (R59). -/
def PhasesKept (s t : State) : Prop := t.lfoPhase = s.lfoPhase ∧ t.carrierPhase = s.carrierPhase

/-- `MTAB` and `MTAB_LEN` are unchanged: every element reads as before, an unspecified one included. -/
def StageTableKept (s t : State) : Prop :=
  t.mtab = s.mtab ∧ t.mtabLen = s.mtabLen ∧ t.mtabEpoch = s.mtabEpoch

/-- The random port is unchanged: no draw was made. -/
def DrawsKept (s t : State) : Prop := t.drawScript = s.drawScript ∧ t.drawCount = s.drawCount

/-- `t` is the state after `raise <code>(param, stage)` in a command that started in `s`, as far as every command's
rejection goes (R252): `RESULT` field by field, `OUT_LEN`, no specified element of `SIGO`, and what is unchanged. -/
structure RejectedAs (code : ResultCode) (param : BitVec 8) (stage : Nat) (s t : State) : Prop where
  code : codeOf t.result = code.bits
  sigx : sigxOf t.result = 0
  param : paramOf t.result = param
  stage : stageOf t.result = BitVec.ofNat 32 stage
  reserved : reservedLowOf t.result = 0 ∧ reservedHighOf t.result = 0
  output : OutputIs t []
  kept : Kept s t
  phases : PhasesKept s t
  delays : t.dly = s.dly

/-- Command `i` in state `s`, which is no cascade, is rejected so; `MTAB` and the random port are unchanged too. -/
def Rejects (i : Instr) (s : State) (code : ResultCode) (param : BitVec 8) (stage : Nat) : Prop :=
  ∃ t, exec i s = .next t ∧ RejectedAs code param stage s t ∧ StageTableKept s t ∧ DrawsKept s t

/-- Cascade command `i` in state `s` is rejected so before any draw: `MTAB_LEN` is 0 and no element of `MTAB` is
specified (R252). -/
def RejectsCascade (i : Instr) (s : State) (code : ResultCode) (param : BitVec 8) (stage : Nat) : Prop :=
  ∃ t, exec i s = .next t ∧ RejectedAs code param stage s t ∧ StageTableIs t [] ∧ DrawsKept s t

/-! ## Operands -/

/-- `SIGI` agrees on the elements below `n`. -/
def SameInput (n : Nat) (s s' : State) : Prop := ∀ j, j < n → memRead s'.sigi j = memRead s.sigi j

/-- The two states agree on the operands of command `i`, which are those of the table of R115, on the capacities and,
for `SCHR`, on the random port. -/
def SameOperands (i : Instr) (s s' : State) : Prop :=
  s'.caps = s.caps ∧ s'.params.inLen = s.params.inLen ∧ SameInput s.params.inLen.toNat s s' ∧
    match i with
    | .apf => s'.params.apM = s.params.apM ∧ s'.params.dlFeedback = s.params.dlFeedback
    | .difd =>
      s'.params.sampleRate = s.params.sampleRate ∧ s'.params.dlDelay = s.params.dlDelay ∧
        s'.params.dlFeedback = s.params.dlFeedback ∧ s'.params.dlStages = s.params.dlStages ∧
        s'.params.divOffset = s.params.divOffset
    | .schr =>
      s'.params.sampleRate = s.params.sampleRate ∧ s'.params.dlDelay = s.params.dlDelay ∧
        s'.params.dlFeedback = s.params.dlFeedback ∧ s'.params.dlStages = s.params.dlStages ∧
        s'.drawScript = s.drawScript ∧ s'.drawCount = s.drawCount
    | .rmod =>
      s'.params.sampleRate = s.params.sampleRate ∧ s'.params.sampleLength = s.params.sampleLength ∧
        s'.params.rmMix = s.params.rmMix ∧ s'.params.rmAmount = s.params.rmAmount ∧
        s'.params.rmWaveform = s.params.rmWaveform ∧ s'.params.rmRate = s.params.rmRate ∧
        s'.params.rmFrequency = s.params.rmFrequency
    | .dsmp =>
      s'.params.sampleRate = s.params.sampleRate ∧ s'.params.newSampleRate = s.params.newSampleRate

/-- The two phases are the same, a NaN being the same as any NaN: which NaN a phase holds is not specified (R21). -/
def SamePhase (x y : F) : Prop := x = y ∨ (isNaN x = true ∧ isNaN y = true)

/-- The two states agree on what a command reports: `RESULT`, `OUT_LEN` and `SIGO`; after a cascade command also
`MTAB`, `MTAB_LEN` and the random port; after a completed `RMOD` also the phases. -/
def SameReport (i : Instr) (t t' : State) : Prop :=
  t'.result = t.result ∧ t'.outLen = t.outLen ∧ t'.sigo = t.sigo ∧
    (i = .difd ∨ i = .schr → t'.mtab = t.mtab ∧ t'.mtabLen = t.mtabLen) ∧
    (i = .schr → t'.drawScript = t.drawScript ∧ t'.drawCount = t.drawCount) ∧
    (i = .rmod → codeOf t.result = 0 →
      SamePhase t'.lfoPhase t.lfoPhase ∧ SamePhase t'.carrierPhase t.carrierPhase)

/-! ## The invariant -/

/-- The bounds on the capacities (R9). -/
def Capacities.Ok (c : Capacities) : Prop :=
  (1 ≤ c.sigCap ∧ c.sigCap < 2 ^ 32) ∧ (1 ≤ c.dlyCap ∧ c.dlyCap < 2 ^ 32) ∧ c.stageCap < 2 ^ 32

/-- A phase register holds a NaN, or a value with sign bit 0 below `TWO_PI` (R29, R203). -/
def PhaseOk (x : F) : Prop := isNaN x = true ∨ (signBit x = false ∧ fLt x TWO_PI = true)

/-- What every step keeps: the capacities in their bounds, every memory in canonical form and within its range, `SIGO`
specified exactly below `OUT_LEN` and `MTAB` exactly below `MTAB_LEN`, `RESULT` a word the block can produce, no output
after a rejection, and both phases in `[0, TWO_PI)` or a NaN. -/
structure State.Inv (s : State) : Prop where
  caps : s.caps.Ok
  sigi : s.sigi.wf ∧ ∀ p ∈ s.sigi, p.1 < s.caps.sigCap
  sigo : s.sigo.map Prod.fst = List.range s.outLen.toNat
  outLen : s.outLen.toNat ≤ s.caps.sigCap
  mtab : s.mtab.map Prod.fst = List.range s.mtabLen.toNat
  mtabLen : s.mtabLen.toNat ≤ s.caps.stageCap
  mtabEntries : ∀ p ∈ s.mtab, 1 ≤ p.2.toNat ∧ p.2.toNat ≤ s.caps.dlyCap
  dly : s.dly.wf ∧ ∀ p ∈ s.dly, p.1 < s.caps.dlyCap
  result : ∃ code sigx param stage, s.result = resultWord code sigx param stage ∧
    (sigx = true → code = .ok) ∧ (code = .ok → param = 0 ∧ stage = 0) ∧ (code ≠ .ok → s.outLen = 0)
  lfoPhase : PhaseOk s.lfoPhase
  carrierPhase : PhaseOk s.carrierPhase

/-! ## The requirements on the sine (R27) -/

/-- S1: `SINE(+0.0) = +0.0`. -/
def SineZero (f : F → F) : Prop := f F_0 = F_0

/-- S2: finite and in `[-1, 1]` on every finite operand. -/
def SineBounded (f : F → F) : Prop := ∀ x, isFinite x = true → InRange (fNeg F_1) F_1 (f x)

/-- S3: a NaN on a NaN or an infinity. -/
def SineNaN (f : F → F) : Prop := ∀ x, isFinite x = false → isNaN (f x) = true

/-- `v` is the greatest `F` at or below the real number `target`, or the least at or above it, which is the number itself
when it is an `F`. Values are counted in units of `2^-1074`. -/
def Bracketing (target : ℝ) (v : F) : Prop :=
  isFinite v = true ∧
    (((signedUnits v : ℝ) ≤ target ∧
        ∀ z, isFinite z = true → (signedUnits z : ℝ) ≤ target → signedUnits z ≤ signedUnits v) ∨
      (target ≤ (signedUnits v : ℝ) ∧
        ∀ z, isFinite z = true → target ≤ (signedUnits z : ℝ) → signedUnits v ≤ signedUnits z))

/-- S4: a bracketing value of the real sine on every finite operand. -/
def SineBrackets (f : F → F) : Prop :=
  ∀ x, isFinite x = true → Bracketing (Real.sin ((signedUnits x : ℝ) / 2 ^ 1074) * 2 ^ 1074) (f x)

/-- S1 to S4 together: what the spec requires of `SINE`. -/
def SineSpec (f : F → F) : Prop := SineZero f ∧ SineBounded f ∧ SineNaN f ∧ SineBrackets f

/-! ## Rounding (R21) -/

/-- `r` is the exact value `p / q` (in units of `2^-1074`) rounded to nearest, ties to even, overflow to an infinity:
an infinity of the sign of `p` exactly from `2^1024 - 2^970` on, otherwise a finite value no other finite value is
nearer than, its last fraction bit even when another is as near. -/
def RoundsTo (p : Int) (q : Nat) (r : F) : Prop :=
  isNaN r = false ∧
    (isInf r = true ↔ (2 ^ 2098 - 2 ^ 2044) * (q : Int) ≤ |p|) ∧
    (isInf r = true → (signBit r = true ↔ p < 0)) ∧
    (isFinite r = true → ∀ z, isFinite z = true →
      |p - q * signedUnits r| ≤ |p - q * signedUnits z| ∧
        (|p - q * signedUnits r| = |p - q * signedUnits z| → signedUnits z ≠ signedUnits r → r.toNat % 2 = 0))

end Sys2Proof.Machine
end

