-- ==== Sys2Proof/Certificates/Slice0/Obligations.lean ====
section
/-! DEFINITION. The statements for the provers. -/

open Sys2Proof Sys2Proof.Machine

/-! ## Decoding (`30_encoding.md` section 2) -/

/-- R112, R114: the decoder is total, a word with a nonzero `RSV` is illegal whatever its `OP`, and otherwise `OP`
selects the command, values outside 1 to 5 being illegal. -/
def Obligations.DecodingFollowsTheOpcodeMap : Prop :=
  ∀ w : BitVec 32,
    (w.extractLsb' 8 24 ≠ 0 → decode w = .error .reservedBits) ∧
    (w.extractLsb' 8 24 = 0 →
      (w.extractLsb' 0 8 = 0x01 → decode w = .ok .apf) ∧ (w.extractLsb' 0 8 = 0x02 → decode w = .ok .difd) ∧
      (w.extractLsb' 0 8 = 0x03 → decode w = .ok .schr) ∧ (w.extractLsb' 0 8 = 0x04 → decode w = .ok .rmod) ∧
      (w.extractLsb' 0 8 = 0x05 → decode w = .ok .dsmp) ∧
      (w.extractLsb' 0 8 = 0 ∨ 5 < (w.extractLsb' 0 8).toNat → decode w = .error .unassignedOpcode))

/-- Every command is encoded by exactly one word, and decoding that word, and no other, gives the command. -/
def Obligations.DecodeAndEncodeAgree : Prop :=
  ∀ (w : BitVec 32) (i : Instr), decode w = .ok i ↔ w = encode i

/-- The five words of the opcode map, written out. -/
def Obligations.WordsOfTheOpcodeTableDecode : Prop :=
  decode 0x00000001 = .ok .apf ∧ decode 0x00000002 = .ok .difd ∧ decode 0x00000003 = .ok .schr ∧
    decode 0x00000004 = .ok .rmod ∧ decode 0x00000005 = .ok .dsmp

/-! ## The step and the host port (`10_state.md` R45, `20_memory.md` R81, R84, R90) -/

/-- R45 and R93: when the next host access writes a word to `CMD`, the step latches the word and is the execution of the
command it decodes to, in the state with that access taken off the queue. -/
def Obligations.StepRunsTheDecodedCommand : Prop :=
  ∀ (s : State) (v : BitVec 64) (rest : List HostAccess) (i : Instr),
    s.hostQueue = .write .reg 0x00 v :: rest → decode (v.setWidth 32) = .ok i →
      step s = exec i { s with hostQueue := rest, cmd := v.setWidth 32 }

/-- With no host access pending the block is idle: the step changes nothing (the model's choice, log entry 8). -/
def Obligations.IdleStepChangesNothing : Prop := ∀ s : State, s.hostQueue = [] → step s = .next s

/-- R257: an illegal word is rejected with code 4, `PARAM` and `STAGE` 0, and makes no other check: everything but
`RESULT`, `OUT_LEN`, `SIGO` and `CMD`, which holds the word, is as it was. -/
def Obligations.IllegalWordIsRejected : Prop :=
  ∀ (s : State) (v : BitVec 64) (rest : List HostAccess) (e : DecodeError),
    s.hostQueue = .write .reg 0x00 v :: rest → decode (v.setWidth 32) = .error e →
      ∃ t, step s = .next t ∧
        RejectedAs .illegalCommand 0x00 0 { s with hostQueue := rest, cmd := v.setWidth 32 } t ∧
        StageTableKept s t ∧ DrawsKept s t

/-- A host read gives one answer and changes nothing else: a listed register gives its container, a reserved number 0,
a specified memory element its 32-bit word. -/
def Obligations.HostReadsAnswerAndChangeNothing : Prop :=
  ∀ (s : State) (sp : HostSpace) (n : Nat) (rest : List HostAccess),
    s.hostQueue = .read sp n :: rest →
      ∃ a, step s = .next { s with hostQueue := rest, hostAnswers := a :: s.hostAnswers } ∧
        (∀ r, sp = .reg → n = regNumber r → a = regRead r s) ∧
        (sp = .reg → n ≤ 0xFF → (∀ r, n ≠ regNumber r) → a = 0) ∧
        (∀ v, sp = .sigi → memRead s.sigi n = some v → a = v.setWidth 64) ∧
        (∀ v, sp = .sigo → memRead s.sigo n = some v → a = v.setWidth 64) ∧
        (∀ v, sp = .mtab → memRead s.mtab n = some v → a = v.setWidth 64)

/-- A host write to a register other than `CMD`: an `RW` register takes the value, cut to its type, and every other
register reads as before; a read-only register, a reserved number and a number above `0xFF` ignore the write. -/
def Obligations.HostRegisterWritesFollowTheMap : Prop :=
  ∀ (s : State) (n : Nat) (v : BitVec 64) (rest : List HostAccess),
    s.hostQueue = .write .reg n v :: rest → n ≠ regNumber .cmd →
      ∃ t, step s = .next t ∧ t = { s with hostQueue := rest, params := t.params } ∧
        (∀ r, regNumber r = n → regAccess r = .rw → regRead r t = containerValue (regType r) v) ∧
        (∀ r, regNumber r ≠ n → regRead r t = regRead r s) ∧
        (∀ r, regNumber r = n → regAccess r = .ro → t.params = s.params) ∧
        ((∀ r, regNumber r ≠ n) → t.params = s.params)

/-- A host write to `SIGI` stores the low 32 bits at its index and leaves every other element alone; at or above
`SIG_CAP` it is ignored. For a value wider than an element that is the model's choice, log entry 13. -/
def Obligations.HostWritesOneInputSample : Prop :=
  ∀ (s : State) (j : Nat) (v : BitVec 64) (rest : List HostAccess),
    s.hostQueue = .write .sigi j v :: rest →
      ∃ t, step s = .next t ∧ t = { s with hostQueue := rest, sigi := t.sigi } ∧
        (j < s.caps.sigCap → memRead t.sigi j = some (v.setWidth 32)) ∧
        (∀ i, i ≠ j → memRead t.sigi i = memRead s.sigi i) ∧
        (s.caps.sigCap ≤ j → t.sigi = s.sigi)

/-- Host writes to `SIGO` and `MTAB` are ignored. -/
def Obligations.HostWritesToOutputMemoriesAreIgnored : Prop :=
  ∀ (s : State) (j : Nat) (v : BitVec 64) (rest : List HostAccess),
    (s.hostQueue = .write .sigo j v :: rest ∨ s.hostQueue = .write .mtab j v :: rest) →
      step s = .next { s with hostQueue := rest }

/-- The pseudo-instruction `ldsig`: after its accesses `SIGI` holds the samples, `IN_LEN` their number, and nothing else
of the block has changed. -/
def Obligations.LdsigLoadsTheInputSignal : Prop :=
  ∀ (s : State) (vs : List Int) (rest : List HostAccess), s.caps.Ok →
    vs.length ≤ s.caps.sigCap → s.hostQueue = scriptAccesses (ldsig vs) ++ rest →
      ∃ t, Host.Core.run Sys2Proof.core (vs.length + 1) s = .next t ∧
        t = { s with hostQueue := rest, sigi := t.sigi, params := { s.params with inLen := t.params.inLen } } ∧
        t.params.inLen.toNat = vs.length ∧
        (∀ j, j < vs.length → memRead t.sigi j = some (BitVec.ofInt 32 (vs.getD j 0))) ∧
        ∀ j, vs.length ≤ j → memRead t.sigi j = memRead s.sigi j

/-- The pseudo-instruction `mvsig`: after its accesses `SIGI[0 ..< OUT_LEN]` and `IN_LEN` are the output Signal, and
`SIGO`, `OUT_LEN` and every other register are as they were. The values copied are those of log entry 16. -/
def Obligations.MvsigCopiesOutputToInput : Prop :=
  ∀ (s : State) (y : List Sample) (rest : List HostAccess), OutputIs s y →
    y.length ≤ s.caps.sigCap → s.hostQueue = scriptAccesses (mvsig s) ++ rest →
      ∃ t, Host.Core.run Sys2Proof.core (2 * y.length + 2) s = .next t ∧
        t = { s with
          hostQueue := rest
          hostAnswers := t.hostAnswers
          sigi := t.sigi
          params := { s.params with inLen := t.params.inLen } } ∧
        t.params.inLen = s.outLen ∧ InputIs t y ∧
        ∀ j, y.length ≤ j → memRead t.sigi j = memRead s.sigi j

/-! ## Reset (`70_reset_and_hazards.md` section 1, `10_state.md` section 5) -/

/-- R70: every register reads 0 after reset, and no element of any memory holds a specified value. -/
def Obligations.ResetClearsRegistersAndNoMemory : Prop :=
  (∀ r, regRead r State.reset = 0) ∧ waveformOf State.reset.params.rmWaveform = .sinusoidal ∧
    codeOf State.reset.result = ResultCode.ok.bits ∧ sigxOf State.reset.result = 0 ∧
    ∀ j, memRead State.reset.sigi j = none ∧ memRead State.reset.sigo j = none ∧
      memRead State.reset.mtab j = none ∧ memRead State.reset.dly j = none

/-- With the reset values of the registers no command succeeds, whatever the memories and capacities: `DIFD`, `SCHR` and
`RMOD` report `SAMPLE_RATE`, `APF` reports `AP_M`, `DSMP` is degenerate. -/
def Obligations.ResetRegistersRejectEveryCommand : Prop :=
  ∀ s : State, s.params = ParamRegs.reset →
    Rejects .apf s .invalidParameter 0x18 0 ∧ RejectsCascade .difd s .invalidParameter 0x02 0 ∧
    RejectsCascade .schr s .invalidParameter 0x02 0 ∧ Rejects .rmod s .invalidParameter 0x02 0 ∧
    Rejects .dsmp s .degenerateResample 0x06 0

/-- The invariant holds after reset. -/
def Obligations.ResetMeetsTheInvariant : Prop := State.reset.Inv

/-! ## The floating type (`00_scope.md` section 6) -/

/-- `I2F` is exact for every integer of magnitude below `2^53`, and `I2F(0)` is `+0.0`. -/
def Obligations.IntegersConvertExactly : Prop :=
  (∀ n : Int, n.natAbs < 2 ^ 53 → isFinite (i2f n) = true ∧ signedUnits (i2f n) = n * 2 ^ 1074) ∧ i2f 0 = F_0

/-- R26: `F2I32` drops the fraction of a finite value in range, saturates at both ends, also for the infinities, and
gives 0 for a NaN. Values are counted in units of `2^-1074`. -/
def Obligations.ConversionToSampleTruncatesAndSaturates : Prop :=
  ∀ y : F,
    (isNaN y = true → f2i32 y = 0) ∧
    (isInf y = true → (f2i32 y).toInt = if signBit y then -2 ^ 31 else 2 ^ 31 - 1) ∧
    (isFinite y = true → ∀ t : Int, t = (signedUnits y).tdiv (2 ^ 1074) →
      (-2 ^ 31 ≤ t → t ≤ 2 ^ 31 - 1 → (f2i32 y).toInt = t) ∧
      (2 ^ 31 - 1 < t → (f2i32 y).toInt = 2 ^ 31 - 1) ∧ (t < -2 ^ 31 → (f2i32 y).toInt = -2 ^ 31))

/-- A sample that becomes an `F` and is truncated again is itself. -/
def Obligations.SamplesSurviveTheRoundTrip : Prop := ∀ x : Sample, f2i32 (i2f x.toInt) = x

/-- R21: on finite operands `(+)`, `(-)`, `(*)` and `(/)` are the exact result rounded to nearest, ties to even,
overflow to an infinity, no flush to zero; a zero product or quotient has the exclusive or of the signs, and an exact
sum of 0 is `-0.0` only when both terms are negative zeros. -/
def Obligations.ArithmeticRoundsToNearestEven : Prop :=
  ∀ a b : F, isFinite a = true → isFinite b = true →
    RoundsTo (signedUnits a + signedUnits b) 1 (fAdd a b) ∧
    RoundsTo (signedUnits a - signedUnits b) 1 (fSub a b) ∧
    RoundsTo (signedUnits a * signedUnits b) (2 ^ 1074) (fMul a b) ∧
    (isZero b = false →
      RoundsTo (signedUnits a * 2 ^ 1074 * (if signBit b then -1 else 1)) (units b) (fDiv a b)) ∧
    (isZero (fAdd a b) = true → signBit (fAdd a b) = (signBit a && signBit b)) ∧
    (isZero (fSub a b) = true → signBit (fSub a b) = (signBit a && !signBit b)) ∧
    signBit (fMul a b) = (signBit a ^^ signBit b) ∧
    (isZero b = false → signBit (fDiv a b) = (signBit a ^^ signBit b))

/-- R21 and R23: a NaN operand gives a NaN; so do `inf (-) inf`, `0 (*) inf`, `0 (/) 0` and `inf (/) inf`; a nonzero
finite value divided by a zero is an infinity; the other results with an infinite operand are IEEE's; a comparison with a
NaN is false, the two zeros are equal, and an infinity is equal to itself only, `+inf` above and `-inf` below every other
value that is no NaN. -/
def Obligations.InfinitiesAndNaNsFollowIeee : Prop :=
  ∀ a b : F,
    (isNaN a = true ∨ isNaN b = true →
      isNaN (fAdd a b) = true ∧ isNaN (fSub a b) = true ∧ isNaN (fMul a b) = true ∧ isNaN (fDiv a b) = true ∧
      fLt a b = false ∧ fLe a b = false ∧ fEq a b = false) ∧
    (isInf a = true → isInf b = true → signBit a = signBit b → isNaN (fSub a b) = true ∧ fAdd a b = a) ∧
    (isInf a = true → isInf b = true → signBit a ≠ signBit b → isNaN (fAdd a b) = true ∧ fSub a b = a) ∧
    (isInf a = true → isFinite b = true → fAdd a b = a ∧ fSub a b = a) ∧
    (isZero a = true → isInf b = true → isNaN (fMul a b) = true ∧ isNaN (fMul b a) = true) ∧
    (isZero a = true → isZero b = true → isNaN (fDiv a b) = true ∧ fEq a b = true) ∧
    (isInf a = true → isInf b = true → isNaN (fDiv a b) = true) ∧
    (isFinite a = true → isZero a = false → isZero b = true →
      isInf (fDiv a b) = true ∧ signBit (fDiv a b) = (signBit a ^^ signBit b)) ∧
    (isFinite a = true → isInf b = true →
      fAdd a b = b ∧ fSub a b = fNeg b ∧ isZero (fDiv a b) = true ∧ signBit (fDiv a b) = (signBit a ^^ signBit b)) ∧
    (isInf a = true → isNaN b = false → isZero b = false →
      isInf (fMul a b) = true ∧ isInf (fMul b a) = true ∧ signBit (fMul a b) = (signBit a ^^ signBit b) ∧
        signBit (fMul b a) = (signBit a ^^ signBit b)) ∧
    (isInf a = true → isFinite b = true →
      isInf (fDiv a b) = true ∧ signBit (fDiv a b) = (signBit a ^^ signBit b)) ∧
    (isInf a = true → fLt a a = false ∧ fLe a a = true ∧ fEq a a = true) ∧
    (isInf a = true → isNaN b = false → b ≠ a →
      fLt a b = signBit a ∧ fLe a b = signBit a ∧ fEq a b = false ∧
        fLt b a = !signBit a ∧ fLe b a = !signBit a ∧ fEq b a = false)

/-- R28: with `r` the exact remainder of a finite `x` by `TWO_PI`, of the sign of `x`, `WRAP(x)` is `+0.0` when `r` is a
zero, `r` when `r > 0`, and otherwise the rounded sum `r (+) TWO_PI`, or `+0.0` when that sum is `TWO_PI` itself; of a NaN
or an infinity it is a NaN. -/
def Obligations.WrapIsTheEuclideanRemainder : Prop :=
  ∀ x : F,
    (isFinite x = true →
      ∃ r, isFinite r = true ∧ signBit r = signBit x ∧ signedUnits r = (signedUnits x).tmod (signedUnits TWO_PI) ∧
        (signedUnits r = 0 → fWrap x = F_0) ∧ (0 < signedUnits r → fWrap x = r) ∧
        (signedUnits r < 0 →
          (fAdd r TWO_PI ≠ TWO_PI → fWrap x = fAdd r TWO_PI ∧ fLt (fAdd r TWO_PI) TWO_PI = true) ∧
          (fAdd r TWO_PI = TWO_PI → fWrap x = F_0))) ∧
    (isFinite x = false → isNaN (fWrap x) = true)

/-- `WRAP` of a finite value is finite, in `[0, TWO_PI)` and has sign bit 0; it is the value itself when that is in
range and no negative zero; of a NaN or an infinity it is a NaN. -/
def Obligations.WrapStaysBelowTwoPi : Prop :=
  ∀ x : F,
    (isFinite x = true →
      isFinite (fWrap x) = true ∧ fLe F_0 (fWrap x) = true ∧ fLt (fWrap x) TWO_PI = true ∧
        signBit (fWrap x) = false) ∧
    (fLe F_0 x = true → fLt x TWO_PI = true → signBit x = false → fWrap x = x) ∧
    (isFinite x = false → isNaN (fWrap x) = true)

/-- R30: with `q = (t (*) I2F(sr)) (/) F_1000`, `FLOORLEN(t, sr)` is the floor of `q` when `q` is finite and `q >= 0`, and
`TOO_LONG` when `q` is `+inf`; `q` is no NaN and not negative when `t > 0` is finite and `sr > 0`. A table that has
`TOO_LONG` at a stage is rejected there as one longer than any capacity is. -/
def Obligations.FloorlenIsTheFloorOfTheQuotient : Prop :=
  (∀ (t q : F) (sr : U32), q = fDiv (fMul t (i2f sr.toNat)) F_1000 →
    (isFinite q = true → fLe F_0 q = true → ∃ n : Nat, floorLen t sr = .samples n ∧
      (n : Int) * 2 ^ 1074 ≤ signedUnits q ∧ signedUnits q < ((n : Int) + 1) * 2 ^ 1074) ∧
    (isInf q = true → signBit q = false → floorLen t sr = .tooLong) ∧
    (isFinite t = true → fLt F_0 t = true → 0 < sr.toNat → isNaN q = false ∧ signBit q = false)) ∧
  ∀ (cap k m : Nat) (rest : List SampleCount), cap < m →
    scanTable cap k (.tooLong :: rest) = scanTable cap k (.samples m :: rest)

/-- R27: the sine `RMOD` runs with has S1 to S4, whatever value its free part takes. -/
def Obligations.ModelSineMeetsItsRequirements : Prop := SineSpec sine

/-- The cut leaves alone exactly the functions that have S1 to S4: every sine the spec allows is one the model can have,
and no other is (that the sine is a free function cut so is log entry 6). -/
def Obligations.CutKeepsExactlyTheAllowedSines : Prop := ∀ f : F → F, cutSine f = f ↔ SineSpec f

/-- At each operand the sines of the model, one for each function the free part could be, take exactly the values the
spec allows there: `+0.0` at `+0.0`, in `[-1, 1]` and bracketing the real sine at a finite operand, a NaN at any other. So
some function meets S1 to S4. That the sine is a free function cut so is log entry 6. -/
def Obligations.SineTakesExactlyTheAllowedValues : Prop :=
  ∀ x v : F, (∃ f : F → F, cutSine f x = v) ↔
    (x = F_0 → v = F_0) ∧
    (isFinite x = true → InRange (fNeg F_1) F_1 v ∧
      Bracketing (Real.sin ((signedUnits x : ℝ) / 2 ^ 1074) * 2 ^ 1074) v) ∧
    (isFinite x = false → isNaN v = true)

/-! ## APF (`40_allpass_stage.md`) -/

/-- `STAGE(x, M, G)` with `M >= 1`: sample `i` is the truncation of `y_i = (neg(G) (*) x_i) (+) d_i`, where `d_i` is
`+0.0` for `i < M` and what step `i - M` fed back, `x_(i-M) (+) (G (*) y_(i-M))`, after: the circular buffer is a delay
by `M` of the untruncated recursion. -/
def Obligations.StageFollowsTheDelayRecurrence : Prop :=
  ∀ (x : List Sample) (m : Nat) (g : F) (d y : Nat → F), 1 ≤ m →
    (∀ i, i < x.length → d i =
      if i < m then F_0 else fAdd (i2f (x.getD (i - m) 0).toInt) (fMul g (y (i - m)))) →
    (∀ i, i < x.length → y i = fAdd (fMul (fNeg g) (i2f (x.getD i 0).toInt)) (d i)) →
      stage x m g = (List.range x.length).map (fun i => f2i32 (y i))

/-- `APF` completes when its checks pass and its input is written. The output is that of the recurrence
`y_i = (neg(G) (*) x_i) (+) d_i`, with `d_i` 0 for `i < M` and `x_(i-M) (+) (G (*) y_(i-M))` after, truncated. -/
def Obligations.ApfCompletesWithTheDelayRecurrence : Prop :=
  ∀ (s : State) (x : List Sample) (g : F) (d y : Nat → F),
    ApfReady s → x.length = s.params.inLen.toNat → InputIs s x → g = fDiv s.params.dlFeedback F_100 →
    (∀ i, i < x.length → d i =
      if i < s.params.apM.toNat then F_0
      else fAdd (i2f (x.getD (i - s.params.apM.toNat) 0).toInt) (fMul g (y (i - s.params.apM.toNat)))) →
    (∀ i, i < x.length → y i = fAdd (fMul (fNeg g) (i2f (x.getD i 0).toInt)) (d i)) →
      ∃ t, exec .apf s = .next t ∧ t.result = 0 ∧
        OutputIs t ((List.range x.length).map (fun i => f2i32 (y i))) ∧
        Kept s t ∧ PhasesKept s t ∧ StageTableKept s t ∧ DrawsKept s t

/-- The rejections of `APF`, in its order: the first failing check decides. -/
def Obligations.ApfReportsItsFirstFailingCheck : Prop :=
  ∀ s : State,
    (¬ InputFits s → Rejects .apf s .capacityExceeded 0x03 0) ∧
    (InputFits s → s.params.apM = 0 → Rejects .apf s .invalidParameter 0x18 0) ∧
    (InputFits s → s.params.apM ≠ 0 → s.caps.dlyCap < s.params.apM.toNat →
      Rejects .apf s .capacityExceeded 0x18 0) ∧
    (InputFits s → s.params.apM ≠ 0 → s.params.apM.toNat ≤ s.caps.dlyCap → ¬ FeedbackOk s →
      Rejects .apf s .invalidParameter 0x12 0)

/-- With zero feedback (of either sign) the stage is a pure delay of `M` samples. -/
def Obligations.ZeroFeedbackIsAPureDelay : Prop :=
  ∀ (s : State) (x : List Sample), ApfReady s → isZero s.params.dlFeedback = true →
    x.length = s.params.inLen.toNat → InputIs s x →
      ∃ t, exec .apf s = .next t ∧ t.result = 0 ∧
        OutputIs t ((List.range x.length).map
          (fun i => if i < s.params.apM.toNat then 0 else x.getD (i - s.params.apM.toNat) 0))

/-- With a buffer no shorter than the signal no step reads a slot that was written: each output sample is
`F2I32(neg(G) (*) x_i)`. -/
def Obligations.LongBufferStageOnlyScales : Prop :=
  ∀ (s : State) (x : List Sample), ApfReady s → x.length = s.params.inLen.toNat → InputIs s x →
    x.length ≤ s.params.apM.toNat →
      ∃ t, exec .apf s = .next t ∧ t.result = 0 ∧
        OutputIs t (x.map (fun v => f2i32 (fMul (fNeg (fDiv s.params.dlFeedback F_100)) (i2f v.toInt))))

/-! ## DIFD and SCHR (`41_diffusion_cascade.md`) -/

/-- `DIFD` completes when its checks pass, every length `B0 div (k + d)` is between 1 and `DLY_CAP`, and its input is
written. `W_0` is the input with `5 * sr` zeros, `W_(k+1)` is stage `k` of `W_k`, the output is `W_N`; `MTAB` is the
table of lengths. -/
def Obligations.DifdCompletesWithTheDivisorCascade : Prop :=
  ∀ (s : State) (x : List Sample) (b0 : Nat) (ms : List Nat) (W : Nat → List Sample),
    s.caps.Ok → DifdReady s → x.length = s.params.inLen.toNat → InputIs s x →
    (s.params.dlStages.toNat ≠ 0 → floorLen s.params.dlDelay s.params.sampleRate = .samples b0) →
    ms = (List.range s.params.dlStages.toNat).map (fun k => b0 / (k + s.params.divOffset.toNat)) →
    (∀ m ∈ ms, 1 ≤ m ∧ m ≤ s.caps.dlyCap) →
    W 0 = x ++ List.replicate (5 * s.params.sampleRate.toNat) 0 →
    (∀ k, k < ms.length → W (k + 1) = stage (W k) (ms.getD k 0) (fDiv s.params.dlFeedback F_100)) →
      ∃ t, exec .difd s = .next t ∧ t.result = 0 ∧ OutputIs t (W ms.length) ∧ StageTableIs t ms ∧
        t.outLen.toNat = s.params.inLen.toNat + 5 * s.params.sampleRate.toNat ∧
        Kept s t ∧ PhasesKept s t ∧ DrawsKept s t

/-- `SCHR` completes when its checks pass, the next `N` scripted answers meet the port's contract with the bounds
`F_0p9 (*) base` and `F_1p5 (*) base`, every length `FLOORLEN(r_k, sr)` is between 1 and `DLY_CAP`, and its input is
written; it consumes exactly those answers. -/
def Obligations.SchrCompletesWithTheDrawnCascade : Prop :=
  ∀ (s : State) (x : List Sample) (rs later : List F) (ms : List Nat) (W : Nat → List Sample),
    s.caps.Ok → SchrReady s → x.length = s.params.inLen.toNat → InputIs s x →
    s.drawScript = rs ++ later → rs.length = s.params.dlStages.toNat →
    (∀ r ∈ rs, isFinite r = true ∧ fLe (fMul F_0p9 s.params.dlDelay) r = true ∧
      fLt r (fMul F_1p5 s.params.dlDelay) = true) →
    rs.map (fun r => floorLen r s.params.sampleRate) = ms.map SampleCount.samples →
    (∀ m ∈ ms, 1 ≤ m ∧ m ≤ s.caps.dlyCap) →
    W 0 = x ++ List.replicate (5 * s.params.sampleRate.toNat) 0 →
    (∀ k, k < ms.length → W (k + 1) = stage (W k) (ms.getD k 0) (fDiv s.params.dlFeedback F_100)) →
      ∃ t, exec .schr s = .next t ∧ t.result = 0 ∧ OutputIs t (W ms.length) ∧ StageTableIs t ms ∧
        t.outLen.toNat = s.params.inLen.toNat + 5 * s.params.sampleRate.toNat ∧
        t.drawScript = later ∧ t.drawCount = s.drawCount + s.params.dlStages.toNat ∧ Kept s t ∧ PhasesKept s t

/-- The checks `DIFD` and `SCHR` share, in their order, then `DIV_OFFSET` of `DIFD` and the draw interval of `SCHR`: the
first failing check decides, and no draw is made. -/
def Obligations.CascadesReportTheirFirstFailingCheck : Prop :=
  ∀ (i : Instr) (s : State), i = .difd ∨ i = .schr →
    (¬ InputFits s → RejectsCascade i s .capacityExceeded 0x03 0) ∧
    (InputFits s → s.params.sampleRate = 0 → RejectsCascade i s .invalidParameter 0x02 0) ∧
    (InputFits s → s.params.sampleRate ≠ 0 →
      s.caps.sigCap < s.params.inLen.toNat + 5 * s.params.sampleRate.toNat →
        RejectsCascade i s .capacityExceeded 0x04 0) ∧
    (InputFits s → s.params.sampleRate ≠ 0 →
      s.params.inLen.toNat + 5 * s.params.sampleRate.toNat ≤ s.caps.sigCap →
      ((isFinite s.params.dlDelay = false ∨ fLe s.params.dlDelay F_0 = true) →
        RejectsCascade i s .invalidParameter 0x11 0) ∧
      (isFinite s.params.dlDelay = true → fLt F_0 s.params.dlDelay = true →
        (¬ FeedbackOk s → RejectsCascade i s .invalidParameter 0x12 0) ∧
        (FeedbackOk s → s.caps.stageCap < s.params.dlStages.toNat →
          RejectsCascade i s .capacityExceeded 0x13 0))) ∧
    (CascadeReady s → i = .difd → s.params.divOffset = 0 → RejectsCascade i s .invalidParameter 0x17 0) ∧
    (CascadeReady s → i = .schr → ¬ SchrReady s → RejectsCascade i s .invalidParameter 0x11 0)

/-- The table of `DIFD` is scanned from stage 0 upward: at the first stage `k` whose length is above `DLY_CAP` or
`TOO_LONG` the command reports `CapacityExceeded(0x11, k)`, at the first whose length is 0, that is `k + d > B0`,
`InvalidParameter(0x11, k)`. -/
def Obligations.DifdReportsTheFirstBadStage : Prop :=
  ∀ (s : State) (k : Nat), DifdReady s → k < s.params.dlStages.toNat →
    (floorLen s.params.dlDelay s.params.sampleRate = .tooLong → k = 0 →
      RejectsCascade .difd s .capacityExceeded 0x11 k) ∧
    ∀ b0, floorLen s.params.dlDelay s.params.sampleRate = .samples b0 →
      (∀ j, j < k → 1 ≤ b0 / (j + s.params.divOffset.toNat) ∧
        b0 / (j + s.params.divOffset.toNat) ≤ s.caps.dlyCap) →
      (s.caps.dlyCap < b0 / (k + s.params.divOffset.toNat) →
        RejectsCascade .difd s .capacityExceeded 0x11 k) ∧
      (b0 < k + s.params.divOffset.toNat → RejectsCascade .difd s .invalidParameter 0x11 k)

/-- All `N` draws of `SCHR` are made, in stage order, before any length is checked: the first stage `k` whose length
`FLOORLEN(r_k, sr)` is `TOO_LONG` or above `DLY_CAP`, or is 0, decides the report, and the `N` answers are consumed all
the same. -/
def Obligations.SchrReportsTheFirstBadStageAfterAllDraws : Prop :=
  ∀ (s : State) (rs later : List F) (k : Nat) (ms : List Nat),
    SchrReady s → s.drawScript = rs ++ later → rs.length = s.params.dlStages.toNat →
    (∀ r ∈ rs, isFinite r = true ∧ fLe (fMul F_0p9 s.params.dlDelay) r = true ∧
      fLt r (fMul F_1p5 s.params.dlDelay) = true) →
    k < rs.length →
    (rs.take k).map (fun r => floorLen r s.params.sampleRate) = ms.map SampleCount.samples →
    (∀ m ∈ ms, 1 ≤ m ∧ m ≤ s.caps.dlyCap) →
      ((floorLen (rs.getD k 0) s.params.sampleRate = .tooLong ∨
          ∃ m, floorLen (rs.getD k 0) s.params.sampleRate = .samples m ∧ s.caps.dlyCap < m) →
        ∃ t, exec .schr s = .next t ∧ RejectedAs .capacityExceeded 0x11 k s t ∧ StageTableIs t [] ∧
          t.drawScript = later ∧ t.drawCount = s.drawCount + rs.length) ∧
      (floorLen (rs.getD k 0) s.params.sampleRate = .samples 0 →
        ∃ t, exec .schr s = .next t ∧ RejectedAs .invalidParameter 0x11 k s t ∧ StageTableIs t [] ∧
          t.drawScript = later ∧ t.drawCount = s.drawCount + rs.length)

/-- Where nothing is scripted, `SCHR` runs as with some answers that meet the port's contract: it is never
refused. That free answers are cut to the contract is the model's choice, log entry 7. -/
def Obligations.UnscriptedDrawsMeetTheContract : Prop :=
  ∀ s : State, SchrReady s → s.drawScript = [] →
    ∃ rs, rs.length = s.params.dlStages.toNat ∧
      (∀ r ∈ rs, isFinite r = true ∧ fLe (fMul F_0p9 s.params.dlDelay) r = true ∧
        fLt r (fMul F_1p5 s.params.dlDelay) = true) ∧
      exec .schr s = exec .schr { s with drawScript := rs }

/-- The lengths `SCHR` draws lie between the lengths of the two bounds. -/
def Obligations.DrawnLengthsLieBetweenTheBounds : Prop :=
  ∀ (s t : State) (k lo hi : Nat), s.caps.Ok → exec .schr s = .next t → codeOf t.result = 0 →
    k < s.params.dlStages.toNat →
      (floorLen (fMul F_0p9 s.params.dlDelay) s.params.sampleRate = .samples lo →
        ∃ v, memRead t.mtab k = some v ∧ lo ≤ v.toNat) ∧
      (floorLen (fMul F_1p5 s.params.dlDelay) s.params.sampleRate = .samples hi →
        ∃ v, memRead t.mtab k = some v ∧ v.toNat ≤ hi) ∧
      floorLen (fMul F_0p9 s.params.dlDelay) s.params.sampleRate ≠ .tooLong

/-- After every `DIFD` or `SCHR` that completes, `OUT_LEN = IN_LEN + 5 * SAMPLE_RATE`. -/
def Obligations.CascadeOutputIsFiveSecondsLonger : Prop :=
  ∀ (i : Instr) (s t : State), s.caps.Ok → i = .difd ∨ i = .schr → exec i s = .next t → codeOf t.result = 0 →
    t.outLen.toNat = s.params.inLen.toNat + 5 * s.params.sampleRate.toNat

/-- With no stages a cascade command only pads: the output is the input and `5 * sr` zeros, `MTAB_LEN` is 0. -/
def Obligations.CascadeWithoutStagesOnlyPads : Prop :=
  ∀ (i : Instr) (s : State) (x : List Sample), s.caps.Ok →
    (i = .difd ∧ DifdReady s) ∨ (i = .schr ∧ SchrReady s) → s.params.dlStages = 0 →
    x.length = s.params.inLen.toNat → InputIs s x →
      ∃ t, exec i s = .next t ∧ t.result = 0 ∧
        OutputIs t (x ++ List.replicate (5 * s.params.sampleRate.toNat) 0) ∧ StageTableIs t [] ∧ DrawsKept s t

/-- An empty or all-zero input gives an all-zero output, whatever the stages. -/
def Obligations.SilenceStaysSilent : Prop :=
  ∀ (i : Instr) (s t : State), i = .apf ∨ i = .difd ∨ i = .schr → exec i s = .next t →
    codeOf t.result = 0 → (∀ j, j < s.params.inLen.toNat → memRead s.sigi j = some 0) →
      ∀ j, j < t.outLen.toNat → memRead t.sigo j = some 0

/-- R58: `DIFD` and `SCHR` set `MTAB_LEN` to the stage count when they complete and to 0 when they end with any other
code; no other command writes it, and the illegal word does not. -/
def Obligations.MtabLenIsTheStageCountOrZero : Prop :=
  regNumber .mtabLen = 0x19 ∧ regType .mtabLen = .u32 ∧ regAccess .mtabLen = .ro ∧
    State.reset.mtabLen = 0 ∧
    (∀ (i : Instr) (s t : State), exec i s = .next t →
      (i = .difd ∨ i = .schr →
        (codeOf t.result = 0 → t.mtabLen = s.params.dlStages) ∧ (codeOf t.result ≠ 0 → t.mtabLen = 0)) ∧
      (i ≠ .difd → i ≠ .schr → t.mtabLen = s.mtabLen)) ∧
    ∀ s : State, (illegalCommand s).mtabLen = s.mtabLen

/-! ## RMOD (`42_ring_modulator.md`) -/

/-- `RMOD` completes when its checks pass and the `min(SAMPLE_LENGTH, IN_LEN)` samples it reads are written. With
`phi` and `kappa` the two phase sequences from `+0.0`, `lv` the LFO values and `y` the blended values of the rules, the
output is `y` truncated, the phase registers end at the last phases, and `SIGX` is set exactly when the input ran out. -/
def Obligations.RmodCompletesWithThePhaseRecurrence : Prop :=
  ∀ (s : State) (x : List Sample) (sr lfoInc mixn amtn : F) (phi kappa lv y : Nat → F),
    RmodReady s → x.length = min s.params.sampleLength.toNat s.params.inLen.toNat → InputIs s x →
    sr = i2f s.params.sampleRate.toNat → lfoInc = fDiv (fMul TWO_PI s.params.rmRate) sr →
    mixn = fDiv s.params.rmMix F_100 → amtn = fDiv s.params.rmAmount F_10 →
    phi 0 = F_0 → kappa 0 = F_0 →
    (∀ i, i < x.length → phi (i + 1) = fWrap (fAdd (phi i) lfoInc)) →
    (∀ i, i < x.length → lv i =
      if s.params.rmWaveform = 0 then sine (phi (i + 1))
      else if fLe F_0 (sine (phi (i + 1))) = true then F_1 else F_0) →
    (∀ i, i < x.length → kappa (i + 1) = fWrap (fAdd (kappa i)
      (fDiv (fMul TWO_PI (fAdd s.params.rmFrequency
        (fMul (fMul (fMul (lv i) s.params.rmFrequency) F_3) amtn))) sr))) →
    (∀ i, i < x.length → y i =
      fAdd (fMul (i2f (x.getD i 0).toInt) (fSub F_1 mixn))
        (fMul (fMul (i2f (x.getD i 0).toInt) (sine (kappa (i + 1)))) mixn)) →
      ∃ t, exec .rmod s = .next t ∧
        OutputIs t ((List.range x.length).map (fun i => f2i32 (y i))) ∧
        t.result = (if s.params.inLen.toNat < s.params.sampleLength.toNat then 0x10 else 0) ∧
        t.lfoPhase = phi x.length ∧ t.carrierPhase = kappa x.length ∧
        Kept s t ∧ StageTableKept s t ∧ DrawsKept s t ∧ t.dly = s.dly

/-- The checks of `RMOD`, in order: the first failing check decides, and both phases keep their values. -/
def Obligations.RmodReportsItsFirstFailingCheck : Prop :=
  ∀ s : State,
    (¬ InputFits s → Rejects .rmod s .capacityExceeded 0x03 0) ∧
    (InputFits s → s.params.sampleRate = 0 → Rejects .rmod s .invalidParameter 0x02 0) ∧
    (InputFits s → s.params.sampleRate ≠ 0 →
      (¬ InRange F_0 F_100 s.params.rmMix → Rejects .rmod s .invalidParameter 0x08 0) ∧
      (InRange F_0 F_100 s.params.rmMix →
        (¬ InRange F_0 F_10 s.params.rmAmount → Rejects .rmod s .invalidParameter 0x09 0) ∧
        (InRange F_0 F_10 s.params.rmAmount →
          (isFinite s.params.rmRate = false → Rejects .rmod s .invalidParameter 0x0B 0) ∧
          (isFinite s.params.rmRate = true → isFinite s.params.rmFrequency = false →
            Rejects .rmod s .invalidParameter 0x0C 0))))

/-- With `mix = 0` the ring modulator is the identity on the samples it takes, for rates and frequencies of magnitude at
most `10^300`, whatever the sine, the amount and the waveform. -/
def Obligations.MixZeroIsTheIdentity : Prop :=
  ∀ (s : State) (x : List Sample), RmodReady s → isZero s.params.rmMix = true →
    InRange (fNeg 0x7E37E43C8800759C) 0x7E37E43C8800759C s.params.rmRate →
    InRange (fNeg 0x7E37E43C8800759C) 0x7E37E43C8800759C s.params.rmFrequency →
    x.length = min s.params.sampleLength.toNat s.params.inLen.toNat → InputIs s x →
      ∃ t, exec .rmod s = .next t ∧ codeOf t.result = 0 ∧ OutputIs t x

/-- After an `RMOD` of any number of samples, with rate and frequency of magnitude at most `10^300`, both phases are
finite, at least 0 and below `TWO_PI`. -/
def Obligations.PhasesNeverLeaveTheCircle : Prop :=
  ∀ s t : State, RmodReady s →
    InRange (fNeg 0x7E37E43C8800759C) 0x7E37E43C8800759C s.params.rmRate →
    InRange (fNeg 0x7E37E43C8800759C) 0x7E37E43C8800759C s.params.rmFrequency →
    exec .rmod s = .next t →
      isFinite t.lfoPhase = true ∧ fLe F_0 t.lfoPhase = true ∧ fLt t.lfoPhase TWO_PI = true ∧
        isFinite t.carrierPhase = true ∧ fLe F_0 t.carrierPhase = true ∧ fLt t.carrierPhase TWO_PI = true

/-- The two oscillators do not read the input signal: two runs whose input samples differ end with the same phases, a NaN
being the same as any NaN. -/
def Obligations.OscillatorsIgnoreTheInput : Prop :=
  ∀ (s s' t t' : State), s'.params = s.params → s'.caps = s.caps →
    exec .rmod s = .next t → exec .rmod s' = .next t' → codeOf t.result = 0 →
      codeOf t'.result = 0 ∧ SamePhase t'.lfoPhase t.lfoPhase ∧ SamePhase t'.carrierPhase t.carrierPhase

/-- R48: `SIGX` is 1 exactly when the command was `RMOD`, it completed, and `SAMPLE_LENGTH > IN_LEN`; it is 0 after
every other outcome, an illegal word included. -/
def Obligations.NoticeExactlyWhenTheInputRanOut : Prop :=
  (∀ (i : Instr) (s t : State), exec i s = .next t →
    (sigxOf t.result = 1 ↔ i = .rmod ∧ codeOf t.result = 0 ∧ s.params.inLen.toNat < s.params.sampleLength.toNat)) ∧
    ∀ s : State, sigxOf (illegalCommand s).result = 0

/-! ## DSMP (`43_resampler.md`) -/

/-- `DSMP` completes when its checks pass and the samples it takes are written: output `J` is input `J * FACTOR`
unchanged, for exactly the `J` with `J * FACTOR < IN_LEN`. -/
def Obligations.DsmpCompletesWithEveryFactorthSample : Prop :=
  ∀ (s : State) (x : List Sample) (factor n : Nat), DsmpReady s →
    factor = s.params.sampleRate.toNat / s.params.newSampleRate.toNat →
    x.length = s.params.inLen.toNat →
    (∀ j, j * factor < x.length → memRead s.sigi (j * factor) = some (x.getD (j * factor) 0)) →
    (∀ j, j < n ↔ j * factor < x.length) →
      ∃ t, exec .dsmp s = .next t ∧ t.result = 0 ∧
        OutputIs t ((List.range n).map (fun j => x.getD (j * factor) 0)) ∧
        n = (s.params.inLen.toNat + factor - 1) / factor ∧
        Kept s t ∧ PhasesKept s t ∧ StageTableKept s t ∧ DrawsKept s t ∧ t.dly = s.dly

/-- R254: `DSMP` with `NEW_SAMPLE_RATE` 0 or above `SAMPLE_RATE` reports `DegenerateResample` with `PARAM = 0x06`,
`STAGE = 0`, `OUT_LEN = 0`, whatever the input; an input longer than `SIG_CAP` is reported first. -/
def Obligations.DegenerateResampleIsReported : Prop :=
  ∀ s : State,
    (InputFits s → s.params.newSampleRate = 0 ∨ s.params.sampleRate.toNat < s.params.newSampleRate.toNat →
      Rejects .dsmp s .degenerateResample 0x06 0) ∧
    (¬ InputFits s → Rejects .dsmp s .capacityExceeded 0x03 0)

/-- At equal rates, or at any pair of rates with ratio below 2, `DSMP` copies the input. -/
def Obligations.RatioBelowTwoCopiesTheInput : Prop :=
  ∀ (s : State) (x : List Sample), DsmpReady s →
    s.params.sampleRate.toNat < 2 * s.params.newSampleRate.toNat →
    x.length = s.params.inLen.toNat → InputIs s x →
      ∃ t, exec .dsmp s = .next t ∧ t.result = 0 ∧ OutputIs t x

/-! ## Rules over all commands -/

/-- What no command changes, and what each leaves alone besides: only `RMOD` writes the phases, only the cascades write
`MTAB` and `MTAB_LEN`, only `SCHR` draws, and `RMOD`, `DSMP` and a rejected command do not touch `DLY`. After a command
that ran a stage no element of `DLY` is specified: the model's choice, log entry 9. -/
def Obligations.CommandsKeepWhatTheyDoNotWrite : Prop :=
  ∀ (i : Instr) (s t : State), exec i s = .next t →
    Kept s t ∧ (i ≠ .rmod → PhasesKept s t) ∧ (i ≠ .difd → i ≠ .schr → StageTableKept s t) ∧
      (i ≠ .schr → DrawsKept s t) ∧ (i = .rmod ∨ i = .dsmp ∨ codeOf t.result ≠ 0 → t.dly = s.dly) ∧
      (i = .apf ∨ i = .difd ∨ i = .schr → codeOf t.result = 0 → ∀ p, memRead t.dly p = none)

/-- R47: after a command `CODE` is one of 0 to 4, and each code comes only from the commands that can raise it: 1 not
from `DSMP`, 2 only from `DSMP`, 4 only from the decoder. -/
def Obligations.CodesComeFromTheirCommands : Prop :=
  (∀ (i : Instr) (s t : State), exec i s = .next t →
    (codeOf t.result).toNat ≤ 3 ∧ (codeOf t.result = 1 → i ≠ .dsmp) ∧ (codeOf t.result = 2 → i = .dsmp) ∧
      (codeOf t.result = 0 → paramOf t.result = 0 ∧ stageOf t.result = 0)) ∧
    ∀ s : State, codeOf (illegalCommand s).result = 4

/-- R252: a rejected command is precise. Besides `RESULT`, `OUT_LEN`, `SIGO`, the table of a cascade and the draws of a
`SCHR`, the state is as before the command, and no output exists. -/
def Obligations.RejectionsArePrecise : Prop :=
  ∀ (i : Instr) (s t : State), exec i s = .next t → codeOf t.result ≠ 0 →
    OutputIs t [] ∧ sigxOf t.result = 0 ∧ Kept s t ∧ PhasesKept s t ∧ t.dly = s.dly ∧
      (i = .difd ∨ i = .schr → StageTableIs t []) ∧ (i ≠ .difd → i ≠ .schr → StageTableKept s t) ∧
      (i ≠ .schr → DrawsKept s t) ∧
      (i = .schr → DrawsKept s t ∨
        (t.drawCount = s.drawCount + s.params.dlStages.toNat ∧
          t.drawScript = s.drawScript.drop s.params.dlStages.toNat))

/-- The report of a command depends only on its operands, the capacities and, for `SCHR`, the random port: not on
`RESULT`, earlier outputs, the phases, other registers or other elements of `SIGI`. -/
def Obligations.ReportDependsOnlyOnTheOperands : Prop :=
  ∀ (i : Instr) (s s' : State), SameOperands i s s' →
    (∃ t t', exec i s = .next t ∧ exec i s' = .next t' ∧ SameReport i t t') ∨
      (∃ f, exec i s = .fault f ∧ exec i s' = .fault f) ∨ (∃ r, exec i s = .refused r ∧ exec i s' = .refused r)

/-- The pass-through fields `DL_MIX`, `DL_WIDTH`, `DL_HIGH_PASS` and `DL_LOW_PASS` have no effect on what any command
writes. -/
def Obligations.PassThroughFieldsHaveNoEffect : Prop :=
  ∀ (i : Instr) (s t : State) (a b c d : BitVec 64), exec i s = .next t →
    exec i { s with params := { s.params with dlMix := a, dlWidth := b, dlHighPass := c, dlLowPass := d } } =
      .next { t with params := { s.params with dlMix := a, dlWidth := b, dlHighPass := c, dlLowPass := d } }

/-- A command faults only at an element of `SIGI` below `IN_LEN` that the host has not written, and is refused only at a
scripted draw outside the port's contract: the model's choices among those the spec allows, log entries 2 and 7. -/
def Obligations.StopsOnlyAtUnwrittenInputOrBadDraws : Prop :=
  ∀ (i : Instr) (s : State),
    (∀ f, exec i s = .fault f →
      ∃ j, f = .unwrittenSample j ∧ j < s.params.inLen.toNat ∧ memRead s.sigi j = none) ∧
    ∀ r, exec i s = .refused r →
      ∃ a, r = .drawOutsideContract a ∧ i = .schr ∧ a ∈ s.drawScript ∧
        ¬ (isFinite a = true ∧ fLe (fMul F_0p9 s.params.dlDelay) a = true ∧
          fLt a (fMul F_1p5 s.params.dlDelay) = true)

/-- A command whose checks, table and draws pass faults at the first sample it reads that is not written: `APF`, `DIFD`
and `SCHR` at the least such index below `IN_LEN`, `RMOD` at the least below `min(SAMPLE_LENGTH, IN_LEN)`, `DSMP` at the
first multiple of `FACTOR` below `IN_LEN`. The fault is the model's choice, log entry 2; scripted answers are log entry 7. -/
def Obligations.UnwrittenInputFaults : Prop :=
  (∀ (s : State) (j : Nat), (∀ k, k < j → (memRead s.sigi k).isSome = true) → memRead s.sigi j = none →
    (ApfReady s → j < s.params.inLen.toNat → exec .apf s = .fault (.unwrittenSample j)) ∧
    (RmodReady s → j < min s.params.sampleLength.toNat s.params.inLen.toNat →
      exec .rmod s = .fault (.unwrittenSample j)) ∧
    (∀ b0, DifdReady s → j < s.params.inLen.toNat →
      (s.params.dlStages.toNat ≠ 0 → floorLen s.params.dlDelay s.params.sampleRate = .samples b0) →
      (∀ k, k < s.params.dlStages.toNat → 1 ≤ b0 / (k + s.params.divOffset.toNat) ∧
        b0 / (k + s.params.divOffset.toNat) ≤ s.caps.dlyCap) →
      exec .difd s = .fault (.unwrittenSample j)) ∧
    (∀ (rs later : List F) (ms : List Nat), SchrReady s → j < s.params.inLen.toNat →
      s.drawScript = rs ++ later → rs.length = s.params.dlStages.toNat →
      (∀ r ∈ rs, isFinite r = true ∧ fLe (fMul F_0p9 s.params.dlDelay) r = true ∧
        fLt r (fMul F_1p5 s.params.dlDelay) = true) →
      rs.map (fun r => floorLen r s.params.sampleRate) = ms.map SampleCount.samples →
      (∀ m ∈ ms, 1 ≤ m ∧ m ≤ s.caps.dlyCap) →
      exec .schr s = .fault (.unwrittenSample j))) ∧
  ∀ (s : State) (factor j : Nat), DsmpReady s →
    factor = s.params.sampleRate.toNat / s.params.newSampleRate.toNat →
    (∀ i, i < j → (memRead s.sigi (i * factor)).isSome = true) → memRead s.sigi (j * factor) = none →
    j * factor < s.params.inLen.toNat → exec .dsmp s = .fault (.unwrittenSample (j * factor))

/-- Every step keeps the invariant, from every state that meets it. -/
def Obligations.EveryStepKeepsTheInvariant : Prop :=
  ∀ s t : State, s.Inv → step s = .next t → t.Inv
end

