-- ==== Sys2Proof/Laws/Rounding.lean ====
section
/-! SUPPORT. What rounding a magnitude does (`00_scope.md` R21): `roundMag` gives
the nearest encoding, ties to even, overflow to an infinity. -/

namespace Sys2Proof.Laws
open Sys2Proof.Machine

/-- What rounding does: of the encoding `n` just below the exact value and the next one it takes the nearer, the even one
at a tie. -/
theorem roundMag_spec (num den : Nat) (hd : 0 < den) :
    ∃ n, unitsOfBits n * den ≤ num ∧ num < unitsOfBits (n + 1) * den ∧
      roundMag num den = min (n + if (unitsOfBits (n + 1) - unitsOfBits n) * den < 2 * (num - unitsOfBits n * den) ∨
        ((unitsOfBits (n + 1) - unitsOfBits n) * den = 2 * (num - unitsOfBits n * den) ∧ n % 2 = 1) then 1 else 0) infBits := by
  set q := num / den with hq
  set k := q.log2 - 52 with hk
  set m := num / (den * 2 ^ k) with hm
  have hmq : m = q / 2 ^ k := by rw [hm, hq, Nat.div_div_eq_div_mul]
  have hbound : (k = 0 ∨ 2 ^ 52 ≤ m) ∧ m + 1 ≤ 2 ^ 53 := by
    rcases Nat.eq_zero_or_pos q with h0 | hpos
    · have : k = 0 := by rw [hk, h0]; simp
      refine ⟨.inl this, ?_⟩
      rw [hmq, h0]; simp
    · have hlo : 2 ^ q.log2 ≤ q := Nat.log2_self_le (by omega)
      have hhi : q < 2 ^ (q.log2 + 1) := Nat.lt_log2_self
      rcases Nat.lt_or_ge q.log2 53 with hl | hl
      · have hk0 : k = 0 := by omega
        refine ⟨.inl hk0, ?_⟩
        rw [hmq, hk0]
        have : 2 ^ (q.log2 + 1) ≤ 2 ^ 53 := Nat.pow_le_pow_right (by norm_num) (by omega)
        simp; omega
      · have e : q.log2 = 52 + k := by omega
        rw [e] at hlo hhi
        refine ⟨.inr ?_, ?_⟩
        · rw [hmq, Nat.le_div_iff_mul_le (by positivity), ← pow_add]; exact hlo
        · have : q / 2 ^ k < 2 ^ 53 := by
            rw [Nat.div_lt_iff_lt_mul (by positivity), ← pow_add]
            calc q < 2 ^ (52 + k + 1) := hhi
              _ = 2 ^ (53 + k) := by congr 1; omega
          omega
  have a := unitsOfBits_scaled (k := k) (m := m) ⟨hbound.1, by omega⟩
  have b := unitsOfBits_scaled (k := k) (m := m + 1) ⟨by rcases hbound.1 with h | h <;> omega, hbound.2⟩
  rw [← Nat.add_assoc] at b
  have hdk : 0 < den * 2 ^ k := by positivity
  have hdm := Nat.div_add_mod num (den * 2 ^ k)
  have hml := Nat.mod_lt num hdk
  rw [← hm] at hdm
  refine ⟨k * 2 ^ 52 + m, ?_, ?_, ?_⟩
  · rw [a, show m * 2 ^ k * den = den * 2 ^ k * m by ring]; omega
  · rw [b, show (m + 1) * 2 ^ k * den = den * 2 ^ k * m + den * 2 ^ k by ring]; omega
  · rw [a, b]
    have e1 : (m + 1) * 2 ^ k - m * 2 ^ k = 2 ^ k := by
      rw [← Nat.sub_mul]; simp
    have e2 : num - m * 2 ^ k * den = num % (den * 2 ^ k) := by
      have : m * 2 ^ k * den = den * 2 ^ k * m := by ring
      rw [this]; omega
    have e3 : (k * 2 ^ 52 + m) % 2 = m % 2 := by omega
    rw [e1, e2, e3]
    have e4 : 2 ^ k * den = den * 2 ^ k := by ring
    rw [e4]
    simp only [roundMag, ← hq, ← hk, ← hm]
    rw [Nat.add_assoc]


theorem unitsOfBits_zero : unitsOfBits 0 = 0 := by
  simp [unitsOfBits]

theorem unitsOfBits_infBits : unitsOfBits infBits = 2 ^ 2098 := by
  have h := unitsOfBits_scaled (k := 2046) (m := 2 ^ 52) ⟨.inr le_rfl, by norm_num⟩
  rw [← pow_add] at h
  exact h

theorem unitsOfBits_infBits_pred : unitsOfBits (infBits - 1) = 2 ^ 2098 - 2 ^ 2045 := by
  have h := unitsOfBits_scaled (k := 2045) (m := 2 ^ 53 - 1) ⟨.inr (by norm_num), by norm_num⟩
  have e : infBits - 1 = 2045 * 2 ^ 52 + (2 ^ 53 - 1) := by decide
  have e2 : (2 : Nat) ^ 2098 = 2 ^ 53 * 2 ^ 2045 := (pow_add 2 53 2045)
  rw [e, h, e2, Nat.sub_mul, Nat.one_mul]

/-- The encoding below `num / den` is unique. -/
theorem floorBits_unique {num den n n' : Nat} (h1 : unitsOfBits n * den ≤ num)
    (h2 : num < unitsOfBits (n + 1) * den) (h1' : unitsOfBits n' * den ≤ num)
    (h2' : num < unitsOfBits (n' + 1) * den) : n = n' := by
  have a : unitsOfBits n < unitsOfBits (n' + 1) := Nat.lt_of_mul_lt_mul_right (h1.trans_lt h2')
  have b : unitsOfBits n' < unitsOfBits (n + 1) := Nat.lt_of_mul_lt_mul_right (h1'.trans_lt h2)
  have a' := unitsOfBits_strictMono.lt_iff_lt.1 a
  have b' := unitsOfBits_strictMono.lt_iff_lt.1 b
  omega

/-- Rounding is monotone in the exact value. -/
theorem roundMag_mono {a b c d : Nat} (hb : 0 < b) (hd : 0 < d) (h : a * d ≤ c * b) :
    roundMag a b ≤ roundMag c d := by
  obtain ⟨n, hn1, hn2, hn⟩ := roundMag_spec a b hb
  obtain ⟨m, hm1, hm2, hm⟩ := roundMag_spec c d hd
  have hle : unitsOfBits n * (b * d) < unitsOfBits (m + 1) * (b * d) := by
    calc unitsOfBits n * (b * d) = unitsOfBits n * b * d := by ring
      _ ≤ a * d := Nat.mul_le_mul_right _ hn1
      _ ≤ c * b := h
      _ < unitsOfBits (m + 1) * d * b := Nat.mul_lt_mul_of_pos_right hm2 hb
      _ = unitsOfBits (m + 1) * (b * d) := by ring
  have hnm : n < m + 1 := unitsOfBits_strictMono.lt_iff_lt.1 (Nat.lt_of_mul_lt_mul_right hle)
  rw [hn, hm]
  refine min_le_min_right _ ?_
  rcases Nat.lt_or_ge n m with hlt | hge
  · split <;> split <;> omega
  · have e : n = m := by omega
    subst e
    have key : 2 * (a - unitsOfBits n * b) * d ≤ 2 * (c - unitsOfBits n * d) * b := by
      have : (a - unitsOfBits n * b) * d ≤ (c - unitsOfBits n * d) * b := by
        rw [Nat.sub_mul, Nat.sub_mul, show unitsOfBits n * b * d = unitsOfBits n * d * b by ring]
        omega
      calc 2 * (a - unitsOfBits n * b) * d = 2 * ((a - unitsOfBits n * b) * d) := by ring
        _ ≤ 2 * ((c - unitsOfBits n * d) * b) := by omega
        _ = _ := by ring
    set g := unitsOfBits (n + 1) - unitsOfBits n
    have up : (g * b < 2 * (a - unitsOfBits n * b) → g * d < 2 * (c - unitsOfBits n * d)) := by
      intro h1
      have : g * d * b < 2 * (c - unitsOfBits n * d) * b :=
        calc g * d * b = g * b * d := by ring
          _ < 2 * (a - unitsOfBits n * b) * d := Nat.mul_lt_mul_of_pos_right h1 hd
          _ ≤ _ := key
      exact Nat.lt_of_mul_lt_mul_right this
    have up' : (g * b = 2 * (a - unitsOfBits n * b) → g * d ≤ 2 * (c - unitsOfBits n * d)) := by
      intro h1
      have : g * d * b ≤ 2 * (c - unitsOfBits n * d) * b :=
        calc g * d * b = g * b * d := by ring
          _ = 2 * (a - unitsOfBits n * b) * d := by rw [h1]
          _ ≤ _ := key
      exact Nat.le_of_mul_le_mul_right this hb
    split
    · rename_i h1
      have : (g * d < 2 * (c - unitsOfBits n * d) ∨ g * d = 2 * (c - unitsOfBits n * d) ∧ n % 2 = 1) := by
        rcases h1 with h1 | ⟨h1, h2⟩
        · exact .inl (up h1)
        · rcases (up' h1).lt_or_eq with h3 | h3
          · exact .inl h3
          · exact .inr ⟨h3, h2⟩
      rw [if_pos this]
    · omega

/-- An exact value is its own rounding. -/
theorem roundMag_exact {num den n : Nat} (hd : 0 < den) (h : num = unitsOfBits n * den) (hn : n ≤ infBits) :
    roundMag num den = n := by
  obtain ⟨m, h1, h2, hm⟩ := roundMag_spec num den hd
  have hlt := unitsOfBits_lt_succ n
  have e : m = n := floorBits_unique h1 h2 h.ge (by rw [h]; exact Nat.mul_lt_mul_of_pos_right hlt hd)
  subst e
  have hz : num - unitsOfBits m * den = 0 := by omega
  have hg : 0 < (unitsOfBits (m + 1) - unitsOfBits m) * den := by
    apply Nat.mul_pos _ hd; omega
  rw [hm, hz, if_neg (by omega)]
  omega

theorem roundMag_le_of_le {num den n : Nat} (hd : 0 < den) (h : num ≤ unitsOfBits n * den) (hn : n ≤ infBits) :
    roundMag num den ≤ n := by
  have := roundMag_mono (a := num) (b := den) (c := unitsOfBits n * den) (d := den) hd hd (Nat.mul_le_mul_right _ h)
  rwa [roundMag_exact hd rfl hn] at this

theorem le_roundMag_of_le {num den n : Nat} (hd : 0 < den) (h : unitsOfBits n * den ≤ num) (hn : n ≤ infBits) :
    n ≤ roundMag num den := by
  have := roundMag_mono (c := num) (d := den) (a := unitsOfBits n * den) (b := den) hd hd (Nat.mul_le_mul_right _ h)
  rwa [roundMag_exact hd rfl hn] at this

theorem roundMag_le_infBits (num den : Nat) : roundMag num den ≤ infBits := by
  unfold roundMag; exact min_le_right _ _

theorem overflow_powers : ∃ p h : Nat, (2 : Nat) ^ 2098 = p ∧ (2 : Nat) ^ 2045 = h + h ∧ (2 : Nat) ^ 2044 = h ∧
    h + h < p ∧ 0 < h := by
  have e : (2 : Nat) ^ 2045 = 2 ^ 2044 + 2 ^ 2044 := by
    have := pow_succ (2 : Nat) 2044
    rw [Nat.mul_two] at this
    exact this
  refine ⟨_, _, rfl, e, rfl, ?_, Nat.pow_pos (by norm_num)⟩
  rw [← e]; exact Nat.pow_lt_pow_right (by norm_num) (by norm_num)

/-- Overflow happens exactly from `2^1024 - 2^970` on. -/
theorem roundMag_eq_infBits_iff {num den : Nat} (hd : 0 < den) :
    roundMag num den = infBits ↔ (2 ^ 2098 - 2 ^ 2044) * den ≤ num := by
  obtain ⟨n, h1, h2, hn⟩ := roundMag_spec num den hd
  have hI := unitsOfBits_infBits
  have hP := unitsOfBits_infBits_pred
  obtain ⟨p, h, ep, eh2, eh, hlt, hpos⟩ := overflow_powers
  have hodd : (infBits - 1) % 2 = 1 := rfl
  have hbig : 1 < infBits := by decide
  rw [hn]
  rw [ep] at hI
  rw [ep, eh2] at hP
  rw [ep, eh]
  clear ep eh eh2
  generalize infBits = I at *
  have hmul : (p - h) * den = (p - (h + h)) * den + h * den := by
    rw [← Nat.add_mul]; congr 1; omega
  have hmul2 : (h + h) * den = 2 * (h * den) := by ring
  have hdp : 0 < h * den := Nat.mul_pos hpos hd
  rcases Nat.lt_trichotomy n (I - 1) with hlt' | heq | hgt
  · have h3 : unitsOfBits (n + 1) ≤ unitsOfBits (I - 1) := unitsOfBits_strictMono.monotone (by omega)
    have h4 : num < (p - (h + h)) * den := h2.trans_le (Nat.mul_le_mul_right _ (hP ▸ h3))
    constructor
    · intro h6; exfalso
      split at h6 <;> omega
    · intro h6; omega
  · subst heq
    have e : I - 1 + 1 = I := by omega
    have e2 : p - (p - (h + h)) = h + h := by omega
    rw [e, hI, hP, e2, hodd, hmul2, hmul]
    rw [hP] at h1
    constructor
    · intro h6
      split at h6 <;> omega
    · intro h6
      rw [if_pos (by omega)]; omega
  · have h3 : unitsOfBits I ≤ unitsOfBits n := unitsOfBits_strictMono.monotone (by omega)
    rw [hI] at h3
    have h4 : (p - h) * den ≤ unitsOfBits n * den := Nat.mul_le_mul_right _ (by omega)
    constructor
    · intro _; omega
    · intro _; split <;> omega

/-- No encoding is nearer than the rounded one, and a tie goes to the even encoding. -/
theorem roundMag_nearest {num den : Nat} (hd : 0 < den) (hfin : roundMag num den < infBits) (z : Nat) :
    |(num : Int) - den * unitsOfBits (roundMag num den)| ≤ |(num : Int) - den * unitsOfBits z| ∧
    (|(num : Int) - den * unitsOfBits (roundMag num den)| = |(num : Int) - den * unitsOfBits z| →
      unitsOfBits z ≠ unitsOfBits (roundMag num den) → roundMag num den % 2 = 0) := by
  obtain ⟨n, h1, h2, hn⟩ := roundMag_spec num den hd
  generalize infBits = I at *
  have hu := unitsOfBits_lt_succ n
  have hz : (unitsOfBits z * den ≤ unitsOfBits n * den) ∨ (unitsOfBits (n + 1) * den ≤ unitsOfBits z * den) := by
    rcases Nat.lt_or_ge n z with h | h
    · exact .inr (Nat.mul_le_mul_right _ (unitsOfBits_strictMono.monotone h))
    · exact .inl (Nat.mul_le_mul_right _ (unitsOfBits_strictMono.monotone h))
  have hne : ∀ w, unitsOfBits z * den = unitsOfBits w * den → unitsOfBits z = unitsOfBits w :=
    fun w h => Nat.eq_of_mul_eq_mul_right hd h
  rw [Nat.sub_mul] at hn
  have step :
      (roundMag num den = n + 1 ∧ unitsOfBits (n + 1) * den - unitsOfBits n * den ≤ 2 * (num - unitsOfBits n * den) ∧
        (unitsOfBits (n + 1) * den - unitsOfBits n * den = 2 * (num - unitsOfBits n * den) → n % 2 = 1)) ∨
      (roundMag num den = n ∧ 2 * (num - unitsOfBits n * den) ≤ unitsOfBits (n + 1) * den - unitsOfBits n * den ∧
        (unitsOfBits (n + 1) * den - unitsOfBits n * den = 2 * (num - unitsOfBits n * den) → n % 2 = 0)) := by
    generalize roundMag num den = w at *
    split at hn
    · left; omega
    · right; omega
  clear hn hfin
  have comm : ∀ a : Nat, (den : Int) * unitsOfBits a = ((unitsOfBits a * den : Nat) : Int) := by
    intro a; push_cast; ring
  simp only [comm]
  have absn : ∀ a b : Nat, |(a : Int) - b| = ((a - b + (b - a) : Nat) : Int) := by
    intro a b
    rcases le_total a b with h | h
    · rw [abs_of_nonpos (by omega)]; omega
    · rw [abs_of_nonneg (by omega)]; omega
  simp only [absn, Nat.cast_le, Nat.cast_inj]
  rcases step with ⟨hr, hup, heven⟩ | ⟨hr, hup, heven⟩
  · rw [hr]
    have hne' := hne (n + 1)
    generalize unitsOfBits z * den = Z at *
    generalize unitsOfBits (n + 1) * den = U1 at *
    generalize unitsOfBits n * den = U0 at *
    constructor
    · omega
    · intro h3 h4
      have : Z ≠ U1 := fun h => h4 (hne' h)
      omega
  · rw [hr]
    have hne' := hne n
    generalize unitsOfBits z * den = Z at *
    generalize unitsOfBits (n + 1) * den = U1 at *
    generalize unitsOfBits n * den = U0 at *
    constructor
    · omega
    · intro h3 h4
      have : Z ≠ U0 := fun h => h4 (hne' h)
      omega

end Sys2Proof.Laws
end

