-- ==== Sys2Proof/Laws/Float.lean ====
section
/-! SUPPORT. The operations on `F` (`00_scope.md` section 6): classes, signs and magnitudes, rounded results, exact
conversions, truncation, the phase wrap. -/

namespace Sys2Proof.Laws
open Sys2Proof.Machine

theorem infBits_lt : infBits < 2 ^ 63 := by decide

theorem magBits_lt (x : F) : magBits x < 2 ^ 63 := Nat.mod_lt _ (by norm_num)

theorem magBits_packF {neg : Bool} {m : Nat} (h : m < 2 ^ 63) : magBits (packF neg m) = m := by
  unfold magBits packF
  rw [BitVec.toNat_ofNat]
  cases neg <;> simp only [Bool.false_eq_true, if_false, if_true] <;> omega

theorem signBit_packF {neg : Bool} {m : Nat} (h : m < 2 ^ 63) : signBit (packF neg m) = neg := by
  unfold signBit packF
  rw [BitVec.toNat_ofNat]
  cases neg <;> simp <;> omega

theorem packF_self (x : F) : packF (signBit x) (magBits x) = x := by
  have := x.isLt
  apply BitVec.eq_of_toNat_eq
  unfold signBit packF magBits
  rw [BitVec.toNat_ofNat]
  by_cases h : 2 ^ 63 ≤ x.toNat <;> simp only [h, decide_true, decide_false, Bool.false_eq_true, if_false, if_true] <;> omega

theorem eq_of_sign_mag {x y : F} (hs : signBit x = signBit y) (hm : magBits x = magBits y) : x = y := by
  rw [← packF_self x, ← packF_self y, hs, hm]

/-! ## Classes -/

theorem isFinite_iff {x : F} : isFinite x = true ↔ magBits x < infBits := by simp [isFinite]
theorem isNaN_iff {x : F} : isNaN x = true ↔ infBits < magBits x := by simp [isNaN]
theorem isInf_iff {x : F} : isInf x = true ↔ magBits x = infBits := by simp [isInf]
theorem isZero_iff {x : F} : isZero x = true ↔ magBits x = 0 := by simp [isZero]

theorem isNaN_of_isFinite {x : F} (h : isFinite x = true) : isNaN x = false := by
  simp [isFinite, isNaN] at *; omega
theorem isInf_of_isFinite {x : F} (h : isFinite x = true) : isInf x = false := by
  simp [isFinite, isInf] at *; omega
theorem isNaN_of_isInf {x : F} (h : isInf x = true) : isNaN x = false := by
  simp [isInf, isNaN] at *; omega
theorem isFinite_of_isInf {x : F} (h : isInf x = true) : isFinite x = false := by
  simp [isInf, isFinite] at *; omega
theorem isFinite_of_isNaN {x : F} (h : isNaN x = true) : isFinite x = false := by
  simp [isNaN, isFinite] at *; omega
theorem isInf_of_isNaN {x : F} (h : isNaN x = true) : isInf x = false := by
  simp [isNaN, isInf] at *; omega
theorem isFinite_of_isZero {x : F} (h : isZero x = true) : isFinite x = true := by
  rw [isZero_iff] at h; rw [isFinite_iff, h]; decide

theorem classes (x : F) : isFinite x = true ∨ isInf x = true ∨ isNaN x = true := by
  rw [isFinite_iff, isInf_iff, isNaN_iff]; omega

/-! ## Magnitudes -/

theorem unitsOfBits_inj {a b : Nat} : unitsOfBits a = unitsOfBits b ↔ a = b := unitsOfBits_strictMono.injective.eq_iff
theorem unitsOfBits_lt {a b : Nat} : unitsOfBits a < unitsOfBits b ↔ a < b := unitsOfBits_strictMono.lt_iff_lt
theorem unitsOfBits_le {a b : Nat} : unitsOfBits a ≤ unitsOfBits b ↔ a ≤ b := unitsOfBits_strictMono.le_iff_le

theorem units_packF {neg : Bool} {m : Nat} (h : m < 2 ^ 63) : units (packF neg m) = unitsOfBits m := by
  rw [units, magBits_packF h]

theorem units_eq_zero {x : F} : units x = 0 ↔ isZero x = true := by
  rw [isZero_iff, units]
  constructor
  · intro h; exact unitsOfBits_inj.1 (h.trans unitsOfBits_zero.symm)
  · intro h; rw [h, unitsOfBits_zero]

theorem signedUnits_packF {neg : Bool} {m : Nat} (h : m < 2 ^ 63) :
    signedUnits (packF neg m) = if neg then -(unitsOfBits m : Int) else unitsOfBits m := by
  rw [signedUnits, signBit_packF h, units_packF h]

theorem signedUnits_eq_zero {x : F} : signedUnits x = 0 ↔ isZero x = true := by
  rw [← units_eq_zero, signedUnits]; split <;> omega

theorem natAbs_signedUnits (x : F) : (signedUnits x).natAbs = units x := by
  rw [signedUnits]; split <;> simp

theorem signedUnits_neg_iff {x : F} (h : isZero x = false) : signedUnits x < 0 ↔ signBit x = true := by
  have : units x ≠ 0 := fun h' => by rw [units_eq_zero.1 h'] at h; cases h
  rw [signedUnits]; split <;> simp_all <;> omega

theorem eq_of_signedUnits {x y : F} (h : signedUnits x = signedUnits y) (hz : isZero x = false) : x = y := by
  have hm : magBits x = magBits y := by
    rw [← unitsOfBits_inj]; show units x = units y
    rw [← natAbs_signedUnits, h, natAbs_signedUnits]
  have hz' : isZero y = false := by simpa [isZero, hm] using hz
  refine eq_of_sign_mag ?_ hm
  have := signedUnits_neg_iff hz
  rw [h, signedUnits_neg_iff hz'] at this
  exact (Bool.eq_iff_iff.2 this).symm

theorem units_of_isFinite {x : F} (h : isFinite x = true) : units x < unitsOfBits infBits :=
  unitsOfBits_lt.2 (isFinite_iff.1 h)

/-! ## Negation and comparison -/

theorem magBits_eq_setWidth (x : F) : magBits x = (x.setWidth 63).toNat := by
  rw [BitVec.toNat_setWidth]; rfl

theorem signBit_eq_msb (x : F) : signBit x = x.msb := by rw [BitVec.msb_eq_decide]; rfl

@[simp] theorem magBits_fNeg (x : F) : magBits (fNeg x) = magBits x := by
  rw [magBits_eq_setWidth, magBits_eq_setWidth, fNeg, BitVec.setWidth_xor]
  have : BitVec.setWidth 63 (0x8000000000000000 : F) = 0 := by decide
  rw [this]; simp

@[simp] theorem signBit_fNeg (x : F) : signBit (fNeg x) = !signBit x := by
  rw [signBit_eq_msb, signBit_eq_msb, fNeg, BitVec.msb_xor]
  have : (0x8000000000000000 : F).msb = true := by decide
  rw [this]; simp

@[simp] theorem units_fNeg (x : F) : units (fNeg x) = units x := by rw [units, magBits_fNeg]; rfl

@[simp] theorem signedUnits_fNeg (x : F) : signedUnits (fNeg x) = -signedUnits x := by
  rw [signedUnits, signedUnits, signBit_fNeg, units_fNeg]; cases signBit x <;> simp

@[simp] theorem isFinite_fNeg (x : F) : isFinite (fNeg x) = isFinite x := by simp [isFinite]
@[simp] theorem isNaN_fNeg (x : F) : isNaN (fNeg x) = isNaN x := by simp [isNaN]
@[simp] theorem isInf_fNeg (x : F) : isInf (fNeg x) = isInf x := by simp [isInf]
@[simp] theorem isZero_fNeg (x : F) : isZero (fNeg x) = isZero x := by simp [isZero]

theorem fLt_iff {a b : F} (ha : isNaN a = false) (hb : isNaN b = false) :
    fLt a b = true ↔ signedUnits a < signedUnits b := by simp [fLt, ha, hb]
theorem fLe_iff {a b : F} (ha : isNaN a = false) (hb : isNaN b = false) :
    fLe a b = true ↔ signedUnits a ≤ signedUnits b := by simp [fLe, ha, hb]
theorem fEq_iff {a b : F} (ha : isNaN a = false) (hb : isNaN b = false) :
    fEq a b = true ↔ signedUnits a = signedUnits b := by simp [fEq, ha, hb]

theorem not_isNaN_of_fLt {a b : F} (h : fLt a b = true) : isNaN a = false ∧ isNaN b = false := by
  simp [fLt] at h; exact h.1
theorem not_isNaN_of_fLe {a b : F} (h : fLe a b = true) : isNaN a = false ∧ isNaN b = false := by
  simp [fLe] at h; exact h.1

/-! ## NaN results -/

@[simp] theorem isNaN_nanResult (op : FloatOp) (a b : F) : isNaN (nanResult op a b) = true := by
  unfold nanResult; split
  · assumption
  · decide

/-! ## Rounded results -/

theorem roundMag_lt (num den : Nat) : roundMag num den < 2 ^ 63 :=
  (roundMag_le_infBits num den).trans_lt infBits_lt

@[simp] theorem magBits_roundF (neg : Bool) (num den : Nat) : magBits (roundF neg num den) = roundMag num den :=
  magBits_packF (roundMag_lt num den)

@[simp] theorem signBit_roundF (neg : Bool) (num den : Nat) : signBit (roundF neg num den) = neg :=
  signBit_packF (roundMag_lt num den)

@[simp] theorem isNaN_roundF (neg : Bool) (num den : Nat) : isNaN (roundF neg num den) = false := by
  have := roundMag_le_infBits num den
  simp [isNaN]; exact this

theorem signedUnits_roundF (neg : Bool) (num den : Nat) : signedUnits (roundF neg num den) =
    if neg then -(unitsOfBits (roundMag num den) : Int) else unitsOfBits (roundMag num den) := by
  rw [signedUnits, units, signBit_roundF, magBits_roundF]

/-- A value that is an `F` is its own rounding. -/
theorem roundF_exact {neg : Bool} {x : F} {num den : Nat} (hd : 0 < den) (hs : signBit x = neg)
    (hx : isNaN x = false) (h : num = units x * den) : roundF neg num den = x := by
  refine eq_of_sign_mag (by rw [signBit_roundF, hs]) ?_
  rw [magBits_roundF]
  refine roundMag_exact hd h ?_
  simp [isNaN] at hx; exact hx

theorem roundMag_zero_left (den : Nat) (hd : 0 < den) : roundMag 0 den = 0 :=
  roundMag_exact hd (by rw [unitsOfBits_zero, Nat.zero_mul]) (by decide)

/-- `roundF` rounds to nearest even in the sense of `RoundsTo`. -/
theorem roundsTo_roundF {neg : Bool} {num den : Nat} (hd : 0 < den) :
    RoundsTo (if neg then -(num : Int) else num) den (roundF neg num den) := by
  have hinf := roundMag_eq_infBits_iff (num := num) hd
  have habs : |(if neg then -(num : Int) else num)| = (num : Int) := by
    cases neg <;> simp
  refine ⟨isNaN_roundF _ _ _, ?_, ?_, ?_⟩
  · rw [habs, isInf_iff, magBits_roundF, hinf]
    obtain ⟨p, h, ep, -, eh, hlt, -⟩ := overflow_powers
    have ep' : (2 : Int) ^ 2098 = p := by exact_mod_cast congrArg (Nat.cast : Nat → Int) ep
    have eh' : (2 : Int) ^ 2044 = h := by exact_mod_cast congrArg (Nat.cast : Nat → Int) eh
    rw [ep, eh, ep', eh']
    rw [← Nat.cast_sub (by omega), ← Nat.cast_mul, Nat.cast_le]
  · intro h
    rw [isInf_iff, magBits_roundF] at h
    rw [signBit_roundF]
    have hpos : 0 < num := by
      rcases Nat.eq_zero_or_pos num with h0 | h0
      · rw [h0, roundMag_zero_left den hd] at h; exact absurd h (by decide)
      · exact h0
    cases neg <;> simp <;> omega
  · intro hfin z _
    rw [isFinite_iff, magBits_roundF] at hfin
    have near := roundMag_nearest hd hfin (magBits z)
    have heven : (roundF neg num den).toNat % 2 = roundMag num den % 2 := by
      have := magBits_roundF neg num den
      unfold magBits at this; omega
    rw [heven]
    change |(num : Int) - den * unitsOfBits (roundMag num den)| ≤ |(num : Int) - den * units z| ∧
      (|(num : Int) - den * unitsOfBits (roundMag num den)| = |(num : Int) - den * units z| →
        units z ≠ unitsOfBits (roundMag num den) → roundMag num den % 2 = 0) at near
    have hR0 : unitsOfBits (roundMag num den) = 0 → roundMag num den % 2 = 0 := by
      intro h
      rw [unitsOfBits_inj.1 (h.trans unitsOfBits_zero.symm)]
    have hn0 : num = 0 → roundMag num den % 2 = 0 := by
      intro h; rw [h, roundMag_zero_left den hd]
    rw [signedUnits_roundF, signedUnits]
    have hdR : 0 < den * unitsOfBits (roundMag num den) ↔ 0 < unitsOfBits (roundMag num den) := by
      constructor
      · intro h; exact Nat.pos_of_mul_pos_left h
      · intro h; exact Nat.mul_pos hd h
    have hRZ : units z = unitsOfBits (roundMag num den) →
        (den : Int) * units z = den * unitsOfBits (roundMag num den) := by
      intro h; rw [h]
    clear hinf heven hfin habs
    generalize roundMag num den % 2 = e at *
    generalize unitsOfBits (roundMag num den) = R at *
    generalize units z = Z at *
    have e1 : (den : Int) * -(R : Int) = -(den * R) := mul_neg _ _
    have e2 : (den : Int) * -(Z : Int) = -(den * Z) := mul_neg _ _
    have pR : (0 : Int) ≤ den * R := by positivity
    have pZ : (0 : Int) ≤ den * Z := by positivity
    have hdR' : (0 : Int) < den * R ↔ 0 < R := by exact_mod_cast hdR
    simp only [Int.abs_eq_natAbs] at near ⊢
    cases neg <;> cases signBit z <;>
      simp only [Bool.false_eq_true, if_false, if_true, e1, e2] at near ⊢ <;>
      generalize (den : Int) * R = B at * <;> generalize (den : Int) * Z = C at * <;>
      refine ⟨by omega, fun h h' => ?_⟩ <;> by_cases hh : Z = R <;> omega

/-! ## Arithmetic on finite operands -/

theorem oneUnits_def : oneUnits = 2 ^ 1074 := by delta oneUnits; rfl

theorem fAdd_finite {a b : F} (ha : isFinite a = true) (hb : isFinite b = true) :
    fAdd a b = roundUnits (signBit a && signBit b) (signedUnits a + signedUnits b) := by
  simp [fAdd, addAs, isNaN_of_isFinite ha, isNaN_of_isFinite hb, isInf_of_isFinite ha, isInf_of_isFinite hb]

theorem fSub_finite {a b : F} (ha : isFinite a = true) (hb : isFinite b = true) :
    fSub a b = roundUnits (signBit a && !signBit b) (signedUnits a - signedUnits b) := by
  simp [fSub, addAs, isNaN_of_isFinite ha, isNaN_of_isFinite hb, isInf_of_isFinite ha, isInf_of_isFinite hb,
    Int.sub_eq_add_neg]

theorem fMul_finite {a b : F} (ha : isFinite a = true) (hb : isFinite b = true) :
    fMul a b = roundF (signBit a ^^ signBit b) (units a * units b) oneUnits := by
  simp [fMul, isNaN_of_isFinite ha, isNaN_of_isFinite hb, isInf_of_isFinite ha, isInf_of_isFinite hb]

theorem fDiv_finite {a b : F} (ha : isFinite a = true) (hb : isFinite b = true) (hz : isZero b = false) :
    fDiv a b = roundF (signBit a ^^ signBit b) (units a * oneUnits) (units b) := by
  simp [fDiv, isNaN_of_isFinite ha, isNaN_of_isFinite hb, isInf_of_isFinite ha, isInf_of_isFinite hb, hz]

theorem packF_zero_isZero (neg : Bool) : isZero (packF neg 0) = true := by cases neg <;> decide

theorem isNaN_roundUnits (z : Bool) (t : Int) : isNaN (roundUnits z t) = false := by
  unfold roundUnits; split
  · exact isNaN_of_isFinite (isFinite_of_isZero (packF_zero_isZero z))
  · exact isNaN_roundF _ _ _

theorem packF_zero_eq_roundF (z : Bool) : packF z 0 = roundF z 0 1 := by
  rw [roundF, roundMag_zero_left 1 (by norm_num)]

theorem roundUnits_eq (z : Bool) (t : Int) :
    roundUnits z t = roundF (if t = 0 then z else decide (t < 0)) t.natAbs 1 := by
  unfold roundUnits; split
  · next h => rw [h]; exact packF_zero_eq_roundF z
  · rfl

theorem roundsTo_roundUnits (z : Bool) (t : Int) : RoundsTo t 1 (roundUnits z t) := by
  rw [roundUnits_eq]
  have h := roundsTo_roundF (neg := if t = 0 then z else decide (t < 0)) (num := t.natAbs) (den := 1) (by norm_num)
  have e : (if (if t = 0 then z else decide (t < 0)) = true then -(t.natAbs : Int) else t.natAbs) = t := by
    by_cases h0 : t = 0
    · subst h0; simp
    · by_cases h1 : t < 0
      · simp only [h0, h1, decide_true, if_true, if_false]; omega
      · simp only [h0, h1, decide_false, Bool.false_eq_true, if_false]; omega
  rwa [e] at h

theorem signBit_roundUnits (z : Bool) (t : Int) :
    signBit (roundUnits z t) = if t = 0 then z else decide (t < 0) := by
  rw [roundUnits_eq, signBit_roundF]

theorem roundUnits_exact {x : F} {z : Bool} {t : Int} (hx : isNaN x = false) (h : signedUnits x = t)
    (hs : t = 0 → signBit x = z) : roundUnits z t = x := by
  rw [roundUnits_eq]
  refine roundF_exact (by norm_num) ?_ hx (by rw [← h, natAbs_signedUnits, Nat.mul_one])
  split
  · next h0 => exact hs h0
  · next h0 =>
    have hz : isZero x = false := by
      rw [← h, signedUnits_eq_zero] at h0; simpa using h0
    rw [← h]
    have := signedUnits_neg_iff hz
    by_cases hh : signBit x = true <;> simp_all

/-- Every integer of magnitude below `2^53` has an encoding. -/
theorem exists_bits_of_nat {n : Nat} (h : n < 2 ^ 53) : ∃ m, m < infBits ∧ unitsOfBits m = n * oneUnits := by
  rcases Nat.eq_zero_or_pos n with h0 | hpos
  · exact ⟨0, by decide, by rw [h0, unitsOfBits_zero, Nat.zero_mul]⟩
  · have hlo : 2 ^ n.log2 ≤ n := Nat.log2_self_le (by omega)
    have hhi : n < 2 ^ (n.log2 + 1) := Nat.lt_log2_self
    have hj : n.log2 ≤ 52 := by
      by_contra hc
      have : 2 ^ 53 ≤ 2 ^ n.log2 := Nat.pow_le_pow_right (by norm_num) (by omega)
      omega
    set j := n.log2
    have e1 : (2 : Nat) ^ j * 2 ^ (52 - j) = 2 ^ 52 := by rw [← pow_add]; congr 1; omega
    have e2 : (2 : Nat) ^ (j + 1) * 2 ^ (52 - j) = 2 ^ 53 := by rw [← pow_add]; congr 1; omega
    have l1 : 2 ^ 52 ≤ n * 2 ^ (52 - j) := e1 ▸ Nat.mul_le_mul_right _ hlo
    have l2 : n * 2 ^ (52 - j) < 2 ^ 53 := e2 ▸ Nat.mul_lt_mul_of_pos_right hhi (by positivity)
    have s := unitsOfBits_scaled (k := 1022 + j) (m := n * 2 ^ (52 - j)) ⟨.inr l1, l2.le⟩
    refine ⟨_, ?_, s.trans ?_⟩
    · have : infBits = 2046 * 2 ^ 52 + 2 ^ 52 := by decide
      rw [this]; omega
    · rw [Nat.mul_assoc, ← pow_add, show 52 - j + (1022 + j) = 1074 by omega, oneUnits_def]

theorem i2f_spec {n : Int} (h : n.natAbs < 2 ^ 53) :
    isFinite (i2f n) = true ∧ signedUnits (i2f n) = n * oneUnits ∧ signBit (i2f n) = decide (n < 0) := by
  obtain ⟨m, hm, hu⟩ := exists_bits_of_nat h
  have hm' := hm.trans infBits_lt
  have e : i2f n = packF (decide (n < 0)) m := by
    refine roundUnits_exact ?_ ?_ ?_
    · apply isNaN_of_isFinite; rw [isFinite_iff, magBits_packF hm']; exact hm
    · rw [signedUnits_packF hm', hu]
      by_cases h0 : n < 0
      · simp only [h0, decide_true, if_true]
        rw [Nat.cast_mul, show (n.natAbs : Int) = -n by omega]; ring
      · simp only [h0, decide_false, Bool.false_eq_true, if_false]
        rw [Nat.cast_mul, show (n.natAbs : Int) = n by omega]
    · intro h0
      rw [signBit_packF hm']
      have := oneUnits_pos
      rcases mul_eq_zero.1 h0 with h1 | h1
      · subst h1; rfl
      · exfalso; omega
  rw [e]
  refine ⟨?_, ?_, signBit_packF hm'⟩
  · rw [isFinite_iff, magBits_packF hm']; exact hm
  · rw [signedUnits_packF hm', hu]
    by_cases h0 : n < 0
    · simp only [h0, decide_true, if_true]
      rw [Nat.cast_mul, show (n.natAbs : Int) = -n by omega]; ring
    · simp only [h0, decide_false, Bool.false_eq_true, if_false]
      rw [Nat.cast_mul, show (n.natAbs : Int) = n by omega]


/-! ## Truncation -/

theorem f2i32_of_not_isNaN {y : F} (h : isNaN y = false) :
    (f2i32 y).toInt = max (-2 ^ 31) (min ((signedUnits y).tdiv oneUnits) (2 ^ 31 - 1)) := by
  unfold f2i32
  rw [h, if_neg (by simp)]
  rw [BitVec.toInt_ofInt]
  generalize (signedUnits y).tdiv oneUnits = t
  rw [Int.bmod_eq_of_le] <;> omega

theorem cast_two_pow (k : Nat) : (((2 : Nat) ^ k : Nat) : Int) = 2 ^ k := by push_cast; rfl

theorem signedUnits_isInf {y : F} (h : isInf y = true) :
    signedUnits y = if signBit y then -(2 ^ 2098 : Int) else 2 ^ 2098 := by
  rw [isInf_iff] at h
  rw [signedUnits, units, h, unitsOfBits_infBits, cast_two_pow]

theorem f2i32_i2f (x : Sample) : f2i32 (i2f x.toInt) = x := by
  have hx := x.toInt_lt
  have hx' := x.le_toInt
  have h := i2f_spec (n := x.toInt) (by omega)
  apply BitVec.eq_of_toInt_eq
  rw [f2i32_of_not_isNaN (isNaN_of_isFinite h.1), h.2.1, Int.mul_tdiv_cancel _ (by have := oneUnits_pos; omega)]
  clear h; omega

/-- Truncation does not see the sign of a zero: it depends on the value only. -/
theorem f2i32_congr {x y : F} (hx : isNaN x = false) (hy : isNaN y = false) (h : signedUnits x = signedUnits y) :
    f2i32 x = f2i32 y := by
  apply BitVec.eq_of_toInt_eq
  rw [f2i32_of_not_isNaN hx, f2i32_of_not_isNaN hy, h]

/-! ## The phase wrap -/

/-- A number of 53 bits times a power of two is a number of units some encoding has. -/
theorem exists_bits_of_scaled {n : Nat} (k : Nat) (h : n < 2 ^ 53) : ∃ m, unitsOfBits m = n * 2 ^ k := by
  rcases Nat.eq_zero_or_pos n with h0 | hpos
  · exact ⟨0, by rw [h0, unitsOfBits_zero, Nat.zero_mul]⟩
  have hlo : 2 ^ n.log2 ≤ n := Nat.log2_self_le (by omega)
  have hhi : n < 2 ^ (n.log2 + 1) := Nat.lt_log2_self
  have hj : n.log2 ≤ 52 := by
    by_contra hc
    have : 2 ^ 53 ≤ 2 ^ n.log2 := Nat.pow_le_pow_right (by norm_num) (by omega)
    omega
  generalize n.log2 = j at *
  rcases Nat.lt_or_ge k (52 - j) with hk | hk
  · have l2 : n * 2 ^ k < 2 ^ 53 := by
      calc n * 2 ^ k < 2 ^ (j + 1) * 2 ^ k := Nat.mul_lt_mul_of_pos_right hhi (by positivity)
        _ = 2 ^ (j + 1 + k) := by rw [← pow_add]
        _ ≤ 2 ^ 53 := Nat.pow_le_pow_right (by norm_num) (by omega)
    have s := unitsOfBits_scaled (k := 0) (m := n * 2 ^ k) ⟨.inl rfl, l2.le⟩
    exact ⟨_, by rw [s, pow_zero, Nat.mul_one]⟩
  · have e1 : (2 : Nat) ^ j * 2 ^ (52 - j) = 2 ^ 52 := by rw [← pow_add]; congr 1; omega
    have e2 : (2 : Nat) ^ (j + 1) * 2 ^ (52 - j) = 2 ^ 53 := by rw [← pow_add]; congr 1; omega
    have l1 : 2 ^ 52 ≤ n * 2 ^ (52 - j) := e1 ▸ Nat.mul_le_mul_right _ hlo
    have l2 : n * 2 ^ (52 - j) < 2 ^ 53 := e2 ▸ Nat.mul_lt_mul_of_pos_right hhi (by positivity)
    have s := unitsOfBits_scaled (k := k - (52 - j)) (m := n * 2 ^ (52 - j)) ⟨.inr l1, l2.le⟩
    refine ⟨_, s.trans ?_⟩
    rw [Nat.mul_assoc, ← pow_add]
    congr 2; omega

/-- Every encoding has a number of units of 53 bits times a power of two. -/
theorem scaled_of_bits (m : Nat) : ∃ n k, n < 2 ^ 53 ∧ unitsOfBits m = n * 2 ^ k := by
  unfold unitsOfBits; split
  · exact ⟨m, 0, by omega, by rw [pow_zero, Nat.mul_one]⟩
  · exact ⟨_, _, by omega, rfl⟩

/-- The remainder of two representable magnitudes is representable. -/
theorem exists_bits_mod (a b : Nat) : ∃ m, unitsOfBits m = unitsOfBits a % unitsOfBits b := by
  obtain ⟨n, k, hn, ha⟩ := scaled_of_bits a
  obtain ⟨n', k', hn', hb⟩ := scaled_of_bits b
  rw [ha, hb]
  rcases Nat.eq_zero_or_pos n' with h0 | hpos
  · rw [h0, Nat.zero_mul, Nat.mod_zero]; exact exists_bits_of_scaled k hn
  rcases Nat.le_total k k' with h | h
  · obtain ⟨c, rfl⟩ := Nat.exists_eq_add_of_le h
    have e : n * 2 ^ k % (n' * 2 ^ (k + c)) = n % (n' * 2 ^ c) * 2 ^ k := by
      rw [pow_add, show n' * (2 ^ k * 2 ^ c) = n' * 2 ^ c * 2 ^ k by ring, Nat.mul_mod_mul_right]
    rw [e]
    exact exists_bits_of_scaled k ((Nat.mod_le _ _).trans_lt hn)
  · obtain ⟨c, rfl⟩ := Nat.exists_eq_add_of_le h
    have e : n * 2 ^ (k' + c) % (n' * 2 ^ k') = n * 2 ^ c % n' * 2 ^ k' := by
      rw [pow_add, show n * (2 ^ k' * 2 ^ c) = n * 2 ^ c * 2 ^ k' by ring, Nat.mul_mod_mul_right]
    rw [e]
    exact exists_bits_of_scaled k' ((Nat.mod_lt _ hpos).trans hn')

theorem magBits_F_1 : magBits F_1 = 1022 * 2 ^ 52 + 2 ^ 52 := by decide

theorem units_F_1 : units F_1 = oneUnits := by
  have h := unitsOfBits_scaled (k := 1022) (m := 2 ^ 52) ⟨.inr le_rfl, by norm_num⟩
  rw [← pow_add] at h
  rw [units, magBits_F_1, h, oneUnits_def]

theorem magBits_TWO_PI : magBits TWO_PI = 0x401921FB54442D18 := by decide
theorem magBits_TWO_PI_lt : magBits TWO_PI < infBits := by decide
theorem isFinite_TWO_PI : isFinite TWO_PI = true := by decide
theorem signBit_TWO_PI : signBit TWO_PI = false := by decide
theorem units_TWO_PI_pos : 0 < units TWO_PI := by
  rcases Nat.eq_zero_or_pos (units TWO_PI) with h | h
  · exact absurd (units_eq_zero.1 h) (by decide)
  · exact h

theorem signedUnits_of_signBit_false {x : F} (h : signBit x = false) : signedUnits x = units x := by
  simp [signedUnits, h]
theorem signedUnits_F_0 : signedUnits F_0 = 0 := signedUnits_eq_zero.2 (by decide)

/-- `fmod` by `TWO_PI` is exact. -/
theorem fmodTwoPi_spec {x : F} (hx : isFinite x = true) :
    isFinite (fmodTwoPi x) = true ∧ units (fmodTwoPi x) = units x % units TWO_PI ∧
      signBit (fmodTwoPi x) = signBit x := by
  obtain ⟨m, hm⟩ := exists_bits_mod (magBits x) (magBits TWO_PI)
  have hlt : m < magBits TWO_PI := by
    rw [← unitsOfBits_lt, hm]; exact Nat.mod_lt _ units_TWO_PI_pos
  have hI : m < infBits := hlt.trans magBits_TWO_PI_lt
  have e : roundMag (units x % units TWO_PI) 1 = m := roundMag_exact (by norm_num) (by rw [hm, Nat.mul_one]; rfl) hI.le
  refine ⟨?_, ?_, signBit_roundF _ _ _⟩
  · rw [fmodTwoPi, isFinite_iff, magBits_roundF, e]; exact hI
  · rw [units, fmodTwoPi, magBits_roundF, e, hm]; rfl

/-- A phase after `WRAP`: finite, sign bit 0, encoded below `TWO_PI`. -/
theorem fWrap_spec {x : F} (hx : isFinite x = true) :
    signBit (fWrap x) = false ∧ magBits (fWrap x) < magBits TWO_PI := by
  obtain ⟨hf, hu, hs⟩ := fmodTwoPi_spec hx
  have hn := isNaN_of_isFinite hf
  have hlt : units (fmodTwoPi x) < units TWO_PI := by
    rw [hu]; exact Nat.mod_lt _ units_TWO_PI_pos
  have zero : signBit F_0 = false ∧ magBits F_0 < magBits TWO_PI := by decide
  unfold fWrap
  rw [hx]
  simp only [Bool.not_true, Bool.false_eq_true, if_false]
  generalize fmodTwoPi x = r at *
  split
  · exact zero
  · next hne =>
    split
    · next h =>
      rw [fLt_iff (by decide) hn, signedUnits_F_0] at h
      refine ⟨?_, unitsOfBits_lt.1 hlt⟩
      by_contra hc
      rw [Bool.not_eq_false] at hc
      rw [signedUnits, hc, if_pos rfl] at h; omega
    · next h =>
      split
      · next h2 =>
        rw [fEq_iff hn (by decide), signedUnits_F_0] at hne
        rw [fLt_iff (by decide) hn, signedUnits_F_0] at h
        have e := fAdd_finite hf isFinite_TWO_PI
        have hneg : signBit r = true := by
          by_contra hc
          rw [Bool.not_eq_true] at hc
          rw [signedUnits_of_signBit_false hc] at h hne; omega
        have hpos : 0 < signedUnits r + signedUnits TWO_PI := by
          rw [signedUnits_of_signBit_false signBit_TWO_PI, signedUnits, hneg, if_pos rfl]; omega
        have hsb : signBit (fAdd r TWO_PI) = false := by
          rw [e, signBit_roundUnits, if_neg (by omega)]; simp; omega
        refine ⟨hsb, ?_⟩
        have h3 := (fLt_iff (not_isNaN_of_fLt h2).1 (not_isNaN_of_fLt h2).2).1 h2
        rw [signedUnits_of_signBit_false hsb, signedUnits_of_signBit_false signBit_TWO_PI] at h3
        exact unitsOfBits_lt.1 (by exact_mod_cast h3)
      · exact zero

theorem isFinite_of_magBits_lt {x : F} (h : magBits x < magBits TWO_PI) : isFinite x = true :=
  isFinite_iff.2 (h.trans magBits_TWO_PI_lt)

theorem fWrap_isFinite {x : F} (hx : isFinite x = true) : isFinite (fWrap x) = true :=
  isFinite_of_magBits_lt (fWrap_spec hx).2

theorem fWrap_of_not_isFinite {x : F} (hx : isFinite x = false) : isNaN (fWrap x) = true := by
  simp [fWrap, hx]

theorem fLe_zero_of_signBit {x : F} (hn : isNaN x = false) (h : signBit x = false) : fLe F_0 x = true := by
  rw [fLe_iff (by decide) hn, signedUnits_F_0, signedUnits_of_signBit_false h]; omega

theorem fLt_TWO_PI {x : F} (hs : signBit x = false) (h : magBits x < magBits TWO_PI) : fLt x TWO_PI = true := by
  rw [fLt_iff (isNaN_of_isFinite (isFinite_of_magBits_lt h)) (by decide), signedUnits_of_signBit_false hs,
    signedUnits_of_signBit_false signBit_TWO_PI]
  exact_mod_cast unitsOfBits_lt.2 h

/-- `WRAP` leaves a phase in range as it is. -/
theorem fWrap_id {x : F} (hs : signBit x = false) (h : magBits x < magBits TWO_PI) : fWrap x = x := by
  have hx := isFinite_of_magBits_lt h
  have hn := isNaN_of_isFinite hx
  obtain ⟨hf, hu, hs'⟩ := fmodTwoPi_spec hx
  have hr : fmodTwoPi x = x := by
    refine eq_of_sign_mag hs' ?_
    rw [← unitsOfBits_inj]
    exact hu.trans (Nat.mod_eq_of_lt (unitsOfBits_lt.2 h))
  unfold fWrap
  rw [hx, hr]
  simp only [Bool.not_true, Bool.false_eq_true, if_false]
  split
  · next h0 =>
    rw [fEq_iff hn (by decide), signedUnits_F_0, signedUnits_eq_zero, isZero_iff] at h0
    exact eq_of_sign_mag (by rw [hs]; decide) (by rw [h0]; decide)
  · next h0 =>
    rw [if_pos]
    rw [fEq_iff hn (by decide), signedUnits_F_0] at h0
    rw [fLt_iff (by decide) hn, signedUnits_F_0]
    rw [signedUnits_of_signBit_false hs] at *; omega

/-! ## Lengths -/

theorem units_pos_of_fLt {t : F} (h : fLt F_0 t = true) : 0 < units t ∧ signBit t = false := by
  have h' := (fLt_iff (not_isNaN_of_fLt h).1 (not_isNaN_of_fLt h).2).1 h
  rw [signedUnits_F_0] at h'
  have hs : signBit t = false := by
    by_contra hc
    rw [Bool.not_eq_false] at hc
    rw [signedUnits, hc, if_pos rfl] at h'; omega
  exact ⟨by rw [signedUnits_of_signBit_false hs] at h'; omega, hs⟩

theorem i2f_nat {n : Nat} (h : n < 2 ^ 53) :
    isFinite (i2f n) = true ∧ signBit (i2f n) = false ∧ units (i2f n) = n * oneUnits := by
  obtain ⟨h1, h2, h3⟩ := i2f_spec (n := n) (by omega)
  have hs : signBit (i2f n) = false := by rw [h3]; simp
  refine ⟨h1, hs, ?_⟩
  rw [signedUnits_of_signBit_false hs] at h2
  exact_mod_cast h2

/-! ## Magnitudes of results -/

/-- A product is monotone in the magnitudes of its factors. -/
theorem fMul_le {a b A B : F} (ha : isFinite a = true) (hb : isFinite b = true) (hA : isFinite A = true)
    (hB : isFinite B = true) (h1 : magBits a ≤ magBits A) (h2 : magBits b ≤ magBits B) : magBits (fMul a b) ≤ magBits (fMul A B) := by
  rw [fMul_finite ha hb, fMul_finite hA hB, magBits_roundF, magBits_roundF]
  refine roundMag_mono oneUnits_pos oneUnits_pos (Nat.mul_le_mul_right _ (Nat.mul_le_mul (unitsOfBits_le.2 h1) (unitsOfBits_le.2 h2)))

/-- A sum is bounded by the sum of the bounds on the magnitudes of its terms. -/
theorem fAdd_le {a b A B : F} (ha : isFinite a = true) (hb : isFinite b = true) (hA : isFinite A = true)
    (hB : isFinite B = true) (sA : signBit A = false) (sB : signBit B = false)
    (h1 : magBits a ≤ magBits A) (h2 : magBits b ≤ magBits B) : magBits (fAdd a b) ≤ magBits (fAdd A B) := by
  rw [fAdd_finite ha hb, fAdd_finite hA hB, roundUnits_eq, roundUnits_eq, magBits_roundF, magBits_roundF]
  refine roundMag_mono (by norm_num) (by norm_num) (Nat.mul_le_mul_right _ ?_)
  have e1 := unitsOfBits_le.2 h1
  have e2 := unitsOfBits_le.2 h2
  change units a ≤ units A at e1
  change units b ≤ units B at e2
  rw [signedUnits_of_signBit_false sA, signedUnits_of_signBit_false sB]
  have := natAbs_signedUnits a
  have := natAbs_signedUnits b
  omega

/-- dividing by a value of magnitude at least 1 -/
theorem fDiv_le {a b A : F} (ha : isFinite a = true) (hb : isFinite b = true) (h1 : magBits a ≤ magBits A) (hA : isFinite A = true)
   (hb1 : oneUnits ≤ units b) : magBits (fDiv a b) ≤ magBits A := by
  have hz : isZero b = false := by
    by_contra hc
    rw [Bool.not_eq_false, ← units_eq_zero] at hc
    have := oneUnits_pos; omega
  rw [fDiv_finite ha hb hz, magBits_roundF]
  refine roundMag_le_of_le (by have := oneUnits_pos; omega) ?_ (isFinite_iff.1 hA).le
  exact Nat.mul_le_mul (unitsOfBits_le.2 h1) hb1

theorem isFinite_of_le {a A : F} (hA : isFinite A = true) (h : magBits a ≤ magBits A) : isFinite a = true :=
  isFinite_iff.2 (h.trans_lt (isFinite_iff.1 hA))

theorem magBits_le_of_inRange {x A : F} (hA : isNaN A = false) (sA : signBit A = false) (h : InRange (fNeg A) A x) : magBits x ≤ magBits A := by
  obtain ⟨h0, h1, h2⟩ := h
  have hx := isNaN_of_isFinite h0
  rw [fLe_iff (by simpa) hx, signedUnits_fNeg] at h1
  rw [fLe_iff hx hA] at h2
  rw [signedUnits_of_signBit_false sA] at h1 h2
  have := natAbs_signedUnits x
  rw [← unitsOfBits_le]
  change units x ≤ units A
  omega
theorem magBits_le_of_inRange_zero {x A : F} (hA : isNaN A = false) (sA : signBit A = false) (h : InRange F_0 A x) : magBits x ≤ magBits A := by
  obtain ⟨h0, h1, h2⟩ := h
  have hx := isNaN_of_isFinite h0
  rw [fLe_iff (by decide) hx, signedUnits_F_0] at h1
  rw [fLe_iff hx hA, signedUnits_of_signBit_false sA] at h2
  have := natAbs_signedUnits x
  rw [← unitsOfBits_le]
  change units x ≤ units A
  omega

theorem isZero_fMul {a b : F} (ha : isFinite a = true) (hb : isFinite b = true) (h : isZero a = true ∨ isZero b = true) : isZero (fMul a b) = true := by
  rw [fMul_finite ha hb, isZero_iff, magBits_roundF]
  have : units a * units b = 0 := by rcases h with h | h <;> simp [units_eq_zero.2 h]
  rw [this, roundMag_zero_left _ oneUnits_pos]

/-- Adding a zero keeps the value. -/
theorem fAdd_zero {a b : F} (ha : isFinite a = true) (hb : isZero b = true) : isFinite (fAdd a b) = true ∧ signedUnits (fAdd a b) = signedUnits a := by
  have hb' := isFinite_of_isZero hb
  have e := fAdd_finite ha hb'
  rw [signedUnits_eq_zero.2 hb, add_zero] at e
  by_cases h0 : signedUnits a = 0
  · rw [e, h0]
    have : roundUnits (signBit a && signBit b) 0 = packF (signBit a && signBit b) 0 := by simp [roundUnits]
    rw [this]
    exact ⟨isFinite_of_isZero (packF_zero_isZero _), signedUnits_eq_zero.2 (packF_zero_isZero _)⟩
  · have : roundUnits (signBit a && signBit b) (signedUnits a) = a := roundUnits_exact (isNaN_of_isFinite ha) rfl (fun h => absurd h h0)
    rw [e, this]; exact ⟨ha, rfl⟩

theorem isZero_fDiv {a b : F} (ha : isZero a = true) (hb : isFinite b = true) (hz : isZero b = false) : isZero (fDiv a b) = true := by
  rw [fDiv_finite (isFinite_of_isZero ha) hb hz, isZero_iff, magBits_roundF, units_eq_zero.2 ha, Nat.zero_mul]
  refine roundMag_zero_left _ ?_
  rcases Nat.eq_zero_or_pos (units b) with h | h
  · rw [units_eq_zero.1 h] at hz; cases hz
  · exact h

end Sys2Proof.Laws
end

