-- ==== Sys2Proof/Laws/Memory.lean ====
section
/-! SUPPORT. Memories of elements (`20_memory.md` R80, R81): reading after writing, the canonical form, the memory of a
sequence, and reading a sequence. -/

namespace Sys2Proof.Laws
open Sys2Proof.Machine

variable {w : Nat}

@[simp] theorem memRead_nil (i : Nat) : memRead ([] : Mem w) i = none := rfl

/-- A read at the written index gives the written element. -/
@[simp] theorem memRead_memWrite_same (m : Mem w) (i : Nat) (v : BitVec w) :
    memRead (memWrite m i v) i = some v := by
  induction m with
  | nil => simp [memWrite, memRead]
  | cons p m ih =>
    obtain ⟨j, u⟩ := p
    simp only [memWrite]
    split
    · simp [memRead]
    · split
      · simp [memRead]
      · next h => simpa [memRead, h] using ih

/-- A write leaves every other element alone. -/
theorem memRead_memWrite_other (m : Mem w) {i k : Nat} (v : BitVec w) (h : k ≠ i) :
    memRead (memWrite m i v) k = memRead m k := by
  induction m with
  | nil => simp [memWrite, memRead, h]
  | cons p m ih =>
    obtain ⟨j, u⟩ := p
    simp only [memWrite]
    split
    · simp [memRead, h]
    · split
      · next hj => subst hj; simp [memRead, h]
      · simp [memRead, ih]

theorem memRead_memWrite (m : Mem w) (i k : Nat) (v : BitVec w) :
    memRead (memWrite m i v) k = if k = i then some v else memRead m k := by
  split
  · next h => rw [h, memRead_memWrite_same]
  · next h => exact memRead_memWrite_other m v h

theorem mem_memWrite {m : Mem w} {i : Nat} {v : BitVec w} {p : Nat × BitVec w} (h : p ∈ memWrite m i v) :
    p = (i, v) ∨ p ∈ m := by
  induction m with
  | nil => exact .inl (by simpa [memWrite] using h)
  | cons q m ih =>
    simp only [memWrite] at h
    split at h
    · simpa using h
    · split at h
      · rcases List.mem_cons.1 h with h | h
        · exact .inl h
        · exact .inr (List.mem_cons_of_mem _ h)
      · rcases List.mem_cons.1 h with h | h
        · exact .inr (h ▸ List.mem_cons_self)
        · exact (ih h).imp id (List.mem_cons_of_mem _)

/-- A write keeps the canonical form. -/
theorem memWrite_wf {m : Mem w} (h : m.wf) (i : Nat) (v : BitVec w) : (memWrite m i v).wf := by
  induction m with
  | nil => simp [memWrite, Mem.wf]
  | cons q m ih =>
    obtain ⟨hq, hm⟩ := List.pairwise_cons.1 h
    simp only [memWrite]
    split
    · next hlt =>
      refine List.pairwise_cons.2 ⟨fun p hp => ?_, h⟩
      rcases List.mem_cons.1 hp with rfl | hp
      · exact hlt
      · exact hlt.trans (hq p hp)
    · split
      · next he => exact List.pairwise_cons.2 ⟨fun p hp => he ▸ hq p hp, hm⟩
      · next h1 h2 =>
        refine List.pairwise_cons.2 ⟨fun p hp => ?_, ih hm⟩
        rcases mem_memWrite hp with rfl | hp
        · show q.1 < i; omega
        · exact hq p hp

/-- In canonical form, a listed pair is what a read gives. -/
theorem memRead_of_mem {m : Mem w} (h : m.wf) {i : Nat} {v : BitVec w} (hp : (i, v) ∈ m) : memRead m i = some v := by
  induction m with
  | nil => cases hp
  | cons q m ih =>
    obtain ⟨hq, hm⟩ := List.pairwise_cons.1 h
    rcases List.mem_cons.1 hp with rfl | hp
    · simp [memRead]
    · have : q.1 < i := hq _ hp
      simp only [memRead]
      rw [if_neg (by omega)]
      exact ih hm hp

theorem mem_of_memRead {m : Mem w} {i : Nat} {v : BitVec w} (h : memRead m i = some v) : (i, v) ∈ m := by
  induction m with
  | nil => cases h
  | cons q m ih =>
    simp only [memRead] at h
    split at h
    · next hi => cases h; subst hi; exact List.mem_cons_self
    · exact List.mem_cons_of_mem _ (ih h)

/-! ## The memory of a sequence -/

theorem memRead_memOfListFrom (vs : List (BitVec w)) (start i : Nat) :
    memRead (memOfListFrom start vs) i = if start ≤ i then vs[i - start]? else none := by
  induction vs generalizing start with
  | nil => simp [memOfListFrom]
  | cons v vs ih =>
    simp only [memOfListFrom, memRead, ih]
    split
    · next h => subst h; simp
    · next h =>
      by_cases hs : start ≤ i
      · rw [if_pos hs, if_pos (by omega), show i - start = i - (start + 1) + 1 by omega]; rfl
      · rw [if_neg hs, if_neg (by omega)]

/-- The element at `i` of the memory of a sequence is the sequence's, and there is no other. -/
@[simp] theorem memRead_memOfList (vs : List (BitVec w)) (i : Nat) : memRead (memOfList vs) i = vs[i]? := by
  rw [memOfList, memRead_memOfListFrom]; simp

theorem memOfListFrom_map_fst (vs : List (BitVec w)) (start : Nat) :
    (memOfListFrom start vs).map Prod.fst = List.range' start vs.length := by
  induction vs generalizing start with
  | nil => rfl
  | cons v vs ih => simp [memOfListFrom, ih, List.range'_succ]

/-- The listed indices of the memory of a sequence are those below its length. -/
theorem memOfList_map_fst (vs : List (BitVec w)) : (memOfList vs).map Prod.fst = List.range vs.length := by
  rw [memOfList, memOfListFrom_map_fst, List.range_eq_range']

theorem memOfListFrom_map_snd (vs : List (BitVec w)) (start : Nat) : (memOfListFrom start vs).map Prod.snd = vs := by
  induction vs generalizing start with
  | nil => rfl
  | cons v vs ih => simp [memOfListFrom, ih]

/-- A memory that lists exactly the indices below `n` is in canonical form. -/
theorem wf_of_map_fst {m : Mem w} {n : Nat} (h : m.map Prod.fst = List.range n) : m.wf := by
  have : (m.map Prod.fst).Pairwise (· < ·) := h ▸ List.pairwise_lt_range
  exact List.pairwise_map.1 this

theorem memOfList_wf (vs : List (BitVec w)) : (memOfList vs).wf := wf_of_map_fst (memOfList_map_fst vs)

/-! ## Reading a sequence -/

/-- `readSamples` answers a sequence exactly when every index holds its element. -/
theorem readSamples_eq_ok {m : Mem 32} {is : List Nat} {vs : List Sample} :
    readSamples m is = .ok vs ↔ is.map (memRead m) = vs.map some := by
  induction is generalizing vs with
  | nil => cases vs <;> simp [readSamples]
  | cons i is ih =>
    simp only [readSamples, List.map_cons]
    cases hr : memRead m i with
    | none => cases vs <;> simp
    | some v =>
      cases hs : readSamples m is with
      | error e =>
        have : ∀ vs : List Sample, is.map (memRead m) ≠ vs.map some := fun vs h => by simp [ih.2 h] at hs
        cases vs <;> simp [this]
      | ok ws =>
        have hw := ih.1 hs
        cases vs with
        | nil => simp
        | cons u us =>
          simp only [Except.ok.injEq, List.cons.injEq, List.map_cons, Option.some.injEq, hw]
          constructor
          · rintro ⟨rfl, rfl⟩; exact ⟨rfl, rfl⟩
          · rintro ⟨rfl, h⟩; exact ⟨rfl, List.map_injective_iff.2 (Option.some_injective _) h⟩

/-- `readSamples` answers an error with the first index that holds no specified element. -/
theorem readSamples_eq_error {m : Mem 32} {is : List Nat} {i : Nat} :
    readSamples m is = .error i ↔
      ∃ a b, is = a ++ i :: b ∧ (∀ k ∈ a, (memRead m k).isSome = true) ∧ memRead m i = none := by
  induction is with
  | nil => simp [readSamples]
  | cons j is ih =>
    simp only [readSamples]
    cases hr : memRead m j with
    | none =>
      simp only [Except.error.injEq]
      constructor
      · rintro rfl; exact ⟨[], is, rfl, by simp, hr⟩
      · rintro ⟨a, b, he, ha, hn⟩
        cases a with
        | nil => simpa using (List.cons.inj he).1
        | cons c a =>
          obtain ⟨rfl, -⟩ := List.cons.inj he
          have := ha j List.mem_cons_self
          simp [hr] at this
    | some v =>
      have key : readSamples m is = .error i ↔
          ∃ a b, j :: is = a ++ i :: b ∧ (∀ k ∈ a, (memRead m k).isSome = true) ∧ memRead m i = none := by
        rw [ih]
        constructor
        · rintro ⟨a, b, rfl, ha, hn⟩
          exact ⟨j :: a, b, rfl, by simpa [hr] using ha, hn⟩
        · rintro ⟨a, b, he, ha, hn⟩
          cases a with
          | nil =>
            obtain ⟨rfl, -⟩ := List.cons.inj he
            simp [hr] at hn
          | cons c a =>
            have he' := (List.cons.inj he).2
            exact ⟨a, b, he', fun k hk => ha k (List.mem_cons_of_mem _ hk), hn⟩
      rw [← key]
      cases readSamples m is <;> simp

theorem readSamples_length {m : Mem 32} {is : List Nat} {vs : List Sample} (h : readSamples m is = .ok vs) :
    vs.length = is.length := by
  have := congrArg List.length (readSamples_eq_ok.1 h); simpa using this.symm

/-- Two memories that agree on the indices read give the same answer. -/
theorem readSamples_congr {m m' : Mem 32} {is : List Nat} (h : ∀ i ∈ is, memRead m' i = memRead m i) :
    readSamples m' is = readSamples m is := by
  induction is with
  | nil => rfl
  | cons i is ih =>
    simp only [readSamples, h i List.mem_cons_self, ih (fun k hk => h k (List.mem_cons_of_mem _ hk))]

end Sys2Proof.Laws
end

