-- ==== Sys2Proof/Laws/State.lean ====
section
/-! SUPPORT. One lemma per field per update of the state, so that no proof unfolds a record update. -/

namespace Sys2Proof.Laws
open Sys2Proof.Machine

/-! ## reject -/

@[simp] theorem reject_cmd (r : Rejection) (s : State) : (reject r s).cmd = s.cmd := rfl
@[simp] theorem reject_result (r : Rejection) (s : State) :
    (reject r s).result = resultWord r.code false r.param r.stage := rfl
@[simp] theorem reject_params (r : Rejection) (s : State) : (reject r s).params = s.params := rfl
@[simp] theorem reject_outLen (r : Rejection) (s : State) : (reject r s).outLen = 0 := rfl
@[simp] theorem reject_mtabLen (r : Rejection) (s : State) : (reject r s).mtabLen = s.mtabLen := rfl
@[simp] theorem reject_lfoPhase (r : Rejection) (s : State) : (reject r s).lfoPhase = s.lfoPhase := rfl
@[simp] theorem reject_carrierPhase (r : Rejection) (s : State) : (reject r s).carrierPhase = s.carrierPhase := rfl
@[simp] theorem reject_sigi (r : Rejection) (s : State) : (reject r s).sigi = s.sigi := rfl
@[simp] theorem reject_sigo (r : Rejection) (s : State) : (reject r s).sigo = [] := rfl
@[simp] theorem reject_mtab (r : Rejection) (s : State) : (reject r s).mtab = s.mtab := rfl
@[simp] theorem reject_dly (r : Rejection) (s : State) : (reject r s).dly = s.dly := rfl
@[simp] theorem reject_sigoEpoch (r : Rejection) (s : State) : (reject r s).sigoEpoch = s.sigoEpoch + 1 := rfl
@[simp] theorem reject_mtabEpoch (r : Rejection) (s : State) : (reject r s).mtabEpoch = s.mtabEpoch := rfl
@[simp] theorem reject_caps (r : Rejection) (s : State) : (reject r s).caps = s.caps := rfl
@[simp] theorem reject_hostQueue (r : Rejection) (s : State) : (reject r s).hostQueue = s.hostQueue := rfl
@[simp] theorem reject_hostAnswers (r : Rejection) (s : State) : (reject r s).hostAnswers = s.hostAnswers := rfl
@[simp] theorem reject_drawScript (r : Rejection) (s : State) : (reject r s).drawScript = s.drawScript := rfl
@[simp] theorem reject_drawCount (r : Rejection) (s : State) : (reject r s).drawCount = s.drawCount := rfl

/-! ## clearStageTable -/

@[simp] theorem clearStageTable_cmd (s : State) : (clearStageTable s).cmd = s.cmd := rfl
@[simp] theorem clearStageTable_result (s : State) : (clearStageTable s).result = s.result := rfl
@[simp] theorem clearStageTable_params (s : State) : (clearStageTable s).params = s.params := rfl
@[simp] theorem clearStageTable_outLen (s : State) : (clearStageTable s).outLen = s.outLen := rfl
@[simp] theorem clearStageTable_mtabLen (s : State) : (clearStageTable s).mtabLen = 0 := rfl
@[simp] theorem clearStageTable_lfoPhase (s : State) : (clearStageTable s).lfoPhase = s.lfoPhase := rfl
@[simp] theorem clearStageTable_carrierPhase (s : State) : (clearStageTable s).carrierPhase = s.carrierPhase := rfl
@[simp] theorem clearStageTable_sigi (s : State) : (clearStageTable s).sigi = s.sigi := rfl
@[simp] theorem clearStageTable_sigo (s : State) : (clearStageTable s).sigo = s.sigo := rfl
@[simp] theorem clearStageTable_mtab (s : State) : (clearStageTable s).mtab = [] := rfl
@[simp] theorem clearStageTable_dly (s : State) : (clearStageTable s).dly = s.dly := rfl
@[simp] theorem clearStageTable_sigoEpoch (s : State) : (clearStageTable s).sigoEpoch = s.sigoEpoch := rfl
@[simp] theorem clearStageTable_mtabEpoch (s : State) : (clearStageTable s).mtabEpoch = s.mtabEpoch + 1 := rfl
@[simp] theorem clearStageTable_caps (s : State) : (clearStageTable s).caps = s.caps := rfl
@[simp] theorem clearStageTable_hostQueue (s : State) : (clearStageTable s).hostQueue = s.hostQueue := rfl
@[simp] theorem clearStageTable_hostAnswers (s : State) : (clearStageTable s).hostAnswers = s.hostAnswers := rfl
@[simp] theorem clearStageTable_drawScript (s : State) : (clearStageTable s).drawScript = s.drawScript := rfl
@[simp] theorem clearStageTable_drawCount (s : State) : (clearStageTable s).drawCount = s.drawCount := rfl

/-! ## rejectCascade -/

@[simp] theorem rejectCascade_cmd (r : Rejection) (s : State) : (rejectCascade r s).cmd = s.cmd := rfl
@[simp] theorem rejectCascade_result (r : Rejection) (s : State) :
    (rejectCascade r s).result = resultWord r.code false r.param r.stage := rfl
@[simp] theorem rejectCascade_params (r : Rejection) (s : State) : (rejectCascade r s).params = s.params := rfl
@[simp] theorem rejectCascade_outLen (r : Rejection) (s : State) : (rejectCascade r s).outLen = 0 := rfl
@[simp] theorem rejectCascade_mtabLen (r : Rejection) (s : State) : (rejectCascade r s).mtabLen = 0 := rfl
@[simp] theorem rejectCascade_lfoPhase (r : Rejection) (s : State) : (rejectCascade r s).lfoPhase = s.lfoPhase := rfl
@[simp] theorem rejectCascade_carrierPhase (r : Rejection) (s : State) :
    (rejectCascade r s).carrierPhase = s.carrierPhase := rfl
@[simp] theorem rejectCascade_sigi (r : Rejection) (s : State) : (rejectCascade r s).sigi = s.sigi := rfl
@[simp] theorem rejectCascade_sigo (r : Rejection) (s : State) : (rejectCascade r s).sigo = [] := rfl
@[simp] theorem rejectCascade_mtab (r : Rejection) (s : State) : (rejectCascade r s).mtab = [] := rfl
@[simp] theorem rejectCascade_dly (r : Rejection) (s : State) : (rejectCascade r s).dly = s.dly := rfl
@[simp] theorem rejectCascade_sigoEpoch (r : Rejection) (s : State) :
    (rejectCascade r s).sigoEpoch = s.sigoEpoch + 1 := rfl
@[simp] theorem rejectCascade_mtabEpoch (r : Rejection) (s : State) :
    (rejectCascade r s).mtabEpoch = s.mtabEpoch + 1 := rfl
@[simp] theorem rejectCascade_caps (r : Rejection) (s : State) : (rejectCascade r s).caps = s.caps := rfl
@[simp] theorem rejectCascade_hostQueue (r : Rejection) (s : State) :
    (rejectCascade r s).hostQueue = s.hostQueue := rfl
@[simp] theorem rejectCascade_hostAnswers (r : Rejection) (s : State) :
    (rejectCascade r s).hostAnswers = s.hostAnswers := rfl
@[simp] theorem rejectCascade_drawScript (r : Rejection) (s : State) :
    (rejectCascade r s).drawScript = s.drawScript := rfl
@[simp] theorem rejectCascade_drawCount (r : Rejection) (s : State) :
    (rejectCascade r s).drawCount = s.drawCount := rfl

/-! ## setStageTable -/

@[simp] theorem setStageTable_cmd (lens : List Nat) (s : State) : (setStageTable lens s).cmd = s.cmd := rfl
@[simp] theorem setStageTable_result (lens : List Nat) (s : State) : (setStageTable lens s).result = s.result := rfl
@[simp] theorem setStageTable_params (lens : List Nat) (s : State) : (setStageTable lens s).params = s.params := rfl
@[simp] theorem setStageTable_outLen (lens : List Nat) (s : State) : (setStageTable lens s).outLen = s.outLen := rfl
@[simp] theorem setStageTable_mtabLen (lens : List Nat) (s : State) :
    (setStageTable lens s).mtabLen = BitVec.ofNat 32 lens.length := rfl
@[simp] theorem setStageTable_lfoPhase (lens : List Nat) (s : State) :
    (setStageTable lens s).lfoPhase = s.lfoPhase := rfl
@[simp] theorem setStageTable_carrierPhase (lens : List Nat) (s : State) :
    (setStageTable lens s).carrierPhase = s.carrierPhase := rfl
@[simp] theorem setStageTable_sigi (lens : List Nat) (s : State) : (setStageTable lens s).sigi = s.sigi := rfl
@[simp] theorem setStageTable_sigo (lens : List Nat) (s : State) : (setStageTable lens s).sigo = s.sigo := rfl
@[simp] theorem setStageTable_mtab (lens : List Nat) (s : State) :
    (setStageTable lens s).mtab = memOfList (lens.map (BitVec.ofNat 32)) := rfl
@[simp] theorem setStageTable_dly (lens : List Nat) (s : State) : (setStageTable lens s).dly = s.dly := rfl
@[simp] theorem setStageTable_sigoEpoch (lens : List Nat) (s : State) :
    (setStageTable lens s).sigoEpoch = s.sigoEpoch := rfl
@[simp] theorem setStageTable_mtabEpoch (lens : List Nat) (s : State) :
    (setStageTable lens s).mtabEpoch = s.mtabEpoch + 1 := rfl
@[simp] theorem setStageTable_caps (lens : List Nat) (s : State) : (setStageTable lens s).caps = s.caps := rfl
@[simp] theorem setStageTable_hostQueue (lens : List Nat) (s : State) :
    (setStageTable lens s).hostQueue = s.hostQueue := rfl
@[simp] theorem setStageTable_hostAnswers (lens : List Nat) (s : State) :
    (setStageTable lens s).hostAnswers = s.hostAnswers := rfl
@[simp] theorem setStageTable_drawScript (lens : List Nat) (s : State) :
    (setStageTable lens s).drawScript = s.drawScript := rfl
@[simp] theorem setStageTable_drawCount (lens : List Nat) (s : State) :
    (setStageTable lens s).drawCount = s.drawCount := rfl

/-! ## complete -/

@[simp] theorem complete_cmd (out : List Sample) (x : Bool) (s : State) : (complete out x s).cmd = s.cmd := rfl
@[simp] theorem complete_result (out : List Sample) (x : Bool) (s : State) :
    (complete out x s).result = resultWord .ok x 0 0 := rfl
@[simp] theorem complete_params (out : List Sample) (x : Bool) (s : State) :
    (complete out x s).params = s.params := rfl
@[simp] theorem complete_outLen (out : List Sample) (x : Bool) (s : State) :
    (complete out x s).outLen = BitVec.ofNat 32 out.length := rfl
@[simp] theorem complete_mtabLen (out : List Sample) (x : Bool) (s : State) :
    (complete out x s).mtabLen = s.mtabLen := rfl
@[simp] theorem complete_lfoPhase (out : List Sample) (x : Bool) (s : State) :
    (complete out x s).lfoPhase = s.lfoPhase := rfl
@[simp] theorem complete_carrierPhase (out : List Sample) (x : Bool) (s : State) :
    (complete out x s).carrierPhase = s.carrierPhase := rfl
@[simp] theorem complete_sigi (out : List Sample) (x : Bool) (s : State) : (complete out x s).sigi = s.sigi := rfl
@[simp] theorem complete_sigo (out : List Sample) (x : Bool) (s : State) :
    (complete out x s).sigo = memOfList out := rfl
@[simp] theorem complete_mtab (out : List Sample) (x : Bool) (s : State) : (complete out x s).mtab = s.mtab := rfl
@[simp] theorem complete_dly (out : List Sample) (x : Bool) (s : State) : (complete out x s).dly = s.dly := rfl
@[simp] theorem complete_sigoEpoch (out : List Sample) (x : Bool) (s : State) :
    (complete out x s).sigoEpoch = s.sigoEpoch + 1 := rfl
@[simp] theorem complete_mtabEpoch (out : List Sample) (x : Bool) (s : State) :
    (complete out x s).mtabEpoch = s.mtabEpoch := rfl
@[simp] theorem complete_caps (out : List Sample) (x : Bool) (s : State) : (complete out x s).caps = s.caps := rfl
@[simp] theorem complete_hostQueue (out : List Sample) (x : Bool) (s : State) :
    (complete out x s).hostQueue = s.hostQueue := rfl
@[simp] theorem complete_hostAnswers (out : List Sample) (x : Bool) (s : State) :
    (complete out x s).hostAnswers = s.hostAnswers := rfl
@[simp] theorem complete_drawScript (out : List Sample) (x : Bool) (s : State) :
    (complete out x s).drawScript = s.drawScript := rfl
@[simp] theorem complete_drawCount (out : List Sample) (x : Bool) (s : State) :
    (complete out x s).drawCount = s.drawCount := rfl

/-! ## forgetDelays -/

@[simp] theorem forgetDelays_cmd (s : State) : (forgetDelays s).cmd = s.cmd := rfl
@[simp] theorem forgetDelays_result (s : State) : (forgetDelays s).result = s.result := rfl
@[simp] theorem forgetDelays_params (s : State) : (forgetDelays s).params = s.params := rfl
@[simp] theorem forgetDelays_outLen (s : State) : (forgetDelays s).outLen = s.outLen := rfl
@[simp] theorem forgetDelays_mtabLen (s : State) : (forgetDelays s).mtabLen = s.mtabLen := rfl
@[simp] theorem forgetDelays_lfoPhase (s : State) : (forgetDelays s).lfoPhase = s.lfoPhase := rfl
@[simp] theorem forgetDelays_carrierPhase (s : State) : (forgetDelays s).carrierPhase = s.carrierPhase := rfl
@[simp] theorem forgetDelays_sigi (s : State) : (forgetDelays s).sigi = s.sigi := rfl
@[simp] theorem forgetDelays_sigo (s : State) : (forgetDelays s).sigo = s.sigo := rfl
@[simp] theorem forgetDelays_mtab (s : State) : (forgetDelays s).mtab = s.mtab := rfl
@[simp] theorem forgetDelays_dly (s : State) : (forgetDelays s).dly = [] := rfl
@[simp] theorem forgetDelays_sigoEpoch (s : State) : (forgetDelays s).sigoEpoch = s.sigoEpoch := rfl
@[simp] theorem forgetDelays_mtabEpoch (s : State) : (forgetDelays s).mtabEpoch = s.mtabEpoch := rfl
@[simp] theorem forgetDelays_caps (s : State) : (forgetDelays s).caps = s.caps := rfl
@[simp] theorem forgetDelays_hostQueue (s : State) : (forgetDelays s).hostQueue = s.hostQueue := rfl
@[simp] theorem forgetDelays_hostAnswers (s : State) : (forgetDelays s).hostAnswers = s.hostAnswers := rfl
@[simp] theorem forgetDelays_drawScript (s : State) : (forgetDelays s).drawScript = s.drawScript := rfl
@[simp] theorem forgetDelays_drawCount (s : State) : (forgetDelays s).drawCount = s.drawCount := rfl

/-! ## setPhases -/

@[simp] theorem setPhases_cmd (l c : F) (s : State) : (setPhases l c s).cmd = s.cmd := rfl
@[simp] theorem setPhases_result (l c : F) (s : State) : (setPhases l c s).result = s.result := rfl
@[simp] theorem setPhases_params (l c : F) (s : State) : (setPhases l c s).params = s.params := rfl
@[simp] theorem setPhases_outLen (l c : F) (s : State) : (setPhases l c s).outLen = s.outLen := rfl
@[simp] theorem setPhases_mtabLen (l c : F) (s : State) : (setPhases l c s).mtabLen = s.mtabLen := rfl
@[simp] theorem setPhases_lfoPhase (l c : F) (s : State) : (setPhases l c s).lfoPhase = l := rfl
@[simp] theorem setPhases_carrierPhase (l c : F) (s : State) : (setPhases l c s).carrierPhase = c := rfl
@[simp] theorem setPhases_sigi (l c : F) (s : State) : (setPhases l c s).sigi = s.sigi := rfl
@[simp] theorem setPhases_sigo (l c : F) (s : State) : (setPhases l c s).sigo = s.sigo := rfl
@[simp] theorem setPhases_mtab (l c : F) (s : State) : (setPhases l c s).mtab = s.mtab := rfl
@[simp] theorem setPhases_dly (l c : F) (s : State) : (setPhases l c s).dly = s.dly := rfl
@[simp] theorem setPhases_sigoEpoch (l c : F) (s : State) : (setPhases l c s).sigoEpoch = s.sigoEpoch := rfl
@[simp] theorem setPhases_mtabEpoch (l c : F) (s : State) : (setPhases l c s).mtabEpoch = s.mtabEpoch := rfl
@[simp] theorem setPhases_caps (l c : F) (s : State) : (setPhases l c s).caps = s.caps := rfl
@[simp] theorem setPhases_hostQueue (l c : F) (s : State) : (setPhases l c s).hostQueue = s.hostQueue := rfl
@[simp] theorem setPhases_hostAnswers (l c : F) (s : State) : (setPhases l c s).hostAnswers = s.hostAnswers := rfl
@[simp] theorem setPhases_drawScript (l c : F) (s : State) : (setPhases l c s).drawScript = s.drawScript := rfl
@[simp] theorem setPhases_drawCount (l c : F) (s : State) : (setPhases l c s).drawCount = s.drawCount := rfl

/-! ## illegalCommand -/

@[simp] theorem illegalCommand_cmd (s : State) : (illegalCommand s).cmd = s.cmd := rfl
@[simp] theorem illegalCommand_result (s : State) :
    (illegalCommand s).result = resultWord .illegalCommand false 0x00 0 := rfl
@[simp] theorem illegalCommand_params (s : State) : (illegalCommand s).params = s.params := rfl
@[simp] theorem illegalCommand_outLen (s : State) : (illegalCommand s).outLen = 0 := rfl
@[simp] theorem illegalCommand_mtabLen (s : State) : (illegalCommand s).mtabLen = s.mtabLen := rfl
@[simp] theorem illegalCommand_lfoPhase (s : State) : (illegalCommand s).lfoPhase = s.lfoPhase := rfl
@[simp] theorem illegalCommand_carrierPhase (s : State) : (illegalCommand s).carrierPhase = s.carrierPhase := rfl
@[simp] theorem illegalCommand_sigi (s : State) : (illegalCommand s).sigi = s.sigi := rfl
@[simp] theorem illegalCommand_sigo (s : State) : (illegalCommand s).sigo = [] := rfl
@[simp] theorem illegalCommand_mtab (s : State) : (illegalCommand s).mtab = s.mtab := rfl
@[simp] theorem illegalCommand_dly (s : State) : (illegalCommand s).dly = s.dly := rfl
@[simp] theorem illegalCommand_sigoEpoch (s : State) : (illegalCommand s).sigoEpoch = s.sigoEpoch + 1 := rfl
@[simp] theorem illegalCommand_mtabEpoch (s : State) : (illegalCommand s).mtabEpoch = s.mtabEpoch := rfl
@[simp] theorem illegalCommand_caps (s : State) : (illegalCommand s).caps = s.caps := rfl
@[simp] theorem illegalCommand_hostQueue (s : State) : (illegalCommand s).hostQueue = s.hostQueue := rfl
@[simp] theorem illegalCommand_hostAnswers (s : State) : (illegalCommand s).hostAnswers = s.hostAnswers := rfl
@[simp] theorem illegalCommand_drawScript (s : State) : (illegalCommand s).drawScript = s.drawScript := rfl
@[simp] theorem illegalCommand_drawCount (s : State) : (illegalCommand s).drawCount = s.drawCount := rfl

/-! ## regWrite -/

@[simp] theorem regWrite_cmd (r : RegName) (v : BitVec 64) (s : State) : (regWrite r v s).cmd = s.cmd := rfl
@[simp] theorem regWrite_result (r : RegName) (v : BitVec 64) (s : State) : (regWrite r v s).result = s.result := rfl
@[simp] theorem regWrite_params (r : RegName) (v : BitVec 64) (s : State) :
    (regWrite r v s).params = paramWrite r v s.params := rfl
@[simp] theorem regWrite_outLen (r : RegName) (v : BitVec 64) (s : State) : (regWrite r v s).outLen = s.outLen := rfl
@[simp] theorem regWrite_mtabLen (r : RegName) (v : BitVec 64) (s : State) :
    (regWrite r v s).mtabLen = s.mtabLen := rfl
@[simp] theorem regWrite_lfoPhase (r : RegName) (v : BitVec 64) (s : State) :
    (regWrite r v s).lfoPhase = s.lfoPhase := rfl
@[simp] theorem regWrite_carrierPhase (r : RegName) (v : BitVec 64) (s : State) :
    (regWrite r v s).carrierPhase = s.carrierPhase := rfl
@[simp] theorem regWrite_sigi (r : RegName) (v : BitVec 64) (s : State) : (regWrite r v s).sigi = s.sigi := rfl
@[simp] theorem regWrite_sigo (r : RegName) (v : BitVec 64) (s : State) : (regWrite r v s).sigo = s.sigo := rfl
@[simp] theorem regWrite_mtab (r : RegName) (v : BitVec 64) (s : State) : (regWrite r v s).mtab = s.mtab := rfl
@[simp] theorem regWrite_dly (r : RegName) (v : BitVec 64) (s : State) : (regWrite r v s).dly = s.dly := rfl
@[simp] theorem regWrite_sigoEpoch (r : RegName) (v : BitVec 64) (s : State) :
    (regWrite r v s).sigoEpoch = s.sigoEpoch := rfl
@[simp] theorem regWrite_mtabEpoch (r : RegName) (v : BitVec 64) (s : State) :
    (regWrite r v s).mtabEpoch = s.mtabEpoch := rfl
@[simp] theorem regWrite_caps (r : RegName) (v : BitVec 64) (s : State) : (regWrite r v s).caps = s.caps := rfl
@[simp] theorem regWrite_hostQueue (r : RegName) (v : BitVec 64) (s : State) :
    (regWrite r v s).hostQueue = s.hostQueue := rfl
@[simp] theorem regWrite_hostAnswers (r : RegName) (v : BitVec 64) (s : State) :
    (regWrite r v s).hostAnswers = s.hostAnswers := rfl
@[simp] theorem regWrite_drawScript (r : RegName) (v : BitVec 64) (s : State) :
    (regWrite r v s).drawScript = s.drawScript := rfl
@[simp] theorem regWrite_drawCount (r : RegName) (v : BitVec 64) (s : State) :
    (regWrite r v s).drawCount = s.drawCount := rfl

/-! ## hostRead -/

@[simp] theorem hostRead_cmd (sp : HostSpace) (i : Nat) (s : State) : (hostRead sp i s).cmd = s.cmd := rfl
@[simp] theorem hostRead_result (sp : HostSpace) (i : Nat) (s : State) : (hostRead sp i s).result = s.result := rfl
@[simp] theorem hostRead_params (sp : HostSpace) (i : Nat) (s : State) : (hostRead sp i s).params = s.params := rfl
@[simp] theorem hostRead_outLen (sp : HostSpace) (i : Nat) (s : State) : (hostRead sp i s).outLen = s.outLen := rfl
@[simp] theorem hostRead_mtabLen (sp : HostSpace) (i : Nat) (s : State) : (hostRead sp i s).mtabLen = s.mtabLen := rfl
@[simp] theorem hostRead_lfoPhase (sp : HostSpace) (i : Nat) (s : State) :
    (hostRead sp i s).lfoPhase = s.lfoPhase := rfl
@[simp] theorem hostRead_carrierPhase (sp : HostSpace) (i : Nat) (s : State) :
    (hostRead sp i s).carrierPhase = s.carrierPhase := rfl
@[simp] theorem hostRead_sigi (sp : HostSpace) (i : Nat) (s : State) : (hostRead sp i s).sigi = s.sigi := rfl
@[simp] theorem hostRead_sigo (sp : HostSpace) (i : Nat) (s : State) : (hostRead sp i s).sigo = s.sigo := rfl
@[simp] theorem hostRead_mtab (sp : HostSpace) (i : Nat) (s : State) : (hostRead sp i s).mtab = s.mtab := rfl
@[simp] theorem hostRead_dly (sp : HostSpace) (i : Nat) (s : State) : (hostRead sp i s).dly = s.dly := rfl
@[simp] theorem hostRead_sigoEpoch (sp : HostSpace) (i : Nat) (s : State) :
    (hostRead sp i s).sigoEpoch = s.sigoEpoch := rfl
@[simp] theorem hostRead_mtabEpoch (sp : HostSpace) (i : Nat) (s : State) :
    (hostRead sp i s).mtabEpoch = s.mtabEpoch := rfl
@[simp] theorem hostRead_caps (sp : HostSpace) (i : Nat) (s : State) : (hostRead sp i s).caps = s.caps := rfl
@[simp] theorem hostRead_hostQueue (sp : HostSpace) (i : Nat) (s : State) :
    (hostRead sp i s).hostQueue = s.hostQueue := rfl
@[simp] theorem hostRead_hostAnswers (sp : HostSpace) (i : Nat) (s : State) :
    (hostRead sp i s).hostAnswers = hostReadValue sp i s :: s.hostAnswers := rfl
@[simp] theorem hostRead_drawScript (sp : HostSpace) (i : Nat) (s : State) :
    (hostRead sp i s).drawScript = s.drawScript := rfl
@[simp] theorem hostRead_drawCount (sp : HostSpace) (i : Nat) (s : State) :
    (hostRead sp i s).drawCount = s.drawCount := rfl

/-! ## latchCommand -/

@[simp] theorem latchCommand_cmd (v : BitVec 64) (s : State) : (latchCommand v s).cmd = v.setWidth 32 := rfl
@[simp] theorem latchCommand_result (v : BitVec 64) (s : State) : (latchCommand v s).result = s.result := rfl
@[simp] theorem latchCommand_params (v : BitVec 64) (s : State) : (latchCommand v s).params = s.params := rfl
@[simp] theorem latchCommand_outLen (v : BitVec 64) (s : State) : (latchCommand v s).outLen = s.outLen := rfl
@[simp] theorem latchCommand_mtabLen (v : BitVec 64) (s : State) : (latchCommand v s).mtabLen = s.mtabLen := rfl
@[simp] theorem latchCommand_lfoPhase (v : BitVec 64) (s : State) : (latchCommand v s).lfoPhase = s.lfoPhase := rfl
@[simp] theorem latchCommand_carrierPhase (v : BitVec 64) (s : State) :
    (latchCommand v s).carrierPhase = s.carrierPhase := rfl
@[simp] theorem latchCommand_sigi (v : BitVec 64) (s : State) : (latchCommand v s).sigi = s.sigi := rfl
@[simp] theorem latchCommand_sigo (v : BitVec 64) (s : State) : (latchCommand v s).sigo = s.sigo := rfl
@[simp] theorem latchCommand_mtab (v : BitVec 64) (s : State) : (latchCommand v s).mtab = s.mtab := rfl
@[simp] theorem latchCommand_dly (v : BitVec 64) (s : State) : (latchCommand v s).dly = s.dly := rfl
@[simp] theorem latchCommand_sigoEpoch (v : BitVec 64) (s : State) : (latchCommand v s).sigoEpoch = s.sigoEpoch := rfl
@[simp] theorem latchCommand_mtabEpoch (v : BitVec 64) (s : State) : (latchCommand v s).mtabEpoch = s.mtabEpoch := rfl
@[simp] theorem latchCommand_caps (v : BitVec 64) (s : State) : (latchCommand v s).caps = s.caps := rfl
@[simp] theorem latchCommand_hostQueue (v : BitVec 64) (s : State) : (latchCommand v s).hostQueue = s.hostQueue := rfl
@[simp] theorem latchCommand_hostAnswers (v : BitVec 64) (s : State) :
    (latchCommand v s).hostAnswers = s.hostAnswers := rfl
@[simp] theorem latchCommand_drawScript (v : BitVec 64) (s : State) :
    (latchCommand v s).drawScript = s.drawScript := rfl
@[simp] theorem latchCommand_drawCount (v : BitVec 64) (s : State) : (latchCommand v s).drawCount = s.drawCount := rfl

/-! ## takeAccess -/

@[simp] theorem takeAccess_cmd (rest : List HostAccess) (s : State) : (takeAccess rest s).cmd = s.cmd := rfl
@[simp] theorem takeAccess_result (rest : List HostAccess) (s : State) : (takeAccess rest s).result = s.result := rfl
@[simp] theorem takeAccess_params (rest : List HostAccess) (s : State) : (takeAccess rest s).params = s.params := rfl
@[simp] theorem takeAccess_outLen (rest : List HostAccess) (s : State) : (takeAccess rest s).outLen = s.outLen := rfl
@[simp] theorem takeAccess_mtabLen (rest : List HostAccess) (s : State) :
    (takeAccess rest s).mtabLen = s.mtabLen := rfl
@[simp] theorem takeAccess_lfoPhase (rest : List HostAccess) (s : State) :
    (takeAccess rest s).lfoPhase = s.lfoPhase := rfl
@[simp] theorem takeAccess_carrierPhase (rest : List HostAccess) (s : State) :
    (takeAccess rest s).carrierPhase = s.carrierPhase := rfl
@[simp] theorem takeAccess_sigi (rest : List HostAccess) (s : State) : (takeAccess rest s).sigi = s.sigi := rfl
@[simp] theorem takeAccess_sigo (rest : List HostAccess) (s : State) : (takeAccess rest s).sigo = s.sigo := rfl
@[simp] theorem takeAccess_mtab (rest : List HostAccess) (s : State) : (takeAccess rest s).mtab = s.mtab := rfl
@[simp] theorem takeAccess_dly (rest : List HostAccess) (s : State) : (takeAccess rest s).dly = s.dly := rfl
@[simp] theorem takeAccess_sigoEpoch (rest : List HostAccess) (s : State) :
    (takeAccess rest s).sigoEpoch = s.sigoEpoch := rfl
@[simp] theorem takeAccess_mtabEpoch (rest : List HostAccess) (s : State) :
    (takeAccess rest s).mtabEpoch = s.mtabEpoch := rfl
@[simp] theorem takeAccess_caps (rest : List HostAccess) (s : State) : (takeAccess rest s).caps = s.caps := rfl
@[simp] theorem takeAccess_hostQueue (rest : List HostAccess) (s : State) :
    (takeAccess rest s).hostQueue = rest := rfl
@[simp] theorem takeAccess_hostAnswers (rest : List HostAccess) (s : State) :
    (takeAccess rest s).hostAnswers = s.hostAnswers := rfl
@[simp] theorem takeAccess_drawScript (rest : List HostAccess) (s : State) :
    (takeAccess rest s).drawScript = s.drawScript := rfl
@[simp] theorem takeAccess_drawCount (rest : List HostAccess) (s : State) :
    (takeAccess rest s).drawCount = s.drawCount := rfl

/-! ## writeInput -/

@[simp] theorem writeInput_cmd (i : Nat) (v : Sample) (s : State) : (writeInput i v s).cmd = s.cmd := by
  unfold writeInput; split <;> rfl
@[simp] theorem writeInput_result (i : Nat) (v : Sample) (s : State) : (writeInput i v s).result = s.result := by
  unfold writeInput; split <;> rfl
@[simp] theorem writeInput_params (i : Nat) (v : Sample) (s : State) : (writeInput i v s).params = s.params := by
  unfold writeInput; split <;> rfl
@[simp] theorem writeInput_outLen (i : Nat) (v : Sample) (s : State) : (writeInput i v s).outLen = s.outLen := by
  unfold writeInput; split <;> rfl
@[simp] theorem writeInput_mtabLen (i : Nat) (v : Sample) (s : State) : (writeInput i v s).mtabLen = s.mtabLen := by
  unfold writeInput; split <;> rfl
@[simp] theorem writeInput_lfoPhase (i : Nat) (v : Sample) (s : State) : (writeInput i v s).lfoPhase = s.lfoPhase := by
  unfold writeInput; split <;> rfl
@[simp] theorem writeInput_carrierPhase (i : Nat) (v : Sample) (s : State) : (writeInput i v s).carrierPhase = s.carrierPhase := by
  unfold writeInput; split <;> rfl
theorem writeInput_sigi (i : Nat) (v : Sample) (s : State) :
    (writeInput i v s).sigi = if i < s.caps.sigCap then memWrite s.sigi i v else s.sigi := by
  unfold writeInput; split <;> rfl
@[simp] theorem writeInput_sigo (i : Nat) (v : Sample) (s : State) : (writeInput i v s).sigo = s.sigo := by
  unfold writeInput; split <;> rfl
@[simp] theorem writeInput_mtab (i : Nat) (v : Sample) (s : State) : (writeInput i v s).mtab = s.mtab := by
  unfold writeInput; split <;> rfl
@[simp] theorem writeInput_dly (i : Nat) (v : Sample) (s : State) : (writeInput i v s).dly = s.dly := by
  unfold writeInput; split <;> rfl
@[simp] theorem writeInput_sigoEpoch (i : Nat) (v : Sample) (s : State) : (writeInput i v s).sigoEpoch = s.sigoEpoch := by
  unfold writeInput; split <;> rfl
@[simp] theorem writeInput_mtabEpoch (i : Nat) (v : Sample) (s : State) : (writeInput i v s).mtabEpoch = s.mtabEpoch := by
  unfold writeInput; split <;> rfl
@[simp] theorem writeInput_caps (i : Nat) (v : Sample) (s : State) : (writeInput i v s).caps = s.caps := by
  unfold writeInput; split <;> rfl
@[simp] theorem writeInput_hostQueue (i : Nat) (v : Sample) (s : State) : (writeInput i v s).hostQueue = s.hostQueue := by
  unfold writeInput; split <;> rfl
@[simp] theorem writeInput_hostAnswers (i : Nat) (v : Sample) (s : State) : (writeInput i v s).hostAnswers = s.hostAnswers := by
  unfold writeInput; split <;> rfl
@[simp] theorem writeInput_drawScript (i : Nat) (v : Sample) (s : State) : (writeInput i v s).drawScript = s.drawScript := by
  unfold writeInput; split <;> rfl
@[simp] theorem writeInput_drawCount (i : Nat) (v : Sample) (s : State) : (writeInput i v s).drawCount = s.drawCount := by
  unfold writeInput; split <;> rfl

end Sys2Proof.Laws
end

