-- ==== Sys2Proof/Laws/Ops.lean ====
section
/-! SUPPORT. What each shared operation of the commands can do: the word of `RESULT`, the check lists, the table scan,
the draws, the lengths, and one inversion lemma per command. -/

namespace Sys2Proof.Laws
open Sys2Proof.Machine

/-! ## RESULT (`10_state.md` R46, R47) -/

/-- Every bit of a `RESULT` word (R46). -/
theorem getLsbD_resultWord (c : ResultCode) (x : Bool) (p : BitVec 8) (st : BitVec 32) (i : Nat) :
    (resultWord c x p st).getLsbD i = if i < 4 then c.bits.getLsbD i else if i < 5 then x else if i < 8 then false
      else if i < 16 then p.getLsbD (i - 8) else if i < 32 then false else st.getLsbD (i - 32) := by
  show BitVec.getLsbD (w := 32 + (16 + (8 + (3 + (1 + 4)))))
    (st ++ ((0 : BitVec 16) ++ (p ++ ((0 : BitVec 3) ++ (BitVec.ofBool x ++ c.bits))))) i = _
  rw [BitVec.getLsbD_append, BitVec.getLsbD_append, BitVec.getLsbD_append, BitVec.getLsbD_append,
    BitVec.getLsbD_append]
  rcases Nat.lt_or_ge i 32 with h | h
  · interval_cases i <;> simp
  · simp [show ¬ i < 32 by omega, show ¬ i < 16 by omega, show ¬ i < 8 by omega,
      show ¬ i < 4 by omega, show ¬ i < 5 by omega]

@[simp] theorem codeOf_resultWord (c : ResultCode) (x : Bool) (p : BitVec 8) (st : BitVec 32) :
    codeOf (resultWord c x p st) = c.bits := by
  apply BitVec.eq_of_getLsbD_eq
  intro i hi
  simp [codeOf, getLsbD_resultWord, hi]

@[simp] theorem sigxOf_resultWord (c : ResultCode) (x : Bool) (p : BitVec 8) (st : BitVec 32) :
    sigxOf (resultWord c x p st) = BitVec.ofBool x := by
  apply BitVec.eq_of_getLsbD_eq
  intro i hi
  have : i = 0 := by omega
  subst this
  simp only [sigxOf, BitVec.getLsbD_extractLsb', getLsbD_resultWord]; simp

@[simp] theorem paramOf_resultWord (c : ResultCode) (x : Bool) (p : BitVec 8) (st : BitVec 32) :
    paramOf (resultWord c x p st) = p := by
  apply BitVec.eq_of_getLsbD_eq
  intro i hi
  interval_cases i <;> simp only [paramOf, BitVec.getLsbD_extractLsb', getLsbD_resultWord] <;> simp

@[simp] theorem stageOf_resultWord (c : ResultCode) (x : Bool) (p : BitVec 8) (st : BitVec 32) :
    stageOf (resultWord c x p st) = st := by
  apply BitVec.eq_of_getLsbD_eq
  intro i hi
  simp only [stageOf, BitVec.getLsbD_extractLsb', getLsbD_resultWord]
  simp [hi, show ¬ 32 + i < 4 by omega, show ¬ 32 + i < 5 by omega, show ¬ 32 + i < 8 by omega,
    show ¬ 32 + i < 16 by omega]

@[simp] theorem reservedLowOf_resultWord (c : ResultCode) (x : Bool) (p : BitVec 8) (st : BitVec 32) :
    reservedLowOf (resultWord c x p st) = 0 := by
  apply BitVec.eq_of_getLsbD_eq
  intro i hi
  interval_cases i <;> simp only [reservedLowOf, BitVec.getLsbD_extractLsb', getLsbD_resultWord] <;> simp

@[simp] theorem reservedHighOf_resultWord (c : ResultCode) (x : Bool) (p : BitVec 8) (st : BitVec 32) :
    reservedHighOf (resultWord c x p st) = 0 := by
  apply BitVec.eq_of_getLsbD_eq
  intro i hi
  interval_cases i <;> simp only [reservedHighOf, BitVec.getLsbD_extractLsb', getLsbD_resultWord] <;> simp

theorem bits_eq_zero {c : ResultCode} : c.bits = 0 ↔ c = .ok := by cases c <;> simp [ResultCode.bits]

/-! ## Check lists (`60_exceptions.md` R260) -/

theorem firstFailure_eq_none {cs : List (Bool × Rejection)} :
    firstFailure cs = none ↔ ∀ c ∈ cs, c.1 = false := by
  induction cs with
  | nil => simp [firstFailure]
  | cons c cs ih => obtain ⟨b, r⟩ := c; cases b <;> simp [firstFailure, ih]

theorem firstFailure_mem {cs : List (Bool × Rejection)} {r : Rejection} (h : firstFailure cs = some r) :
    (true, r) ∈ cs := by
  induction cs with
  | nil => cases h
  | cons c cs ih =>
    obtain ⟨b, r'⟩ := c
    cases b
    · exact List.mem_cons_of_mem _ (ih (by simpa [firstFailure] using h))
    · simp [firstFailure] at h; simp [h]

/-! ## The table scan (`41_diffusion_cascade.md` R166, R167, R176) -/

theorem scanTable_eq_ok {cap k : Nat} {ls : List SampleCount} {ms : List Nat} :
    scanTable cap k ls = .ok ms ↔ ls = ms.map SampleCount.samples ∧ ∀ m ∈ ms, 1 ≤ m ∧ m ≤ cap := by
  induction ls generalizing k ms with
  | nil => cases ms <;> simp [scanTable]
  | cons l ls ih =>
    cases l with
    | tooLong => cases ms <;> simp [scanTable]
    | samples m =>
      simp only [scanTable]
      split
      · next h =>
        cases ms with
        | nil => simp
        | cons m' ms => simp; omega
      · split
        · next h0 =>
          cases ms with
          | nil => simp
          | cons m' ms => simp; omega
        · next h h0 =>
          cases hs : scanTable cap (k + 1) ls with
          | error r =>
            cases ms with
            | nil => simp
            | cons m' ms =>
              have : ¬ (ls = ms.map SampleCount.samples ∧ ∀ m ∈ ms, 1 ≤ m ∧ m ≤ cap) := by
                intro hh; rw [(ih (k := k + 1)).2 hh] at hs; cases hs
              refine iff_of_false (by simp) (fun hh => this ⟨(List.cons.inj hh.1).2, fun m' h => hh.2 m' (List.mem_cons_of_mem _ h)⟩)
          | ok ns =>
            have hn := ih.1 hs
            cases ms with
            | nil => simp
            | cons m' ms =>
              simp only [Except.ok.injEq, List.cons.injEq, List.map_cons, SampleCount.samples.injEq,
                List.mem_cons, forall_eq_or_imp]
              constructor
              · rintro ⟨rfl, rfl⟩; exact ⟨⟨rfl, hn.1⟩, by omega, hn.2⟩
              · rintro ⟨⟨rfl, h1⟩, -, -⟩
                refine ⟨rfl, ?_⟩
                exact List.map_injective_iff.2 (fun _ _ h => SampleCount.samples.inj h) (hn.1.symm.trans h1)

/-- The scan stops at the first stage whose length does not fit or is 0. -/
theorem scanTable_first_bad {cap k : Nat} {ms : List Nat} {l : SampleCount} {rest : List SampleCount}
    (hms : ∀ m ∈ ms, 1 ≤ m ∧ m ≤ cap) :
    ((l = .tooLong ∨ ∃ m, l = .samples m ∧ cap < m) →
      scanTable cap k (ms.map SampleCount.samples ++ l :: rest) = .error (capacityExceeded 0x11 (k + ms.length))) ∧
    (l = .samples 0 →
      scanTable cap k (ms.map SampleCount.samples ++ l :: rest) = .error (invalidParameter 0x11 (k + ms.length))) := by
  induction ms generalizing k with
  | nil =>
    refine ⟨?_, ?_⟩
    · rintro (rfl | ⟨m, rfl, hm⟩) <;> simp [scanTable, *]
    · rintro rfl; simp [scanTable]
  | cons m ms ih =>
    have hm := hms m List.mem_cons_self
    have := ih (k := k + 1) (fun m' h => hms m' (List.mem_cons_of_mem _ h))
    have e : k + 1 + ms.length = k + (m :: ms).length := by simp; omega
    rw [e] at this
    refine ⟨fun h => ?_, fun h => ?_⟩
    · simp only [List.map_cons, List.cons_append, scanTable]
      rw [if_neg (by omega), if_neg (by omega), this.1 h]
    · simp only [List.map_cons, List.cons_append, scanTable]
      rw [if_neg (by omega), if_neg (by omega), this.2 h]

/-- What a scan that stops can report. -/
theorem scanTable_error {cap k : Nat} {ls : List SampleCount} {r : Rejection} (h : scanTable cap k ls = .error r) :
    ∃ j, k ≤ j ∧ j < k + ls.length ∧ (r = capacityExceeded 0x11 j ∨ r = invalidParameter 0x11 j) := by
  induction ls generalizing k with
  | nil => cases h
  | cons l ls ih =>
    cases l with
    | tooLong => simp [scanTable] at h; exact ⟨k, le_rfl, by simp, .inl h.symm⟩
    | samples m =>
      simp only [scanTable] at h
      split at h
      · simp at h; exact ⟨k, le_rfl, by simp, .inl h.symm⟩
      · split at h
        · simp at h; exact ⟨k, le_rfl, by simp, .inr h.symm⟩
        · cases hs : scanTable cap (k + 1) ls with
          | error r' =>
            rw [hs] at h; simp at h; subst h
            obtain ⟨j, h1, h2, h3⟩ := ih hs
            exact ⟨j, by omega, by simp; omega, h3⟩
          | ok ms => rw [hs] at h; simp at h

/-! ## The random port (`60_exceptions.md` R270) -/

theorem drawAllowed_iff {lo hi r : F} :
    drawAllowed lo hi r = true ↔ isFinite r = true ∧ fLe lo r = true ∧ fLt r hi = true := by
  simp [drawAllowed, and_assoc]

/-- Scripted answers that meet the contract are the draws. -/
theorem drawMany_scripted {lo hi : F} {rs later : List F} {s : State} (hs : s.drawScript = rs ++ later)
    (ok : ∀ r ∈ rs, drawAllowed lo hi r = true) :
    drawMany lo hi rs.length s =
      .ok (rs, { s with drawScript := later, drawCount := s.drawCount + rs.length }) := by
  induction rs generalizing s with
  | nil => simp at hs; subst hs; rfl
  | cons r rs ih =>
    have e : draw lo hi s = .ok (r, { s with drawScript := rs ++ later, drawCount := s.drawCount + 1 }) := by
      simp [draw, hs, ok r List.mem_cons_self]
    simp only [List.length_cons, drawMany, e]
    rw [ih rfl (fun r' h => ok r' (List.mem_cons_of_mem _ h))]
    simp [Nat.add_assoc, Nat.add_comm 1]

theorem draw_ok {lo hi r : F} {s s1 : State} (hlo : drawAllowed lo hi lo = true) (h : draw lo hi s = .ok (r, s1)) :
    drawAllowed lo hi r = true ∧
      s1 = { s with drawScript := s.drawScript.drop 1, drawCount := s.drawCount + 1 } := by
  unfold draw at h
  split at h
  · next hd =>
    simp only [Except.ok.injEq, Prod.mk.injEq] at h
    obtain ⟨rfl, rfl⟩ := h
    refine ⟨?_, by simp [hd]⟩
    unfold boundedDraw; split
    · assumption
    · exact hlo
  · next hd =>
    split at h
    · next ha =>
      simp only [Except.ok.injEq, Prod.mk.injEq] at h
      obtain ⟨rfl, rfl⟩ := h
      exact ⟨ha, by simp [hd]⟩
    · cases h

/-- Draws that are made meet the contract, take that many answers off the script, and change nothing else. -/
theorem drawMany_ok {lo hi : F} {n : Nat} {s s1 : State} {rs : List F} (hlo : drawAllowed lo hi lo = true)
    (h : drawMany lo hi n s = .ok (rs, s1)) :
    rs.length = n ∧ (∀ r ∈ rs, drawAllowed lo hi r = true) ∧
      s1 = { s with drawScript := s.drawScript.drop n, drawCount := s.drawCount + n } := by
  induction n generalizing s rs with
  | zero => simp [drawMany] at h; obtain ⟨rfl, rfl⟩ := h; simp
  | succ n ih =>
    simp only [drawMany] at h
    split at h
    · cases h
    · next r s2 hd =>
      split at h
      · cases h
      · next rs' s3 hm =>
        simp only [Except.ok.injEq, Prod.mk.injEq] at h
        obtain ⟨rfl, rfl⟩ := h
        obtain ⟨h1, rfl⟩ := draw_ok hlo hd
        obtain ⟨h2, h3, rfl⟩ := ih hm
        refine ⟨by simp [h2], by simpa [h1] using h3, ?_⟩
        simp [Nat.add_assoc, Nat.add_comm 1]

/-- A draw is refused only at a scripted answer outside the contract. -/
theorem drawMany_error {lo hi r : F} {n : Nat} {s : State} (h : drawMany lo hi n s = .error r) :
    r ∈ s.drawScript ∧ drawAllowed lo hi r = false := by
  induction n generalizing s with
  | zero => cases h
  | succ n ih =>
    simp only [drawMany] at h
    split at h
    · next r' hd =>
      cases h
      unfold draw at hd
      split at hd
      · cases hd
      · next hs =>
        split at hd
        · cases hd
        · next ha => cases hd; exact ⟨by simp [hs], by simpa using ha⟩
    · next r' s2 hd =>
      split at h
      · next hm =>
        cases h
        obtain ⟨h1, h2⟩ := ih hm
        refine ⟨?_, h2⟩
        unfold draw at hd
        split at hd
        · next hs => cases hd; simp [hs] at h1
        · next hs =>
          split at hd
          · cases hd; simp at h1; simp [hs, h1]
          · cases hd
      · cases h

/-! ## Lengths -/

theorem stageLoop_length (m : Nat) (g : F) (i : Nat) (x : List Sample) (d : Mem 64) :
    (stageLoop m g i x d).1.length = x.length := by
  induction x generalizing i d with
  | nil => rfl
  | cons v vs ih => simp [stageLoop, ih]

/-- A stage keeps the length (`40_allpass_stage.md` R140). -/
@[simp] theorem stage_length (x : List Sample) (m : Nat) (g : F) : (stage x m g).length = x.length :=
  stageLoop_length _ _ _ _ _

@[simp] theorem cascade_length (g : F) (ms : List Nat) (x : List Sample) :
    (cascade g ms x).length = x.length := by
  induction ms generalizing x with
  | nil => rfl
  | cons m ms ih => simp [cascade, ih]

@[simp] theorem ringLoop_length (sin : F → F) (u : RingSetup) (ph : Phases) (x : List Sample) :
    (ringLoop sin u ph x).1.length = x.length := by
  induction x generalizing ph with
  | nil => rfl
  | cons v vs ih => simp [ringLoop, ih]

@[simp] theorem padSignal_length (x : List Sample) (sr : Nat) : (padSignal x sr).length = x.length + 5 * sr := by
  simp [padSignal]

theorem readSignal_length {s : State} {n : Nat} {x : List Sample} (h : readSignal s n = .ok x) : x.length = n := by
  simpa using readSamples_length h

/-! ## What each command can do -/

theorem execApf_next {s t : State} (h : execApf s = .next t) :
    (∃ r, firstFailure (apfChecks s) = some r ∧ t = reject r s) ∨
    (firstFailure (apfChecks s) = none ∧ ∃ x, readSignal s s.params.inLen.toNat = .ok x ∧
      t = complete (stage x s.params.apM.toNat (feedbackG s)) false (forgetDelays s)) := by
  unfold execApf at h
  split at h
  · next r hr => cases h; exact .inl ⟨r, hr, rfl⟩
  · next hn =>
    split at h
    · cases h
    · next x hx => cases h; exact .inr ⟨hn, x, hx, rfl⟩

theorem runCascade_next {lens : List Nat} {s t : State} (h : runCascade lens s = .next t) :
    ∃ x, readSignal s s.params.inLen.toNat = .ok x ∧
      t = complete (cascade (feedbackG s) lens (padSignal x s.params.sampleRate.toNat)) false
        (setStageTable lens (forgetDelays s)) := by
  unfold runCascade at h
  split at h
  · cases h
  · next x hx => cases h; exact ⟨x, hx, rfl⟩

theorem execDifd_next {s t : State} (h : execDifd s = .next t) :
    (∃ r, firstFailure (difdChecks s) = some r ∧ t = rejectCascade r s) ∨
    (firstFailure (difdChecks s) = none ∧ ∃ r, scanTable s.caps.dlyCap 0 (difdLengths s) = .error r ∧
      t = rejectCascade r s) ∨
    (firstFailure (difdChecks s) = none ∧ ∃ lens, scanTable s.caps.dlyCap 0 (difdLengths s) = .ok lens ∧
      runCascade lens s = .next t) := by
  unfold execDifd at h
  split at h
  · next r hr => cases h; exact .inl ⟨r, hr, rfl⟩
  · next hn =>
    split at h
    · next r hr => cases h; exact .inr (.inl ⟨hn, r, hr, rfl⟩)
    · next lens hl => exact .inr (.inr ⟨hn, lens, hl, h⟩)

theorem execSchr_next {s t : State} (h : execSchr s = .next t) :
    (∃ r, firstFailure (schrChecks s) = some r ∧ t = rejectCascade r s) ∨
    (firstFailure (schrChecks s) = none ∧
      ∃ rs s1, drawMany (drawLo s) (drawHi s) s.params.dlStages.toNat s = .ok (rs, s1) ∧
        ((∃ r, scanTable s.caps.dlyCap 0 (rs.map (fun r => floorLen r s.params.sampleRate)) = .error r ∧
          t = rejectCascade r s1) ∨
        ∃ lens, scanTable s.caps.dlyCap 0 (rs.map (fun r => floorLen r s.params.sampleRate)) = .ok lens ∧
          runCascade lens s1 = .next t)) := by
  unfold execSchr at h
  split at h
  · next r hr => cases h; exact .inl ⟨r, hr, rfl⟩
  · next hn =>
    split at h
    · cases h
    · next rs s1 hd =>
      refine .inr ⟨hn, rs, s1, hd, ?_⟩
      split at h
      · next r hr => cases h; exact .inl ⟨r, hr, rfl⟩
      · next lens hl => exact .inr ⟨lens, hl, h⟩

theorem ringModulate_next {sin : F → F} {s t : State} (h : ringModulate sin s = .next t) :
    (∃ r, firstFailure (rmodChecks s) = some r ∧ t = reject r s) ∨
    (firstFailure (rmodChecks s) = none ∧ ∃ x, readSignal s (ringLength s) = .ok x ∧
      t = complete (ringLoop sin (ringSetup s) ⟨F_0, F_0⟩ x).1 (signalExhausted s)
        (setPhases (ringLoop sin (ringSetup s) ⟨F_0, F_0⟩ x).2.lfo
          (ringLoop sin (ringSetup s) ⟨F_0, F_0⟩ x).2.carrier s)) := by
  unfold ringModulate at h
  split at h
  · next r hr => cases h; exact .inl ⟨r, hr, rfl⟩
  · next hn =>
    split at h
    · cases h
    · next x hx => cases h; exact .inr ⟨hn, x, hx, rfl⟩

theorem execDsmp_next {s t : State} (h : execDsmp s = .next t) :
    (∃ r, firstFailure (dsmpChecks s) = some r ∧ t = reject r s) ∨
    (firstFailure (dsmpChecks s) = none ∧ ∃ out,
      readSamples s.sigi ((List.range (decimatedLength s)).map (fun j => j * decimationFactor s)) = .ok out ∧
      t = complete out false s) := by
  unfold execDsmp at h
  split at h
  · next r hr => cases h; exact .inl ⟨r, hr, rfl⟩
  · next hn =>
    split at h
    · cases h
    · next x hx => cases h; exact .inr ⟨hn, x, hx, rfl⟩

end Sys2Proof.Laws
end

