-- ==== Sys2Proof/Laws/Commands.lean ====
section
/-! SUPPORT. When the checks of each command pass, what a rejection leaves, and the signals a command reads and writes. -/

namespace Sys2Proof.Laws
open Sys2Proof.Machine


/-! ## The conditions of the checks -/

theorem fLt_eq_false {a b : F} (ha : isFinite a = true) (hb : isFinite b = true) :
    fLt a b = false ↔ fLe b a = true := by
  have na := isNaN_of_isFinite ha
  have nb := isNaN_of_isFinite hb
  rw [← Bool.not_eq_true, fLt_iff na nb, fLe_iff nb na]; omega

theorem fLe_eq_false {a b : F} (ha : isFinite a = true) (hb : isFinite b = true) :
    fLe a b = false ↔ fLt b a = true := by
  have na := isNaN_of_isFinite ha
  have nb := isNaN_of_isFinite hb
  rw [← Bool.not_eq_true, fLe_iff na nb, fLt_iff nb na]; omega

theorem outOfRange_eq_false {lo hi x : F} (hlo : isFinite lo = true) (hhi : isFinite hi = true) :
    outOfRange lo hi x = false ↔ InRange lo hi x := by
  unfold outOfRange InRange
  cases hx : isFinite x
  · simp
  · simp only [Bool.not_true, Bool.false_or, Bool.or_eq_false_iff, true_and]
    rw [fLt_eq_false hx hlo, fLt_eq_false hhi hx]

theorem badFeedback_eq_false {s : State} : badFeedback s = false ↔ FeedbackOk s :=
  outOfRange_eq_false (by decide) (by decide)

theorem inLenTooLong_eq_false {s : State} : inLenTooLong s = false ↔ InputFits s := by
  simp [inLenTooLong, InputFits]

theorem u32_eq_zero {x : U32} : x = 0 ↔ x.toNat = 0 := by
  constructor
  · rintro rfl; rfl
  · intro h; exact BitVec.eq_of_toNat_eq h

/-- The checks of `APF` pass exactly in an `ApfReady` state. -/
theorem apfChecks_pass {s : State} : firstFailure (apfChecks s) = none ↔ ApfReady s := by
  simp only [firstFailure_eq_none, apfChecks, List.mem_cons, List.not_mem_nil, or_false, forall_eq_or_imp, forall_eq,
    inLenTooLong_eq_false, badFeedback_eq_false, decide_eq_false_iff_not, u32_eq_zero, ApfReady, Nat.not_lt,
    Nat.pos_iff_ne_zero, ne_eq]

theorem sharedChecks_pass {s : State} : firstFailure (sharedChecks s) = none ↔ CascadeReady s := by
  have hd : (!isFinite s.params.dlDelay || fLe s.params.dlDelay F_0) = false ↔
      isFinite s.params.dlDelay = true ∧ fLt F_0 s.params.dlDelay = true := by
    cases hx : isFinite s.params.dlDelay
    · simp
    · simp only [Bool.not_true, Bool.false_or, true_and]; exact fLe_eq_false hx (by decide)
  simp only [firstFailure_eq_none, sharedChecks, List.mem_cons, List.not_mem_nil, or_false, forall_eq_or_imp,
    forall_eq, inLenTooLong_eq_false, badFeedback_eq_false, decide_eq_false_iff_not, u32_eq_zero, CascadeReady,
    Nat.not_lt, Nat.pos_iff_ne_zero, ne_eq, hd]

theorem firstFailure_append {a b : List (Bool × Rejection)} :
    firstFailure (a ++ b) = (firstFailure a).or (firstFailure b) := by
  induction a with
  | nil => simp [firstFailure]
  | cons c cs ih => obtain ⟨f, r⟩ := c; cases f <;> simp [firstFailure, ih]

theorem difdChecks_pass {s : State} : firstFailure (difdChecks s) = none ↔ DifdReady s := by
  rw [difdChecks, firstFailure_append, Option.or_eq_none_iff, sharedChecks_pass, DifdReady]
  simp [firstFailure_eq_none, Nat.pos_iff_ne_zero, ← u32_eq_zero]

theorem schrChecks_pass {s : State} : firstFailure (schrChecks s) = none ↔ SchrReady s := by
  rw [schrChecks, firstFailure_append, Option.or_eq_none_iff, sharedChecks_pass, SchrReady]
  simp [firstFailure_eq_none, drawLo, drawHi]

theorem rmodChecks_pass {s : State} : firstFailure (rmodChecks s) = none ↔ RmodReady s := by
  simp only [firstFailure_eq_none, rmodChecks, List.mem_cons, List.not_mem_nil, or_false, forall_eq_or_imp,
    forall_eq, inLenTooLong_eq_false, decide_eq_false_iff_not, u32_eq_zero, RmodReady, Nat.pos_iff_ne_zero, ne_eq,
    outOfRange_eq_false (lo := F_0) (hi := F_100) (by decide) (by decide),
    outOfRange_eq_false (lo := F_0) (hi := F_10) (by decide) (by decide), Bool.not_eq_false']

theorem dsmpChecks_pass {s : State} : firstFailure (dsmpChecks s) = none ↔ DsmpReady s := by
  simp only [firstFailure_eq_none, dsmpChecks, List.mem_cons, List.not_mem_nil, or_false, forall_eq_or_imp,
    forall_eq, inLenTooLong_eq_false, Bool.or_eq_false_iff, decide_eq_false_iff_not, u32_eq_zero, DsmpReady,
    Nat.pos_iff_ne_zero, ne_eq, Nat.not_lt]

/-! ## What a rejection leaves (`60_exceptions.md` R252) -/

theorem kept_reject (r : Rejection) (s : State) : Kept s (reject r s) := by constructor <;> simp
theorem kept_rejectCascade (r : Rejection) (s : State) : Kept s (rejectCascade r s) := by constructor <;> simp

theorem rejectedAs_reject (s : State) (c : ResultCode) (p : BitVec 8) (k : Nat) :
    RejectedAs c p k s (reject ⟨c, p, BitVec.ofNat 32 k⟩ s) where
  code := by simp
  sigx := by simp
  param := by simp
  stage := by simp
  reserved := by simp
  output := by simp [OutputIs]
  kept := kept_reject _ _
  phases := by simp [PhasesKept]
  delays := by simp

theorem rejectedAs_rejectCascade (s : State) (c : ResultCode) (p : BitVec 8) (k : Nat) :
    RejectedAs c p k s (rejectCascade ⟨c, p, BitVec.ofNat 32 k⟩ s) where
  code := by simp
  sigx := by simp
  param := by simp
  stage := by simp
  reserved := by simp
  output := by simp [OutputIs]
  kept := kept_rejectCascade _ _
  phases := by simp [PhasesKept]
  delays := by simp

theorem stageTableIs_rejectCascade (r : Rejection) (s : State) : StageTableIs (rejectCascade r s) [] := by
  simp [StageTableIs]

/-! ## The input and output signals -/

theorem readSamples_range {m : Mem 32} {n : Nat} {x : List Sample} :
    readSamples m (List.range n) = .ok x ↔ x.length = n ∧ ∀ j, j < n → memRead m j = x[j]? := by
  rw [readSamples_eq_ok]
  constructor
  · intro h
    have hl : x.length = n := by simpa using (congrArg List.length h).symm
    refine ⟨hl, fun j hj => ?_⟩
    have := congrArg (fun l => l[j]?) h
    simpa [hj, hl] using this
  · rintro ⟨hl, h⟩
    apply List.ext_getElem?
    intro j
    by_cases hj : j < n
    · simp [hj, h j hj, hl]
    · simp [hj, hl]

/-- The input signal of a command is `x` exactly when it is written so. -/
theorem readSignal_ok {s : State} {x : List Sample} : readSignal s x.length = .ok x ↔ InputIs s x := by
  rw [readSignal, readSamples_range, InputIs]
  simp only [true_and]
  refine forall₂_congr fun j hj => ?_
  rw [List.getElem?_eq_getElem hj, List.getD_eq_getElem _ _ hj]

theorem readSignal_error {s : State} {n j : Nat} (hj : j < n) (hw : ∀ k, k < j → (memRead s.sigi k).isSome = true)
    (hn : memRead s.sigi j = none) : readSignal s n = .error j := by
  rw [readSignal, readSamples_eq_error]
  refine ⟨List.range j, List.range' (j + 1) (n - (j + 1)), ?_, by simpa using hw, hn⟩
  obtain ⟨d, rfl⟩ := Nat.exists_eq_add_of_lt hj
  rw [List.range_eq_range', List.range_eq_range', ← List.range'_succ, show j + d + 1 - (j + 1) + 1 = d + 1 by omega,
    Nat.add_assoc]
  have := List.range'_append_1 (s := 0) (m := j) (n := d + 1)
  rw [← this, Nat.zero_add]

theorem outputIs_complete (out : List Sample) (x : Bool) (s : State) (h : out.length < 2 ^ 32) :
    OutputIs (complete out x s) out := by
  refine ⟨by simp; omega, fun j hj => ?_, fun j hj => ?_⟩
  · simp [hj]
  · simp [hj]

theorem stageTableIs_setStageTable (ms : List Nat) (s : State) (h : ms.length < 2 ^ 32)
    (hm : ∀ m ∈ ms, m < 2 ^ 32) (out : List Sample) (x : Bool) :
    StageTableIs (complete out x (setStageTable ms s)) ms := by
  refine ⟨by simp; omega, fun j hj => ?_, fun j hj => ?_⟩
  · have := hm _ (List.getElem_mem hj)
    simp [hj]; omega
  · simp [hj]

/-! ## How a command can end -/

/-- The lower bound of the draws meets the port's contract, so a free answer can always be given. -/
theorem drawAllowed_lo {s : State} (h : SchrReady s) : drawAllowed (drawLo s) (drawHi s) (drawLo s) = true := by
  obtain ⟨⟨-, -, -, ⟨hf, hp⟩, -⟩, h1, h2⟩ := h
  have hn := not_isNaN_of_fLt h2
  have hlt := (fLt_iff hn.1 hn.2).1 h2
  have hm := fMul_finite (a := F_0p9) (by decide) hf
  rw [(units_pos_of_fLt hp).2, show (signBit F_0p9 ^^ false) = false by decide] at hm
  have hs : signBit (drawLo s) = false := by rw [drawLo, hm]; exact signBit_roundF _ _ _
  have hs1 : signedUnits (fMul F_0p9 s.params.dlDelay) = units (drawLo s) := signedUnits_of_signBit_false hs
  have hu : units (drawLo s) < unitsOfBits infBits := by
    have := units_of_isFinite h1
    have h3 : signedUnits (fMul F_1p5 s.params.dlDelay) ≤ units (fMul F_1p5 s.params.dlDelay) := by
      rw [signedUnits]; split <;> omega
    omega
  have hfin : isFinite (drawLo s) = true := isFinite_iff.2 (unitsOfBits_lt.1 hu)
  rw [drawAllowed_iff]
  exact ⟨hfin, by rw [fLe_iff (isNaN_of_isFinite hfin) (isNaN_of_isFinite hfin)], h2⟩

/-- The state after the `N` draws of a `SCHR`: that many scripted answers are used up. -/
def afterDraws (s : State) : State :=
  { s with
    drawScript := s.drawScript.drop s.params.dlStages.toNat
    drawCount := s.drawCount + s.params.dlStages.toNat }

/-- Everything a command that ends in a next state can have done. -/
inductive Ends (s : State) : Instr → State → Prop where
  | rejected (i : Instr) (r : Rejection) : i = .apf ∨ i = .rmod ∨ i = .dsmp → r.code ≠ .ok →
      r.code ≠ .illegalCommand → (r.code = .invalidParameter → i ≠ .dsmp) →
      (r.code = .degenerateResample → i = .dsmp) → Ends s i (reject r s)
  | rejectedCascade (i : Instr) (r : Rejection) : i = .difd ∨ i = .schr →
      r.code = .invalidParameter ∨ r.code = .capacityExceeded → Ends s i (rejectCascade r s)
  | rejectedAfterDraws (r : Rejection) : SchrReady s →
      r.code = .invalidParameter ∨ r.code = .capacityExceeded → Ends s .schr (rejectCascade r (afterDraws s))
  | apf (x : List Sample) : ApfReady s → readSignal s s.params.inLen.toNat = .ok x →
      Ends s .apf (complete (stage x s.params.apM.toNat (feedbackG s)) false (forgetDelays s))
  | difd (x : List Sample) (lens : List Nat) : DifdReady s → readSignal s s.params.inLen.toNat = .ok x →
      difdLengths s = lens.map SampleCount.samples → (∀ m ∈ lens, 1 ≤ m ∧ m ≤ s.caps.dlyCap) →
      lens.length = s.params.dlStages.toNat →
      Ends s .difd (complete (cascade (feedbackG s) lens (padSignal x s.params.sampleRate.toNat)) false
        (setStageTable lens (forgetDelays s)))
  | schr (x : List Sample) (lens : List Nat) (rs : List F) : SchrReady s →
      readSignal s s.params.inLen.toNat = .ok x →
      (∀ r ∈ rs, drawAllowed (drawLo s) (drawHi s) r = true) →
      rs.map (fun r => floorLen r s.params.sampleRate) = lens.map SampleCount.samples →
      (∀ m ∈ lens, 1 ≤ m ∧ m ≤ s.caps.dlyCap) → lens.length = s.params.dlStages.toNat →
      Ends s .schr (complete (cascade (feedbackG s) lens (padSignal x s.params.sampleRate.toNat)) false
        (setStageTable lens (forgetDelays (afterDraws s))))
  | rmod (x : List Sample) : RmodReady s → readSignal s (ringLength s) = .ok x →
      Ends s .rmod (complete (ringLoop sine (ringSetup s) ⟨F_0, F_0⟩ x).1 (signalExhausted s)
        (setPhases (ringLoop sine (ringSetup s) ⟨F_0, F_0⟩ x).2.lfo
          (ringLoop sine (ringSetup s) ⟨F_0, F_0⟩ x).2.carrier s))
  | dsmp (out : List Sample) : DsmpReady s →
      readSamples s.sigi ((List.range (decimatedLength s)).map (fun j => j * decimationFactor s)) = .ok out →
      Ends s .dsmp (complete out false s)

theorem sharedChecks_code {s : State} {r : Rejection} (h : (true, r) ∈ sharedChecks s) :
    r.code = .invalidParameter ∨ r.code = .capacityExceeded := by
  simp [sharedChecks] at h
  rcases h with h | h | h | h | h | h <;> (obtain ⟨-, rfl⟩ := h; first | exact .inl rfl | exact .inr rfl)

theorem scanTable_error_code {cap k : Nat} {ls : List SampleCount} {r : Rejection}
    (h : scanTable cap k ls = .error r) : r.code = .invalidParameter ∨ r.code = .capacityExceeded := by
  obtain ⟨j, -, -, rfl | rfl⟩ := scanTable_error h
  · exact .inr rfl
  · exact .inl rfl

/-- A command that ends in a next state ends in one of these ways. -/
theorem exec_next {i : Instr} {s t : State} (h : exec i s = .next t) : Ends s i t := by
  cases i
  · rcases execApf_next h with ⟨r, hr, rfl⟩ | ⟨hn, x, hx, rfl⟩
    · have hm := firstFailure_mem hr
      simp [apfChecks] at hm
      refine .rejected _ r (.inl rfl) ?_ ?_ (by simp) ?_ <;>
        rcases hm with hm | hm | hm | hm <;> obtain ⟨-, rfl⟩ := hm <;> simp [invalidParameter, capacityExceeded]
    · exact .apf x (apfChecks_pass.1 hn) hx
  · rcases execDifd_next h with ⟨r, hr, rfl⟩ | ⟨hn, r, hr, rfl⟩ | ⟨hn, lens, hl, hc⟩
    · refine .rejectedCascade _ r (.inl rfl) ?_
      have hm := firstFailure_mem hr
      rw [difdChecks, List.mem_append] at hm
      rcases hm with hm | hm
      · exact sharedChecks_code hm
      · simp at hm; obtain ⟨-, rfl⟩ := hm; exact .inl rfl
    · exact .rejectedCascade _ r (.inl rfl) (scanTable_error_code hr)
    · obtain ⟨x, hx, rfl⟩ := runCascade_next hc
      obtain ⟨h1, h2⟩ := scanTable_eq_ok.1 hl
      exact .difd x lens (difdChecks_pass.1 hn) hx h1 h2 (by simpa [difdLengths] using (congrArg List.length h1).symm)
  · rcases execSchr_next h with ⟨r, hr, rfl⟩ | ⟨hn, rs, s1, hd, hh⟩
    · refine .rejectedCascade _ r (.inr rfl) ?_
      have hm := firstFailure_mem hr
      rw [schrChecks, List.mem_append] at hm
      rcases hm with hm | hm
      · exact sharedChecks_code hm
      · simp at hm; obtain ⟨-, rfl⟩ := hm; exact .inl rfl
    · have hrd := schrChecks_pass.1 hn
      obtain ⟨hl, hal, rfl⟩ := drawMany_ok (drawAllowed_lo hrd) hd
      rcases hh with ⟨r, hr, rfl⟩ | ⟨lens, hlens, hc⟩
      · exact .rejectedAfterDraws r hrd (scanTable_error_code hr)
      · obtain ⟨x, hx, rfl⟩ := runCascade_next hc
        obtain ⟨h1, h2⟩ := scanTable_eq_ok.1 hlens
        have := congrArg List.length h1
        exact .schr x lens rs hrd hx hal h1 h2 (by simp at this; omega)
  · rcases ringModulate_next h with ⟨r, hr, rfl⟩ | ⟨hn, x, hx, rfl⟩
    · have hm := firstFailure_mem hr
      simp [rmodChecks] at hm
      refine .rejected _ r (.inr (.inl rfl)) ?_ ?_ (by simp) ?_ <;>
        rcases hm with hm | hm | hm | hm | hm | hm <;> obtain ⟨-, rfl⟩ := hm <;>
        simp [invalidParameter, capacityExceeded]
    · exact .rmod x (rmodChecks_pass.1 hn) hx
  · rcases execDsmp_next h with ⟨r, hr, rfl⟩ | ⟨hn, x, hx, rfl⟩
    · have hm := firstFailure_mem hr
      simp [dsmpChecks] at hm
      refine .rejected _ r (.inr (.inr rfl)) ?_ ?_ ?_ (by simp) <;>
        rcases hm with hm | hm <;> obtain ⟨-, rfl⟩ := hm <;> simp [degenerateResample, capacityExceeded]
    · exact .dsmp x (dsmpChecks_pass.1 hn) hx

/-! ## The coefficient and the lengths -/

/-- A feedback that passes its check gives a finite coefficient of magnitude at most 1. -/
theorem feedback_finite {s : State} (h : FeedbackOk s) :
    isFinite (feedbackG s) = true ∧ magBits (feedbackG s) ≤ magBits F_1 := by
  have h1 := magBits_le_of_inRange (A := F_100) (by decide) (by decide) h
  have e : magBits (feedbackG s) ≤ magBits F_1 := by
    have e0 : feedbackG s = _ := fDiv_finite (a := s.params.dlFeedback) (b := F_100) h.1 (by decide) (by decide)
    rw [e0, magBits_roundF]
    have hI : magBits F_1 ≤ infBits := by decide
    refine roundMag_le_of_le ?_ ?_ hI
    · rcases Nat.eq_zero_or_pos (units F_100) with h | h
      · exact absurd (units_eq_zero.1 h) (by decide)
      · exact h
    · have e1 : unitsOfBits (magBits F_1) = oneUnits := units_F_1
      have e2 : units s.params.dlFeedback ≤ units F_100 := unitsOfBits_le.2 h1
      rw [e1, Nat.mul_comm oneUnits]; exact Nat.mul_le_mul_right _ e2
  exact ⟨isFinite_of_le (by decide) e, e⟩

/-- `FLOORLEN` with its quotient named, so that no proof computes it. -/
theorem floorLen_eq {t q : F} {sr : U32} (hq : q = fDiv (fMul t (i2f sr.toNat)) F_1000) :
    floorLen t sr = if isFinite q then .samples (units q / oneUnits) else .tooLong := by
  rw [hq, floorLen]

/-- `FLOORLEN` is monotone in the time. -/
theorem floorLen_mono {a b : F} {sr : U32} (ha : isFinite a = true) (hb : isFinite b = true)
    (h : fLe a b = true) (ha0 : fLt F_0 a = true) {n : Nat} (hn : floorLen b sr = .samples n) :
    ∃ m, floorLen a sr = .samples m ∧ m ≤ n := by
  obtain ⟨f1, f2, f3⟩ := i2f_nat (n := sr.toNat) (by have := sr.isLt; omega)
  obtain ⟨pa, sa⟩ := units_pos_of_fLt ha0
  have hle := (fLe_iff (isNaN_of_isFinite ha) (isNaN_of_isFinite hb)).1 h
  have sb : signBit b = false := by
    by_contra hc
    rw [Bool.not_eq_false] at hc
    rw [signedUnits_of_signBit_false sa, signedUnits, hc, if_pos rfl] at hle
    omega
  rw [signedUnits_of_signBit_false sa, signedUnits_of_signBit_false sb] at hle
  have hu : units a ≤ units b := by exact_mod_cast hle
  have m1 : magBits (fMul a (i2f sr.toNat)) ≤ magBits (fMul b (i2f sr.toNat)) := fMul_le ha f1 hb f1 (unitsOfBits_le.1 hu) le_rfl
  unfold floorLen at hn ⊢
  have mb : magBits (fMul b (i2f sr.toNat)) ≤ infBits := by rw [fMul_finite hb f1, magBits_roundF]; exact roundMag_le_infBits _ _
  have hbf : isFinite (fMul b (i2f sr.toNat)) = true := by
    by_contra hc
    have hi : isInf (fMul b (i2f sr.toNat)) = true := by
      rw [isInf_iff]; rw [isFinite_iff] at hc; omega
    have e : isFinite (fDiv (fMul b (i2f sr.toNat)) F_1000) = false := by
      generalize fMul b (i2f sr.toNat) = q at *
      have := isNaN_of_isInf hi
      have e1 : isNaN F_1000 = false := by decide
      have e2 : isInf F_1000 = false := by decide
      have e3 : fDiv q F_1000 = packF (signBit q != signBit F_1000) infBits := by
        simp [fDiv, *]
      rw [e3]; cases (signBit q != signBit F_1000) <;> decide
    simp [e] at hn
  have haf := isFinite_of_le hbf m1
  have m2 : magBits (fDiv (fMul a (i2f sr.toNat)) F_1000) ≤ magBits (fDiv (fMul b (i2f sr.toNat)) F_1000) := by
    rw [fDiv_finite haf (by decide) (by decide), fDiv_finite hbf (by decide) (by decide), magBits_roundF, magBits_roundF]
    have p : 0 < units F_1000 := by
      rcases Nat.eq_zero_or_pos (units F_1000) with h | h
      · exact absurd (units_eq_zero.1 h) (by decide)
      · exact h
    exact roundMag_mono p p (Nat.mul_le_mul_right _ (Nat.mul_le_mul_right _ (unitsOfBits_le.2 m1)))
  simp only at hn ⊢
  split at hn
  · next hf =>
    rw [if_pos (isFinite_of_le hf m2)]
    refine ⟨_, rfl, ?_⟩
    cases hn
    exact Nat.div_le_div_right (unitsOfBits_le.2 m2)
  · cases hn

end Sys2Proof.Laws
end

