-- ==== Sys2Proof/WellFormed.lean ====
section
/-! DEFINITION. Well-formedness of what the host sends. A command has no operand field, so every `Instr` is
well-formed; the checks are on the command word (`30_encoding.md` R111, R112) and on the value word of a host write
(`20_memory.md` R81, R82). -/

namespace Sys2Proof

/-- Check 1 on a command word: `RSV` is zero (R111). -/
def rsvZero (w : BitVec 32) : Bool := rsvField w == 0

/-- Check 2 on a command word: `OP` is one of the five assigned values (R112). -/
def opAssigned (w : BitVec 32) : Bool := (opcode (opField w).toNat).isSome

/-- A command word is well-formed when both checks pass. -/
def wordWellFormed (w : BitVec 32) : Bool := rsvZero w && opAssigned w

/-- Width in bits of the elements of a host space (R80, R43). -/
def HostSpace.width : HostSpace → Nat
  | .reg => 64
  | .sigi | .sigo | .mtab => 32

/-- Check 3: the value word of a host write is one whole element of its space, and no wider (R81, R82). -/
def HostAccess.wellFormed : HostAccess → Bool
  | .read _ _ => true
  | .write space _ v => decide (v.toNat < 2 ^ space.width)

end Sys2Proof
end

