-- ==== Sys2Proof/Laws/PerInstr.lean ====
section
/-! SUPPORT. Statements for all instructions, made per instruction. The family `EncodedWord`: the word of every command
passes both checks on a command word (`30_encoding.md` R111, R112). -/

namespace Sys2Proof.Laws.EncodedWord

/-- The command word of `i` has a zero `RSV`, an assigned `OP`, and so is well-formed. -/
def Statement (i : Instr) : Prop :=
  rsvZero (encode i) = true ∧ opAssigned (encode i) = true ∧ wordWellFormed (encode i) = true

theorem apf : Statement .apf := by unfold Statement; decide
theorem difd : Statement .difd := by unfold Statement; decide
theorem schr : Statement .schr := by unfold Statement; decide
theorem rmod : Statement .rmod := by unfold Statement; decide
theorem dsmp : Statement .dsmp := by unfold Statement; decide

end Sys2Proof.Laws.EncodedWord
end

