-- ==== Sys2Proof/Laws/Sine.lean ====
section
/-! SUPPORT. The sine of the oscillators (`00_scope.md` R27): what the search finds, which values the cut admits, and that
they are the bracketing values of the real sine. -/

namespace Sys2Proof.Laws
open Sys2Proof.Machine

theorem valueQ_eq_zero {x : F} : valueQ x = 0 ↔ isZero x = true := by
  have h : (oneUnits : ℚ) ≠ 0 := by exact_mod_cast oneUnits_pos.ne'
  rw [valueQ, div_eq_zero_iff, or_iff_left h, Int.cast_eq_zero, signedUnits_eq_zero]

/-- The real value in the property S4 is the exact value. -/
theorem valueQ_cast (x : F) : ((valueQ x : ℚ) : ℝ) = (signedUnits x : ℝ) / 2 ^ 1074 := by
  have h : ((oneUnits : ℚ) : ℝ) = 2 ^ 1074 := by rw [oneUnits_def, Nat.cast_pow]; push_cast; rfl
  rw [valueQ, Rat.cast_div, h, Rat.cast_intCast]

/-- Terms that separate put the real sine strictly between the two encodings, on the side of the sum's sign. -/
theorem sin_of_separated {q : ℚ} {n : Nat} (h : sinSeparated q n = true) :
    (unitsOfBits (sinBits q n) : ℝ) < |Real.sin q| * oneUnits ∧
      |Real.sin q| * oneUnits < unitsOfBits (sinBits q n + 1) ∧ (Real.sin q < 0 ↔ sinSum q n < 0) := by
  simp only [sinSeparated, Bool.and_eq_true, decide_eq_true_eq] at h
  obtain ⟨⟨h1, h2⟩, h3⟩ := h
  have he := sinSum_error q n h1
  have l2 : (unitsOfBits (sinBits q n) : ℝ) < (|((sinSum q n : ℚ) : ℝ)| - sinError q n) * oneUnits := by exact_mod_cast h2
  have l3 : (|((sinSum q n : ℚ) : ℝ)| + sinError q n) * oneUnits < (unitsOfBits (sinBits q n + 1) : ℝ) := by
    exact_mod_cast h3
  have hone : (0 : ℝ) < oneUnits := by exact_mod_cast oneUnits_pos
  have hpos : (0 : ℝ) < |((sinSum q n : ℚ) : ℝ)| - sinError q n :=
    pos_of_mul_pos_left (((Nat.cast_nonneg _).trans_lt l2)) hone.le
  have ha := abs_le.1 ((abs_abs_sub_abs_le _ _).trans he)
  refine ⟨by nlinarith, by nlinarith, ?_⟩
  have hb := abs_le.1 he
  have hs : ((sinSum q n : ℚ) : ℝ) < 0 ↔ sinSum q n < 0 := by exact_mod_cast Iff.rfl
  rw [← hs]
  rcases abs_cases ((sinSum q n : ℚ) : ℝ) with ⟨h4, h5⟩ | ⟨h4, h5⟩ <;> constructor <;> intro h6 <;> linarith

theorem sinSeparated_sinDepth (q : ℚ) (h : q ≠ 0) : sinSeparated q (sinDepth q h) = true :=
  Nat.find_spec (exists_sinSeparated q h)

/-- Any number of terms that separates gives the encoding and the sign the search gives. -/
theorem sinBits_eq {q : ℚ} (h0 : q ≠ 0) {n : Nat} (h : sinSeparated q n = true) :
    sinBits q (sinDepth q h0) = sinBits q n ∧ (sinSum q (sinDepth q h0) < 0 ↔ sinSum q n < 0) := by
  obtain ⟨a1, a2, a3⟩ := sin_of_separated h
  obtain ⟨b1, b2, b3⟩ := sin_of_separated (sinSeparated_sinDepth q h0)
  have c1 : unitsOfBits (sinBits q n) < unitsOfBits (sinBits q (sinDepth q h0) + 1) := by exact_mod_cast a1.trans b2
  have c2 : unitsOfBits (sinBits q (sinDepth q h0)) < unitsOfBits (sinBits q n + 1) := by exact_mod_cast b1.trans a2
  have := unitsOfBits_lt.1 c1
  have := unitsOfBits_lt.1 c2
  exact ⟨by omega, b3.symm.trans a3⟩

/-- A bracketing value of the opposite number is the opposite of a bracketing value. -/
theorem bracketing_neg {t : ℝ} {v : F} (h : Bracketing t v) : Bracketing (-t) (fNeg v) := by
  obtain ⟨hf, h⟩ := h
  refine ⟨by simpa using hf, ?_⟩
  rcases h with ⟨h1, h2⟩ | ⟨h1, h2⟩
  · refine .inr ⟨by simpa using h1, fun z hz hle => ?_⟩
    have := h2 (fNeg z) (by simpa using hz) (by simpa using neg_le.1 hle)
    simp at this ⊢; omega
  · refine .inl ⟨by simpa using h1, fun z hz hle => ?_⟩
    have := h2 (fNeg z) (by simpa using hz) (by simpa using le_neg.1 hle)
    simp at this ⊢; omega

theorem fNeg_fNeg (x : F) : fNeg (fNeg x) = x := by
  rw [fNeg, fNeg, BitVec.xor_assoc, BitVec.xor_self, BitVec.xor_zero]

theorem bracketing_neg_iff {t : ℝ} {v : F} : Bracketing (-t) (fNeg v) ↔ Bracketing t v :=
  ⟨fun h => by simpa [fNeg_fNeg] using bracketing_neg h, bracketing_neg⟩

/-- The bracketing values of a number strictly between two neighbouring magnitudes are those two, a zero of either sign. -/
theorem bracketing_iff_of_pos {t : ℝ} {v : F} {m : Nat} (h1 : (unitsOfBits m : ℝ) < t) (h2 : t < unitsOfBits (m + 1))
    (hm : m + 1 < infBits) :
    Bracketing t v ↔ (magBits v = m ∨ magBits v = m + 1) ∧ (isZero v = true ∨ signBit v = false) := by
  have hI := infBits_lt
  have hpos : ∀ z : F, 0 < signedUnits z → signedUnits z = unitsOfBits (magBits z) := by
    intro z hz
    refine signedUnits_of_signBit_false ?_
    by_contra hc
    rw [Bool.not_eq_false] at hc
    rw [signedUnits, hc, if_pos rfl] at hz
    omega
  have hvs : (isZero v = true ∨ signBit v = false) → signedUnits v = unitsOfBits (magBits v) := by
    rintro (h | h)
    · rw [signedUnits_eq_zero.2 h, isZero_iff.1 h, unitsOfBits_zero]; rfl
    · exact signedUnits_of_signBit_false h
  have below : ∀ z : F, (signedUnits z : ℝ) ≤ t → signedUnits z ≤ unitsOfBits m := by
    intro z hz
    rcases le_or_gt (signedUnits z) 0 with h | h
    · omega
    · have e := hpos z h
      have : (unitsOfBits (magBits z) : ℝ) < unitsOfBits (m + 1) := by
        refine lt_of_le_of_lt ?_ h2; rw [e] at hz; exact_mod_cast hz
      have := unitsOfBits_lt.1 (show unitsOfBits (magBits z) < unitsOfBits (m + 1) by exact_mod_cast this)
      rw [e]; exact_mod_cast unitsOfBits_le.2 (show magBits z ≤ m by omega)
  have above : ∀ z : F, t ≤ (signedUnits z : ℝ) → (unitsOfBits (m + 1) : Int) ≤ signedUnits z := by
    intro z hz
    have hlt : (unitsOfBits m : ℝ) < signedUnits z := h1.trans_le hz
    have hlt' : (unitsOfBits m : Int) < signedUnits z := by exact_mod_cast hlt
    have e := hpos z (by omega)
    rw [e] at hlt' ⊢
    have := unitsOfBits_lt.1 (show unitsOfBits m < unitsOfBits (magBits z) by exact_mod_cast hlt')
    exact_mod_cast unitsOfBits_le.2 (show m + 1 ≤ magBits z by omega)
  have pm : ∀ k, k ≤ m + 1 → signedUnits (packF false k) = unitsOfBits k ∧ isFinite (packF false k) = true := by
    intro k hk
    exact ⟨by rw [signedUnits_packF (by omega)]; rfl, by rw [isFinite_iff, magBits_packF (by omega)]; omega⟩
  have same : ∀ k, signedUnits v = unitsOfBits k → magBits v = k ∧ (isZero v = true ∨ signBit v = false) := by
    intro k hk
    have hmag : magBits v = k := by
      rw [← unitsOfBits_inj]; show units v = _
      rw [← natAbs_signedUnits, hk]; simp
    refine ⟨hmag, ?_⟩
    by_cases hz : isZero v = true
    · exact .inl hz
    · refine .inr ?_
      have := signedUnits_neg_iff (by simpa using hz : isZero v = false)
      rw [hk] at this
      by_contra hc
      exact absurd (this.2 (by simpa using hc)) (by omega)
  constructor
  · rintro ⟨hf, ⟨h3, h4⟩ | ⟨h3, h4⟩⟩
    · have a := h4 (packF false m) (pm m (by omega)).2 (by rw [(pm m (by omega)).1]; exact_mod_cast h1.le)
      rw [(pm m (by omega)).1] at a
      obtain ⟨e1, e2⟩ := same m (le_antisymm (below v h3) a)
      exact ⟨.inl e1, e2⟩
    · have a := h4 (packF false (m + 1)) (pm _ le_rfl).2 (by rw [(pm _ le_rfl).1]; exact_mod_cast h2.le)
      rw [(pm _ le_rfl).1] at a
      obtain ⟨e1, e2⟩ := same (m + 1) (le_antisymm a (above v h3))
      exact ⟨.inr e1, e2⟩
  · rintro ⟨h3, h4⟩
    have e := hvs h4
    have hf : isFinite v = true := by rw [isFinite_iff]; omega
    refine ⟨hf, ?_⟩
    rcases h3 with h3 | h3 <;> rw [h3] at e
    · refine .inl ⟨by rw [e]; exact_mod_cast h1.le, fun z _ hz => by rw [e]; exact below z hz⟩
    · refine .inr ⟨by rw [e]; exact_mod_cast h2.le, fun z _ hz => by rw [e]; exact above z hz⟩

/-- With any number of terms that separates, the test of the cut reads off the enclosure they give. -/
theorem sineAllowed_eq {x v : F} {n : Nat} (h0 : isZero x = false) (h : sinSeparated (valueQ x) n = true) :
    sineAllowed x v = ((magBits v == sinBits (valueQ x) n || magBits v == sinBits (valueQ x) n + 1) &&
      (isZero v || signBit v == decide (sinSum (valueQ x) n < 0))) := by
  have h1 : valueQ x ≠ 0 := fun hc => by simp [valueQ_eq_zero.1 hc] at h0
  obtain ⟨e1, e2⟩ := sinBits_eq h1 h
  unfold sineAllowed
  rw [dif_neg h1]
  simp only [e1, e2]

/-- The encoding below the sine is below that of 1. -/
theorem sinBits_lt {q : ℚ} {n : Nat} (h : sinSeparated q n = true) : sinBits q n < magBits F_1 := by
  obtain ⟨h1, -, -⟩ := sin_of_separated h
  have h2 : |Real.sin q| * oneUnits ≤ 1 * oneUnits :=
    mul_le_mul_of_nonneg_right (Real.abs_sin_le_one _) (Nat.cast_nonneg _)
  rw [one_mul] at h2
  have h3 : unitsOfBits (sinBits q n) < oneUnits := Nat.cast_lt.1 (h1.trans_le h2)
  rw [← units_F_1] at h3
  exact unitsOfBits_lt.1 h3

/-- The test of the cut is property S4. -/
theorem sineAllowed_iff {x v : F} :
    sineAllowed x v = true ↔ Bracketing (Real.sin ((signedUnits x : ℝ) / 2 ^ 1074) * 2 ^ 1074) v := by
  rw [← valueQ_cast]
  unfold sineAllowed
  by_cases h0 : valueQ x = 0
  · rw [dif_pos h0, h0]
    simp only [Rat.cast_zero, Real.sin_zero, zero_mul, Bracketing]
    constructor
    · intro h
      have e := signedUnits_eq_zero.2 h
      exact ⟨isFinite_of_isZero h, .inl ⟨by simp [e], fun z _ hz => by rw [e]; exact_mod_cast hz⟩⟩
    · rintro ⟨-, ⟨h1, h2⟩ | ⟨h1, h2⟩⟩ <;> have := h2 F_0 (by decide) (by rw [signedUnits_F_0]; simp) <;>
        rw [signedUnits_F_0] at this <;> refine signedUnits_eq_zero.1 (le_antisymm ?_ ?_) <;>
        first | assumption | exact_mod_cast h1
  · rw [dif_neg h0]
    have hs := sinSeparated_sinDepth (valueQ x) h0
    obtain ⟨h1, h2, h3⟩ := sin_of_separated hs
    have hm : sinBits (valueQ x) (sinDepth (valueQ x) h0) + 1 < infBits := by
      have := sinBits_lt hs
      have : magBits F_1 < infBits := by decide
      omega
    have hone : (oneUnits : ℝ) = 2 ^ 1074 := by rw [oneUnits_def, Nat.cast_pow]; push_cast; rfl
    rw [← hone]
    simp only [Bool.and_eq_true, Bool.or_eq_true, beq_iff_eq]
    by_cases hn : Real.sin (valueQ x) < 0
    · rw [abs_of_neg hn] at h1 h2
      have hd : decide (sinSum (valueQ x) (sinDepth (valueQ x) h0) < 0) = true := by simpa using h3.1 hn
      rw [hd, ← bracketing_neg_iff, ← neg_mul, bracketing_iff_of_pos h1 h2 hm]
      simp
    · rw [abs_of_nonneg (not_lt.1 hn)] at h1 h2
      have hd : decide (sinSum (valueQ x) (sinDepth (valueQ x) h0) < 0) = false := by
        simpa using fun h => hn (h3.2 h)
      rw [hd, bracketing_iff_of_pos h1 h2 hm]

/-- The value the cut falls back on is one it admits. -/
theorem sineAllowed_sineTowardZero (x : F) : sineAllowed x (sineTowardZero x) = true := by
  unfold sineAllowed sineTowardZero
  by_cases h0 : valueQ x = 0
  · rw [dif_pos h0, dif_pos h0]; decide
  · rw [dif_neg h0, dif_neg h0]
    have hm := sinBits_lt (sinSeparated_sinDepth (valueQ x) h0)
    have : magBits F_1 < 2 ^ 63 := by decide
    simp only [magBits_packF (hm.trans this), signBit_packF (hm.trans this)]
    simp

/-- A bracketing value of a sine lies in `[-1, 1]`. -/
theorem inRange_of_sineAllowed {x v : F} (h : sineAllowed x v = true) : InRange (fNeg F_1) F_1 v := by
  have hb := sineAllowed_iff.1 h
  set t := Real.sin ((signedUnits x : ℝ) / 2 ^ 1074) * 2 ^ 1074 with ht
  have h1 : (signedUnits F_1 : ℝ) = 2 ^ 1074 := by
    rw [signedUnits_of_signBit_false (show signBit F_1 = false by decide), units_F_1, oneUnits_def, Int.cast_natCast,
      Nat.cast_pow]
    push_cast; rfl
  have hp : (0 : ℝ) < 2 ^ 1074 := by positivity
  have ub : t ≤ signedUnits F_1 := by
    rw [h1, ht]; exact mul_le_of_le_one_left hp.le (Real.sin_le_one _)
  have lb : ((signedUnits (fNeg F_1) : Int) : ℝ) ≤ t := by
    rw [signedUnits_fNeg, Int.cast_neg, h1, ht, ← neg_one_mul]
    exact mul_le_mul_of_nonneg_right (Real.neg_one_le_sin _) hp.le
  have f1 : isFinite F_1 = true := by decide
  have f2 : isFinite (fNeg F_1) = true := by decide
  have hv := isNaN_of_isFinite hb.1
  rw [InRange, fLe_iff (isNaN_of_isFinite f2) hv, fLe_iff hv (isNaN_of_isFinite f1)]
  refine ⟨hb.1, ?_⟩
  rcases hb.2 with ⟨h3, h4⟩ | ⟨h3, h4⟩
  · exact ⟨h4 _ f2 lb, by exact_mod_cast h3.trans ub⟩
  · exact ⟨by exact_mod_cast lb.trans h3, h4 _ f1 ub⟩

/-- A finite operand gives a value the cut admits. -/
theorem sineAllowed_cutSine (f : F → F) {x : F} (hx : isFinite x = true) : sineAllowed x (cutSine f x) = true := by
  unfold cutSine
  split
  · next h =>
    have h0 : valueQ F_0 = 0 := valueQ_eq_zero.2 (by decide)
    rw [h]; unfold sineAllowed; rw [dif_pos h0]; decide
  · rw [if_neg (by simp [hx])]
    split
    · assumption
    · exact sineAllowed_sineTowardZero x

/-- The free sine on a finite operand, in `[-1, 1]`. -/
theorem inRange_sine {x : F} (hx : isFinite x = true) : InRange (fNeg F_1) F_1 (sine x) :=
  inRange_of_sineAllowed (sineAllowed_cutSine _ hx)

end Sys2Proof.Laws
end

