-- ==== Sys2Proof/Tests/Slice0.lean ====
section
/-! SUPPORT. Tests with values from `95_test_vectors.md` or worked by hand from the rules, the smoke tests of
WellFormed.lean, and for every statement with hypotheses a witness that they can be met. -/

namespace Sys2Proof.Tests
open Sys2Proof.Machine

/-! ## Helpers -/

/-- The reset state with samples in `SIGI`, `IN_LEN` set to their number, and parameters. -/
def prepared (xs : List Int) (f : ParamRegs → ParamRegs) : State :=
  { State.reset with
    sigi := memOfList (xs.map (BitVec.ofInt 32))
    params := f { ParamRegs.reset with inLen := BitVec.ofNat 32 xs.length } }

/-- The outcome is a next state that passes `p`. -/
def ends (o : Host.Outcome State Fault Refusal) (p : State → Bool) : Bool :=
  match o with
  | .next t => p t
  | .fault _ => false
  | .refused _ => false

theorem next_of_ends {o : Host.Outcome State Fault Refusal} {p : State → Bool} (h : ends o p = true) :
    ∃ t, o = .next t ∧ p t = true := by
  cases o with
  | next t => exact ⟨t, rfl, h⟩
  | fault r => cases h
  | refused r => cases h

/-- The outcome is the fault `f`. -/
def faults (o : Host.Outcome State Fault Refusal) (f : Fault) : Bool :=
  match o with
  | .fault g => decide (g = f)
  | .next _ => false
  | .refused _ => false

/-- The outcome is the refusal `r`. -/
def refuses (o : Host.Outcome State Fault Refusal) (r : Refusal) : Bool :=
  match o with
  | .refused q => decide (q = r)
  | .next _ => false
  | .fault _ => false

theorem refused_of_refuses {o : Host.Outcome State Fault Refusal} {r : Refusal} (h : refuses o r = true) :
    o = .refused r := by
  cases o with
  | next t => cases h
  | fault f => cases h
  | refused q => rw [of_decide_eq_true (show decide (q = r) = true from h)]

theorem fault_of_faults {o : Host.Outcome State Fault Refusal} {f : Fault} (h : faults o f = true) : o = .fault f := by
  cases o with
  | next t => cases h
  | fault g => rw [of_decide_eq_true (show decide (g = f) = true from h)]
  | refused q => cases h

/-- The output samples and `RESULT` are these, and `OUT_LEN` is their number. -/
def gives (ys : List Int) (result : BitVec 64) (t : State) : Bool :=
  t.result == result && t.outLen == BitVec.ofNat 32 ys.length && t.sigo == memOfList (ys.map (BitVec.ofInt 32))

/-! ## Well-formedness: each check refuses an ill-formed term -/

theorem test_check1_reserved_bit_set : rsvZero 0x00000101 = false ∧ wordWellFormed 0x00000101 = false := by decide
theorem test_check2_unassigned_opcode :
    opAssigned 0x00000006 = false ∧ wordWellFormed 0x00000006 = false ∧ wordWellFormed 0x00000000 = false := by decide
theorem test_check3_wide_sample : (HostAccess.write .sigi 0 0x100000000).wellFormed = false ∧
    (HostAccess.write .sigi 0 0xFFFFFFFF).wellFormed = true := by decide

/-! ## Decoding: words written out from R111 and R112 -/

theorem test_decode_apf : decode (0b000000000000000000000000#24 ++ 0b00000001#8) = .ok .apf := by decide
theorem test_decode_difd : decode (0b000000000000000000000000#24 ++ 0b00000010#8) = .ok .difd := by decide
theorem test_decode_schr : decode (0b000000000000000000000000#24 ++ 0b00000011#8) = .ok .schr := by decide
theorem test_decode_rmod : decode (0b000000000000000000000000#24 ++ 0b00000100#8) = .ok .rmod := by decide
theorem test_decode_dsmp : decode (0b000000000000000000000000#24 ++ 0b00000101#8) = .ok .dsmp := by decide
theorem test_decode_illegal : decode 0x00000000 = .error .unassignedOpcode ∧
    decode 0x00000006 = .error .unassignedOpcode ∧ decode 0x000000FF = .error .unassignedOpcode ∧
    decode 0x00000101 = .error .reservedBits ∧ decode 0x80000005 = .error .reservedBits := by decide
theorem test_table_word : decodeTableWord 32 0x04 = some .rmod ∧ decodeTableWord 32 0x06 = none := by decide

/-! ## The floating type -/

/-- V-F2I-1, V-F2I-2, V-F2I-8: truncation toward zero, saturation. -/
theorem test_f2i32 : f2i32 0x4042F33333333333 = 37 ∧ f2i32 0xC042F33333333333 = BitVec.ofInt 32 (-37) ∧
    f2i32 0x41E0000000000000 = 0x7FFFFFFF := by decide +kernel
/-- R29: `WRAP(-TWO_PI) = +0.0`; R28: a tiny negative value gives `+0.0`, not `TWO_PI`. -/
theorem test_wrap : fWrap (fNeg TWO_PI) = F_0 ∧ fWrap 0xBBC79CA10C924223 = F_0 := by decide +kernel
/-- R24: `F_0p9` is the `F` nearest to 0.9, and `1.0 (/) 3.0` rounds to `0x3FD5555555555555`. -/
theorem test_rounding : nearestF false 9 10 = F_0p9 ∧ fDiv F_1 F_3 = 0x3FD5555555555555 := by decide +kernel
/-- The smallest subnormal halved is a tie that goes to the even `+0.0`; the largest finite doubled is `+inf`. -/
theorem test_rounding_ends : fMul 0x0000000000000001 0x3FE0000000000000 = F_0 ∧
    fAdd 0x7FEFFFFFFFFFFFFF 0x7FEFFFFFFFFFFFFF = 0x7FF0000000000000 := by decide +kernel

/-- R27 at `fl(pi)`, where S4 lists 1.2246467991473532e-16: that value is a bracketing one, `+0.0` and its opposite are
not. -/
theorem test_sine_brackets : sineAllowed 0x400921FB54442D18 0x3CA1A62633145C07 = true ∧
    sineAllowed 0x400921FB54442D18 F_0 = false ∧ sineAllowed 0x400921FB54442D18 0xBCA1A62633145C07 = false := by
  have h : sinSeparated (valueQ 0x400921FB54442D18) 24 = true := by decide +kernel
  rw [Laws.sineAllowed_eq (by decide) h, Laws.sineAllowed_eq (by decide) h, Laws.sineAllowed_eq (by decide) h]
  decide +kernel

/-! ## The commands -/

/-- S2 (program P1): zero feedback is a pure delay. -/
theorem test_apf_delay : ends (exec .apf (prepared [10, 20, 30, 40] (fun p => { p with apM := 2 })))
    (gives [0, 0, 10, 20] 0) = true := by decide +kernel
/-- V-APF-4: with 50 % feedback and `M = 1` the untruncated value is fed back. -/
theorem test_apf_feeds_back_untruncated :
    ends (exec .apf (prepared [5, 0, 0, 0] (fun p => { p with apM := 1, dlFeedback := 0x4049000000000000 })))
      (gives [-2, 3, 1, 0] 0) = true := by decide +kernel
/-- V-DIFD-1: one stage of length 2, and five seconds of silence. -/
theorem test_difd : ends (exec .difd (prepared [10, 20, 30, 40] (fun p =>
    { p with sampleRate := 1, dlDelay := 0x409F400000000000, dlStages := 1, divOffset := 1 })))
    (fun t => gives [0, 0, 10, 20, 30, 40, 0, 0, 0] 0 t && t.mtab == memOfList [2#32]) = true := by decide +kernel
/-- V-DIFD-5: `B0 = 2`, so stage 2 of a table with `d = 1` has length 0. -/
theorem test_difd_zero_length : ends (exec .difd (prepared [1] (fun p =>
    { p with sampleRate := 1, dlDelay := 0x409F400000000000, dlStages := 3, divOffset := 1 })))
    (gives [] 0x0000000200001101) = true := by decide +kernel
/-- V-SCHR-4: with answers 700.0 and 460.0 and `sr = 1` stage 0 has length 0, reported after both draws. -/
theorem test_schr_zero_length : ends (exec .schr { prepared [1] (fun p =>
    { p with sampleRate := 1, dlDelay := 0x407F400000000000, dlStages := 2 }) with
      drawScript := [0x4085E00000000000, 0x407CC00000000000] })
    (fun t => gives [] 0x0000000000001101 t && t.drawScript == [] && t.drawCount == 2) = true := by decide +kernel
/-- Two drawn stages of length 1 with zero feedback delay by 2 (R171). -/
theorem test_schr : ends (exec .schr { prepared [7] (fun p =>
    { p with sampleRate := 1, dlDelay := 0x408F400000000000, dlStages := 2 }) with
      drawScript := [0x408F400000000000, 0x4093880000000000] }) (gives [0, 0, 7, 0, 0, 0] 0) = true := by
  decide +kernel

/-- A sine that is right at the phases of S4 (property S5 there). -/
def tableSine (x : F) : F :=
  if x = 0x3FF921FB54442D18 then F_1
  else if x = 0x400921FB54442D18 then 0x3CA1A62633145C07
  else if x = 0x4012D97C7F3321D2 then fNeg F_1
  else F_0

/-- S4 (program P2). -/
theorem test_rmod : ends (ringModulate tableSine (prepared [1000, 1000, 1000, 1000] (fun p =>
    { p with sampleRate := 8, sampleLength := 4, rmMix := F_100, rmFrequency := 0x4000000000000000 })))
    (gives [1000, 0, -1000, 0] 0) = true := by decide +kernel
/-- R202: the input runs out, and the notice is set. -/
theorem test_rmod_exhausted : ends (exec .rmod (prepared [5, -6] (fun p => { p with sampleRate := 8, sampleLength := 3 })))
    (gives [5, -6] 0x10) = true := by decide +kernel
/-- S6. -/
theorem test_dsmp : ends (exec .dsmp (prepared [1, 2, 3, 4, 5, 6, 7, 8] (fun p =>
    { p with sampleRate := 8, newSampleRate := 4 }))) (gives [1, 3, 5, 7] 0) = true := by decide +kernel
/-- S7. -/
theorem test_dsmp_degenerate : ends (exec .dsmp (prepared [1, 2, 3] (fun p =>
    { p with sampleRate := 8, newSampleRate := 9 }))) (gives [] 0x0000000000000602) = true := by decide +kernel

/-- The word the host asks about is the next thing the block runs. -/
theorem test_fetch_word : ends (step (State.reset.withFetchWord 32 0x00000005))
    (fun t => t.result == 0x0000000000000602 && t.cmd == 5) = true := by decide +kernel

/-! ## Witnesses: a state on which every command completes -/

/-- Four samples and parameters with which every command completes; one answer is scripted. -/
def ready : State :=
  { prepared [10, 20, 30, 40] (fun p =>
      { p with
        sampleRate := 1
        sampleLength := 5
        newSampleRate := 1
        rmMix := 0x4049000000000000
        rmAmount := F_1
        dlDelay := 0x409F400000000000
        dlFeedback := 0x4049000000000000
        dlStages := 1
        divOffset := 1
        apM := 2 }) with
    drawScript := [0x409F400000000000] }

def readyInput : List Sample := [10, 20, 30, 40]

theorem ready_caps : ready.caps.Ok := by unfold Capacities.Ok; decide +kernel
theorem ready_input : InputIs ready readyInput := by unfold InputIs; decide +kernel
theorem ready_apf : ApfReady ready := by unfold ApfReady InputFits FeedbackOk; decide +kernel
theorem ready_difd : DifdReady ready := by unfold DifdReady CascadeReady InputFits FeedbackOk; decide +kernel
theorem ready_schr : SchrReady ready := by unfold SchrReady CascadeReady InputFits FeedbackOk; decide +kernel
theorem ready_rmod : RmodReady ready := by unfold RmodReady InRange InputFits; decide +kernel
theorem ready_dsmp : DsmpReady ready := by unfold DsmpReady InputFits; decide +kernel

/-- Every command completes in `ready`: the hypothesis of the statements about a completed command. -/
theorem ready_completes : ∀ i : Instr, ∃ t, exec i ready = .next t ∧ codeOf t.result = 0 := by
  intro i
  have h : ends (exec i ready) (fun t => codeOf t.result == 0) = true := by cases i <;> decide +kernel
  obtain ⟨t, h1, h2⟩ := next_of_ends h
  exact ⟨t, h1, by simpa using h2⟩

/-- Every command is rejected in the reset state: the hypothesis of the statements about a rejected command. -/
theorem reset_rejects : ∀ i : Instr, ∃ t, exec i State.reset = .next t ∧ codeOf t.result ≠ 0 := by
  intro i
  have h : ends (exec i State.reset) (fun t => codeOf t.result != 0) = true := by cases i <;> decide +kernel
  obtain ⟨t, h1, h2⟩ := next_of_ends h
  exact ⟨t, h1, by simpa using h2⟩

/-- `ready` with a parameter changed. -/
def readyBut (f : ParamRegs → ParamRegs) : State := { ready with params := f ready.params }


/-- `ready` with a host access pending. -/
def pending (a : HostAccess) : State := { ready with hostQueue := [a] }

/-! ## Witnesses: decoding, the step and the host port -/

theorem witness_DecodingFollowsTheOpcodeMap :
    (0x00000100 : BitVec 32).extractLsb' 8 24 ≠ 0 ∧ (0x80000001 : BitVec 32).extractLsb' 8 24 ≠ 0 ∧
    (∀ k ∈ [0, 1, 2, 3, 4, 5, 6, 255], (BitVec.ofNat 32 k).extractLsb' 8 24 = 0 ∧
      (BitVec.ofNat 32 k).extractLsb' 0 8 = BitVec.ofNat 8 k) ∧
    5 < ((0x00000006 : BitVec 32).extractLsb' 0 8).toNat := by decide

theorem witness_StepRunsTheDecodedCommand : ∀ i : Instr,
    (pending (.write .reg 0x00 ((encode i).setWidth 64))).hostQueue = .write .reg 0x00 ((encode i).setWidth 64) :: [] ∧
    decode (((encode i).setWidth 64).setWidth 32) = .ok i := by
  intro i; cases i <;> decide

theorem witness_IdleStepChangesNothing : ready.hostQueue = [] := rfl

theorem witness_IllegalWordIsRejected :
    (pending (.write .reg 0x00 0x00000006)).hostQueue = .write .reg 0x00 0x00000006 :: [] ∧
    decode ((0x00000006 : BitVec 64).setWidth 32) = .error .unassignedOpcode ∧
    decode ((0x00000000 : BitVec 64).setWidth 32) = .error .unassignedOpcode ∧
    decode ((0x00000100 : BitVec 64).setWidth 32) = .error .reservedBits := by decide

/-- A listed register, the reserved numbers `0x07` and `0xFF`, a number above, a written element of each memory. -/
theorem witness_HostReadsAnswerAndChangeNothing :
    (pending (.read .reg 0x21)).hostQueue = .read .reg 0x21 :: [] ∧ 0x21 = regNumber .carrierPhase ∧
    (∀ r, 0x07 ≠ regNumber r) ∧ (∀ r, 0xFF ≠ regNumber r) ∧ memRead (pending (.read .sigi 3)).sigi 3 = some 40 ∧
    memRead ({ ready with sigo := memOfList [5#32] } : State).sigo 0 = some 5 ∧
    memRead ({ ready with mtab := memOfList [6#32] } : State).mtab 0 = some 6 := by
  refine ⟨rfl, rfl, ?_, ?_, by decide +kernel, by decide, by decide⟩ <;> intro r <;> cases r <;> decide

/-- An `RW` register of each type, an `RO` register, a reserved number, a number above `0xFF`. -/
theorem witness_HostRegisterWritesFollowTheMap :
    (pending (.write .reg 0x18 7)).hostQueue = .write .reg 0x18 7 :: [] ∧ 0x18 ≠ regNumber .cmd ∧
    (regNumber .apM = 0x18 ∧ regAccess .apM = .rw) ∧ (regNumber .rmWaveform = 0x0A ∧ regAccess .rmWaveform = .rw) ∧
    (regNumber .dlMix = 0x10 ∧ regAccess .dlMix = .rw) ∧ (regNumber .rmMix = 0x08 ∧ regAccess .rmMix = .rw) ∧
    (regNumber .carrierPhase = 0x21 ∧ regAccess .carrierPhase = .ro) ∧ (∀ r, regNumber r ≠ 0x07) ∧
    ∀ r, regNumber r ≠ 0x100 := by
  refine ⟨rfl, by decide, by decide, by decide, by decide, by decide, by decide, ?_, ?_⟩ <;> intro r <;>
    cases r <;> decide

/-- The last element of `SIGI`, and the first index above it. -/
theorem witness_HostWritesOneInputSample :
    (pending (.write .sigi 65535 9)).hostQueue = .write .sigi 65535 9 :: [] ∧ 65535 < ready.caps.sigCap ∧
    (pending (.write .sigi 65536 9)).hostQueue = .write .sigi 65536 9 :: [] ∧ ready.caps.sigCap ≤ 65536 ∧
    3 ≠ 65535 := by decide +kernel

theorem witness_HostWritesToOutputMemoriesAreIgnored :
    (pending (.write .sigo 0 9)).hostQueue = .write .sigo 0 9 :: [] ∧
    (pending (.write .mtab 0 9)).hostQueue = .write .mtab 0 9 :: [] := by decide

theorem witness_LdsigLoadsTheInputSignal :
    ready.caps.Ok ∧ [7, -8].length ≤ ready.caps.sigCap ∧
    ({ ready with hostQueue := scriptAccesses (ldsig [7, -8]) ++ [.read .reg 1] } : State).hostQueue =
      scriptAccesses (ldsig [7, -8]) ++ [.read .reg 1] := ⟨ready_caps, by decide +kernel, rfl⟩

/-- `ready` with two samples of output. -/
def withOutput : State := { ready with sigo := memOfList [3#32, 4#32], outLen := 2 }

theorem withOutput_output : OutputIs withOutput [3, 4] := by
  refine ⟨rfl, by decide +kernel, ?_⟩
  intro j hj
  have h1 : j ≠ 0 := by simp at hj; omega
  have h2 : j ≠ 1 := by simp at hj; omega
  simp [withOutput, memOfList, memOfListFrom, memRead, h1, h2]

theorem witness_MvsigCopiesOutputToInput :
    OutputIs { withOutput with hostQueue := scriptAccesses (mvsig withOutput) } [3, 4] ∧
    [3#32, 4#32].length ≤ withOutput.caps.sigCap ∧
    ({ withOutput with hostQueue := scriptAccesses (mvsig withOutput) } : State).hostQueue =
      scriptAccesses (mvsig { withOutput with hostQueue := scriptAccesses (mvsig withOutput) }) ++ [] := by
  refine ⟨withOutput_output, by decide +kernel, ?_⟩
  rw [List.append_nil]; rfl

/-! ## Witnesses: reset and the floating type -/

theorem witness_ResetRegistersRejectEveryCommand :
    ({ ready with params := ParamRegs.reset } : State).params = ParamRegs.reset := rfl

theorem witness_IntegersConvertExactly : (2 ^ 53 - 1 : Int).natAbs < 2 ^ 53 ∧ (-(2 ^ 53 - 1) : Int).natAbs < 2 ^ 53 := by
  decide

/-- A NaN, both infinities, the last value in range at either end, and the first beyond. -/
theorem witness_ConversionToSampleTruncatesAndSaturates :
    isNaN 0x7FF8000000000000 = true ∧ isInf 0x7FF0000000000000 = true ∧ isInf 0xFFF0000000000000 = true ∧
    isFinite 0x41DFFFFFFFE00000 = true ∧ (signedUnits 0x41DFFFFFFFE00000).tdiv (2 ^ 1074) = 2 ^ 31 - 1 ∧
    (signedUnits 0x41E0000000000000).tdiv (2 ^ 1074) = 2 ^ 31 ∧
    (signedUnits 0xC1E0000000100000).tdiv (2 ^ 1074) = -2 ^ 31 ∧
    (signedUnits 0xC1E0000000200000).tdiv (2 ^ 1074) = -2 ^ 31 - 1 := by decide +kernel

/-- Finite operands with a nonzero divisor; sums and differences that are a zero, of either sign. -/
theorem witness_ArithmeticRoundsToNearestEven :
    isFinite F_1 = true ∧ isFinite F_3 = true ∧ isZero F_3 = false ∧ isZero (fAdd F_1 (fNeg F_1)) = true ∧
    isZero (fAdd (fNeg F_0) (fNeg F_0)) = true ∧ isZero (fSub F_1 F_1) = true ∧
    isZero (fSub (fNeg F_0) F_0) = true := by decide +kernel

theorem witness_InfinitiesAndNaNsFollowIeee :
    isNaN 0x7FF0000000000001 = true ∧ isInf 0x7FF0000000000000 = true ∧ isInf 0xFFF0000000000000 = true ∧
    signBit 0x7FF0000000000000 ≠ signBit 0xFFF0000000000000 ∧ isFinite F_1 = true ∧ isZero F_1 = false ∧
    isNaN F_1 = false ∧ isZero F_0 = true ∧ isZero (fNeg F_0) = true ∧ isNaN 0xFFF0000000000000 = false ∧
    (0xFFF0000000000000 : F) ≠ 0x7FF0000000000000 ∧ F_1 ≠ 0x7FF0000000000000 := by decide +kernel

/-- A remainder that is a zero, one above 0, one below 0, and one whose sum with `TWO_PI` rounds to `TWO_PI`. -/
theorem witness_WrapIsTheEuclideanRemainder :
    isFinite (fNeg TWO_PI) = true ∧ signedUnits (fmodTwoPi (fNeg TWO_PI)) = 0 ∧
    0 < signedUnits (fmodTwoPi F_10) ∧ signedUnits (fmodTwoPi (fNeg F_1)) < 0 ∧
    fAdd (fmodTwoPi (fNeg F_1)) TWO_PI ≠ TWO_PI ∧ isFinite 0xBBC79CA10C924223 = true ∧
    signedUnits (fmodTwoPi 0xBBC79CA10C924223) < 0 ∧ fAdd (fmodTwoPi 0xBBC79CA10C924223) TWO_PI = TWO_PI ∧
    isFinite 0x7FF0000000000000 = false := by decide +kernel

/-- The largest phase below `TWO_PI`, and `+0.0`. -/
theorem witness_WrapStaysBelowTwoPi :
    isFinite 0x401921FB54442D17 = true ∧ fLe F_0 0x401921FB54442D17 = true ∧ fLt 0x401921FB54442D17 TWO_PI = true ∧
    signBit 0x401921FB54442D17 = false ∧ fLe F_0 F_0 = true ∧ fLt F_0 TWO_PI = true ∧ signBit F_0 = false ∧
    isFinite 0x7FF8000000000000 = false := by decide +kernel

/-- A quotient that is finite, one that overflows, and a capacity with a length above it. -/
theorem witness_FloorlenIsTheFloorOfTheQuotient :
    (isFinite F_10 = true ∧ fLt F_0 F_10 = true ∧ 0 < (44100 : U32).toNat ∧
      isFinite (fDiv (fMul F_10 (i2f 44100)) F_1000) = true ∧
      fLe F_0 (fDiv (fMul F_10 (i2f 44100)) F_1000) = true) ∧
    (isFinite 0x7FEFFFFFFFFFFFFF = true ∧ fLt F_0 0x7FEFFFFFFFFFFFFF = true ∧
      isInf (fDiv (fMul 0x7FEFFFFFFFFFFFFF (i2f 44100)) F_1000) = true ∧
      signBit (fDiv (fMul 0x7FEFFFFFFFFFFFFF (i2f 44100)) F_1000) = false) ∧ 4096 < 4097 := by decide +kernel

/-! ## Witnesses: APF -/

/-- The feedback coefficient of `ready`. -/
def readyG : F := fDiv ready.params.dlFeedback F_100

/-- The delayed values of the recurrence on `readyInput` with `M = 2`. -/
def readyD (i : Nat) : F :=
  if i < 2 then F_0
  else fAdd (i2f (readyInput.getD (i - 2) 0).toInt)
    (fMul readyG (fAdd (fMul (fNeg readyG) (i2f (readyInput.getD (i - 2) 0).toInt)) F_0))

/-- The untruncated values of the recurrence. -/
def readyY (i : Nat) : F := fAdd (fMul (fNeg readyG) (i2f (readyInput.getD i 0).toInt)) (readyD i)

theorem witness_StageFollowsTheDelayRecurrence :
    1 ≤ 2 ∧
    (∀ i, i < readyInput.length → readyD i =
      if i < 2 then F_0 else fAdd (i2f (readyInput.getD (i - 2) 0).toInt) (fMul readyG (readyY (i - 2)))) ∧
    ∀ i, i < readyInput.length →
      readyY i = fAdd (fMul (fNeg readyG) (i2f (readyInput.getD i 0).toInt)) (readyD i) := by decide +kernel

theorem witness_ApfCompletesWithTheDelayRecurrence :
    ApfReady ready ∧ readyInput.length = ready.params.inLen.toNat ∧ InputIs ready readyInput ∧
    readyG = fDiv ready.params.dlFeedback F_100 ∧ ready.params.apM.toNat = 2 :=
  ⟨ready_apf, by decide +kernel, ready_input, rfl, rfl⟩

/-- An input longer than `SIG_CAP`. -/
def tooLongInput : State := readyBut (fun p => { p with inLen := 65537 })

theorem tooLongInput_does_not_fit : ¬ InputFits tooLongInput := by unfold InputFits; decide +kernel

/-- Each check of `APF` the first to fail: an input one longer than `SIG_CAP`, `M` 0, `M` one above `DLY_CAP`, a
feedback just above 100. -/
theorem witness_ApfReportsItsFirstFailingCheck :
    ¬ InputFits tooLongInput ∧
    (InputFits (readyBut (fun p => { p with apM := 0 })) ∧ (readyBut (fun p => { p with apM := 0 })).params.apM = 0) ∧
    (InputFits (readyBut (fun p => { p with apM := 4097 })) ∧
      (readyBut (fun p => { p with apM := 4097 })).caps.dlyCap < 4097) ∧
    (InputFits (readyBut (fun p => { p with apM := 4096, dlFeedback := 0x4059000000000001 })) ∧
      4096 ≤ (readyBut (fun p => { p with apM := 4096 })).caps.dlyCap ∧
      ¬ FeedbackOk (readyBut (fun p => { p with apM := 4096, dlFeedback := 0x4059000000000001 }))) := by
  refine ⟨tooLongInput_does_not_fit, ?_⟩
  unfold InputFits FeedbackOk; decide +kernel

theorem witness_ZeroFeedbackIsAPureDelay :
    ApfReady (readyBut (fun p => { p with dlFeedback := fNeg F_0 })) ∧ isZero (fNeg F_0) = true ∧
    readyInput.length = ready.params.inLen.toNat ∧
    InputIs (readyBut (fun p => { p with dlFeedback := fNeg F_0 })) readyInput := by
  unfold ApfReady InputFits FeedbackOk InputIs; decide +kernel

theorem witness_LongBufferStageOnlyScales :
    ApfReady (readyBut (fun p => { p with apM := 4 })) ∧ readyInput.length = ready.params.inLen.toNat ∧
    InputIs (readyBut (fun p => { p with apM := 4 })) readyInput ∧ readyInput.length ≤ 4 := by
  unfold ApfReady InputFits FeedbackOk InputIs; decide +kernel

/-! ## Witnesses: DIFD and SCHR -/

/-- The padded input of `ready`, and after its one stage of length 2. -/
def readyW (k : Nat) : List Sample :=
  if k = 0 then readyInput ++ List.replicate 5 0 else stage (readyInput ++ List.replicate 5 0) 2 readyG

theorem ready_stages :
    readyW 0 = readyInput ++ List.replicate (5 * ready.params.sampleRate.toNat) 0 ∧
    ∀ k, k < [2].length →
      readyW (k + 1) = stage (readyW k) ([2].getD k 0) (fDiv ready.params.dlFeedback F_100) := by
  refine ⟨by decide +kernel, ?_⟩
  intro k hk
  have h : k = 0 := by simp at hk; omega
  subst h
  decide +kernel

theorem witness_DifdCompletesWithTheDivisorCascade :
    ready.caps.Ok ∧ DifdReady ready ∧ readyInput.length = ready.params.inLen.toNat ∧ InputIs ready readyInput ∧
    floorLen ready.params.dlDelay ready.params.sampleRate = .samples 2 ∧
    [2] = (List.range ready.params.dlStages.toNat).map (fun k => 2 / (k + ready.params.divOffset.toNat)) ∧
    (∀ m ∈ [2], 1 ≤ m ∧ m ≤ ready.caps.dlyCap) ∧
    readyW 0 = readyInput ++ List.replicate (5 * ready.params.sampleRate.toNat) 0 ∧
    ∀ k, k < [2].length → readyW (k + 1) = stage (readyW k) ([2].getD k 0) (fDiv ready.params.dlFeedback F_100) :=
  ⟨ready_caps, ready_difd, by decide +kernel, ready_input, by decide +kernel, by decide +kernel,
    fun m hm => by rw [List.mem_singleton.mp hm]; decide +kernel, ready_stages.1, ready_stages.2⟩

theorem witness_SchrCompletesWithTheDrawnCascade :
    ready.caps.Ok ∧ SchrReady ready ∧ ready.drawScript = [0x409F400000000000] ++ [] ∧
    [(0x409F400000000000 : F)].length = ready.params.dlStages.toNat ∧
    (∀ r ∈ [(0x409F400000000000 : F)], isFinite r = true ∧ fLe (fMul F_0p9 ready.params.dlDelay) r = true ∧
      fLt r (fMul F_1p5 ready.params.dlDelay) = true) ∧
    [(0x409F400000000000 : F)].map (fun r => floorLen r ready.params.sampleRate) = [2].map SampleCount.samples :=
  ⟨ready_caps, ready_schr, by decide +kernel, by decide +kernel,
    fun r hr => by rw [List.mem_singleton.mp hr]; decide +kernel, by decide +kernel⟩

/-- Each check of the cascades the first to fail, at the first value that fails it. -/
theorem witness_CascadesReportTheirFirstFailingCheck :
    ¬ InputFits tooLongInput ∧
    (readyBut (fun p => { p with sampleRate := 0 })).params.sampleRate = 0 ∧
    ready.caps.sigCap < ready.params.inLen.toNat + 5 * 13107 ∧
    ready.params.inLen.toNat + 5 * 13106 ≤ ready.caps.sigCap ∧
    isFinite 0x7FF0000000000000 = false ∧ fLe F_0 F_0 = true ∧
    (isFinite ready.params.dlDelay = true ∧ fLt F_0 ready.params.dlDelay = true ∧ InputFits ready) ∧
    ¬ FeedbackOk (readyBut (fun p => { p with dlFeedback := 0xC059000000000001 })) ∧
    (FeedbackOk ready ∧ ready.caps.stageCap < 17) ∧
    (CascadeReady (readyBut (fun p => { p with divOffset := 0 })) ∧
      (readyBut (fun p => { p with divOffset := 0 })).params.divOffset = 0) ∧
    (CascadeReady (readyBut (fun p => { p with dlDelay := 0x7FEFFFFFFFFFFFFF })) ∧
      ¬ SchrReady (readyBut (fun p => { p with dlDelay := 0x7FEFFFFFFFFFFFFF }))) := by
  refine ⟨tooLongInput_does_not_fit, ?_⟩
  unfold SchrReady CascadeReady InputFits FeedbackOk; decide +kernel

/-- A base length that is `TOO_LONG`; stage 0 above `DLY_CAP`; stage 2 of length 0 after two good ones. -/
theorem witness_DifdReportsTheFirstBadStage :
    (DifdReady (readyBut (fun p => { p with sampleRate := 44, dlDelay := 0x7FEFFFFFFFFFFFFF })) ∧
      floorLen 0x7FEFFFFFFFFFFFFF 44 = .tooLong) ∧
    (DifdReady (readyBut (fun p => { p with dlDelay := 0x414F424000000000 })) ∧
      floorLen 0x414F424000000000 1 = .samples 4097 ∧ 4096 < 4097 / (0 + 1)) ∧
    (DifdReady (readyBut (fun p => { p with dlStages := 3 })) ∧ 2 < 3 ∧
      (∀ j, j < 2 → 1 ≤ 2 / (j + 1) ∧ 2 / (j + 1) ≤ ready.caps.dlyCap) ∧ 2 < 2 + 1) := by
  unfold DifdReady CascadeReady InputFits FeedbackOk; decide +kernel

/-- Two answers to draws with `base` 400000.0, and two with `base` 1000.0. -/
theorem answers_meet_the_contract :
    (∀ r ∈ [(0x41186A0000000000 : F), 0x4119CD6000000000], isFinite r = true ∧
      fLe (fMul F_0p9 0x41186A0000000000) r = true ∧ fLt r (fMul F_1p5 0x41186A0000000000) = true) ∧
    ∀ r ∈ [F_1000, (0x408DB00000000000 : F)], isFinite r = true ∧ fLe (fMul F_0p9 F_1000) r = true ∧
      fLt r (fMul F_1p5 F_1000) = true := by
  constructor <;> intro r hr <;> simp only [List.mem_cons, List.not_mem_nil, or_false] at hr <;>
    rcases hr with rfl | rfl <;> decide +kernel

/-- The second of two answers gives a length above `DLY_CAP`, and the second of two gives 0. -/
theorem witness_SchrReportsTheFirstBadStageAfterAllDraws :
    (SchrReady (readyBut (fun p => { p with sampleRate := 10, dlDelay := 0x41186A0000000000, dlStages := 2 })) ∧
      floorLen 0x41186A0000000000 10 = .samples 4000 ∧ floorLen 0x4119CD6000000000 10 = .samples 4227 ∧
      ready.caps.dlyCap < 4227) ∧
    (SchrReady (readyBut (fun p => { p with dlDelay := F_1000, dlStages := 2 })) ∧
      floorLen F_1000 1 = .samples 1 ∧ floorLen 0x408DB00000000000 1 = .samples 0) := by
  unfold SchrReady CascadeReady InputFits FeedbackOk; decide +kernel

theorem witness_UnscriptedDrawsMeetTheContract :
    SchrReady { ready with drawScript := [] } ∧ ({ ready with drawScript := [] } : State).drawScript = [] :=
  ⟨ready_schr, rfl⟩

theorem witness_DrawnLengthsLieBetweenTheBounds :
    ready.caps.Ok ∧ (∃ t, exec .schr ready = .next t ∧ codeOf t.result = 0) ∧ 0 < ready.params.dlStages.toNat ∧
    floorLen (fMul F_0p9 ready.params.dlDelay) ready.params.sampleRate = .samples 1 ∧
    floorLen (fMul F_1p5 ready.params.dlDelay) ready.params.sampleRate = .samples 3 :=
  ⟨ready_caps, ready_completes .schr, by decide +kernel, by decide +kernel, by decide +kernel⟩

theorem witness_CascadeOutputIsFiveSecondsLonger :
    ready.caps.Ok ∧ (∃ t, exec .difd ready = .next t ∧ codeOf t.result = 0) ∧
    ∃ t, exec .schr ready = .next t ∧ codeOf t.result = 0 :=
  ⟨ready_caps, ready_completes .difd, ready_completes .schr⟩

theorem witness_CascadeWithoutStagesOnlyPads :
    ready.caps.Ok ∧ DifdReady (readyBut (fun p => { p with dlStages := 0 })) ∧
    SchrReady (readyBut (fun p => { p with dlStages := 0 })) ∧
    readyInput.length = ready.params.inLen.toNat ∧
    InputIs (readyBut (fun p => { p with dlStages := 0 })) readyInput := by
  refine ⟨ready_caps, ?_⟩
  unfold DifdReady SchrReady CascadeReady InputFits FeedbackOk InputIs; decide +kernel

/-- `ready` with silence as input. -/
def silent : State := { ready with sigi := memOfList [0#32, 0#32, 0#32, 0#32] }

theorem witness_SilenceStaysSilent :
    (∀ i : Instr, i = .apf ∨ i = .difd ∨ i = .schr → ∃ t, exec i silent = .next t ∧ codeOf t.result = 0) ∧
    ∀ j, j < silent.params.inLen.toNat → memRead silent.sigi j = some 0 := by
  refine ⟨fun i _ => ?_, by decide +kernel⟩
  have h : ends (exec i silent) (fun t => codeOf t.result == 0) = true := by cases i <;> decide +kernel
  obtain ⟨t, h1, h2⟩ := next_of_ends h
  exact ⟨t, h1, by simpa using h2⟩

theorem witness_MtabLenIsTheStageCountOrZero :
    (∀ i : Instr, ∃ t, exec i ready = .next t ∧ codeOf t.result = 0) ∧
    ∀ i : Instr, ∃ t, exec i State.reset = .next t ∧ codeOf t.result ≠ 0 := ⟨ready_completes, reset_rejects⟩

/-! ## Witnesses: RMOD -/

/-- The blended values of `ready`, whose rate and frequency are 0, so that both phases stay `+0.0`. -/
def readyBlend (i : Nat) : F :=
  fAdd (fMul (i2f (readyInput.getD i 0).toInt) (fSub F_1 (fDiv ready.params.rmMix F_100)))
    (fMul (fMul (i2f (readyInput.getD i 0).toInt) F_0) (fDiv ready.params.rmMix F_100))

theorem witness_RmodCompletesWithThePhaseRecurrence :
    RmodReady ready ∧ readyInput.length = min ready.params.sampleLength.toNat ready.params.inLen.toNat ∧
    InputIs ready readyInput ∧
    F_0 = fWrap (fAdd F_0 (fDiv (fMul TWO_PI ready.params.rmRate) (i2f ready.params.sampleRate.toNat))) ∧
    (if ready.params.rmWaveform = 0 then sine F_0 else if fLe F_0 (sine F_0) = true then F_1 else F_0) = F_0 ∧
    F_0 = fWrap (fAdd F_0 (fDiv (fMul TWO_PI (fAdd ready.params.rmFrequency
      (fMul (fMul (fMul F_0 ready.params.rmFrequency) F_3) (fDiv ready.params.rmAmount F_10))))
      (i2f ready.params.sampleRate.toNat))) ∧
    ∀ i, i < readyInput.length → readyBlend i =
      fAdd (fMul (i2f (readyInput.getD i 0).toInt) (fSub F_1 (fDiv ready.params.rmMix F_100)))
        (fMul (fMul (i2f (readyInput.getD i 0).toInt) (sine F_0)) (fDiv ready.params.rmMix F_100)) :=
  ⟨ready_rmod, by decide +kernel, ready_input, by decide +kernel, by decide +kernel, by decide +kernel,
    by decide +kernel⟩

/-- Each check of `RMOD` the first to fail, at the first value that fails it. -/
theorem witness_RmodReportsItsFirstFailingCheck :
    ¬ InputFits tooLongInput ∧ InputFits ready ∧
    (readyBut (fun p => { p with sampleRate := 0 })).params.sampleRate = 0 ∧ ready.params.sampleRate ≠ 0 ∧
    ¬ InRange F_0 F_100 0x4059000000000001 ∧ ¬ InRange F_0 F_100 0x8000000000000001 ∧ InRange F_0 F_100 F_100 ∧
    ¬ InRange F_0 F_10 0x4024000000000001 ∧ InRange F_0 F_10 F_10 ∧ isFinite 0x7FF0000000000000 = false ∧
    isFinite 0x7FEFFFFFFFFFFFFF = true := by
  refine ⟨tooLongInput_does_not_fit, ?_⟩
  unfold InputFits InRange; decide +kernel

/-- `ready` without blend and with the largest rate and frequency the two statements admit. -/
def fastest : State :=
  readyBut (fun p => { p with rmMix := F_0, rmRate := 0x7E37E43C8800759C, rmFrequency := 0xFE37E43C8800759C })

theorem fastest_ready : RmodReady fastest ∧ InRange (fNeg 0x7E37E43C8800759C) 0x7E37E43C8800759C fastest.params.rmRate ∧
    InRange (fNeg 0x7E37E43C8800759C) 0x7E37E43C8800759C fastest.params.rmFrequency := by
  unfold RmodReady InRange InputFits; decide +kernel

theorem witness_MixZeroIsTheIdentity :
    RmodReady fastest ∧ isZero fastest.params.rmMix = true ∧
    readyInput.length = min fastest.params.sampleLength.toNat fastest.params.inLen.toNat ∧
    InputIs fastest readyInput := ⟨fastest_ready.1, by decide +kernel, by decide +kernel, ready_input⟩

theorem witness_PhasesNeverLeaveTheCircle : RmodReady fastest ∧ ∃ t, exec .rmod fastest = .next t := by
  refine ⟨fastest_ready.1, ?_⟩
  have h : ends (exec .rmod fastest) (fun _ => true) = true := by decide +kernel
  obtain ⟨t, h1, -⟩ := next_of_ends h
  exact ⟨t, h1⟩

theorem witness_OscillatorsIgnoreTheInput :
    silent.params = ready.params ∧ silent.caps = ready.caps ∧
    (∃ t, exec .rmod ready = .next t ∧ codeOf t.result = 0) ∧ ∃ t, exec .rmod silent = .next t := by
  refine ⟨rfl, rfl, ready_completes .rmod, ?_⟩
  have h : ends (exec .rmod silent) (fun _ => true) = true := by decide +kernel
  obtain ⟨t, h1, -⟩ := next_of_ends h
  exact ⟨t, h1⟩

/-- `SAMPLE_LENGTH` one above `IN_LEN`, and equal to it. -/
theorem witness_NoticeExactlyWhenTheInputRanOut :
    (∃ t, exec .rmod ready = .next t ∧ codeOf t.result = 0) ∧
    ready.params.inLen.toNat < ready.params.sampleLength.toNat ∧
    (∃ t, exec .rmod (readyBut (fun p => { p with sampleLength := 4 })) = .next t) := by
  refine ⟨ready_completes .rmod, by decide +kernel, ?_⟩
  have h : ends (exec .rmod (readyBut (fun p => { p with sampleLength := 4 }))) (fun _ => true) = true := by
    decide +kernel
  obtain ⟨t, h1, -⟩ := next_of_ends h
  exact ⟨t, h1⟩

/-! ## Witnesses: DSMP -/

/-- `ready` with rates of ratio 3 between them: indices 0 and 3 are taken. -/
def byThree : State := readyBut (fun p => { p with sampleRate := 10, newSampleRate := 3 })

theorem witness_DsmpCompletesWithEveryFactorthSample :
    DsmpReady byThree ∧ 3 = byThree.params.sampleRate.toNat / byThree.params.newSampleRate.toNat ∧
    readyInput.length = byThree.params.inLen.toNat ∧
    (memRead byThree.sigi (0 * 3) = some (readyInput.getD (0 * 3) 0) ∧
      memRead byThree.sigi (1 * 3) = some (readyInput.getD (1 * 3) 0)) ∧
    ∀ j, j < 2 ↔ j * 3 < readyInput.length := by
  refine ⟨by unfold DsmpReady InputFits; decide +kernel, by decide +kernel, by decide +kernel, by decide +kernel, ?_⟩
  intro j
  have : readyInput.length = 4 := rfl
  rw [this]; omega

/-- `NEW_SAMPLE_RATE` 0, one above `SAMPLE_RATE`, and an input that does not fit. -/
theorem witness_DegenerateResampleIsReported :
    InputFits ready ∧ (readyBut (fun p => { p with newSampleRate := 0 })).params.newSampleRate = 0 ∧
    ready.params.sampleRate.toNat < (readyBut (fun p => { p with newSampleRate := 2 })).params.newSampleRate.toNat ∧
    ¬ InputFits tooLongInput := by
  refine ⟨by unfold InputFits; decide +kernel, rfl, by decide +kernel, tooLongInput_does_not_fit⟩

/-- Equal rates, and 48000 to 44100. -/
theorem witness_RatioBelowTwoCopiesTheInput :
    DsmpReady ready ∧ ready.params.sampleRate.toNat < 2 * ready.params.newSampleRate.toNat ∧
    readyInput.length = ready.params.inLen.toNat ∧ InputIs ready readyInput ∧ 48000 < 2 * 44100 :=
  ⟨ready_dsmp, by decide +kernel, by decide +kernel, ready_input, by decide⟩

/-! ## Witnesses: rules over all commands -/

theorem witness_CommandsKeepWhatTheyDoNotWrite : ∀ i : Instr, ∃ t, exec i ready = .next t ∧ codeOf t.result = 0 :=
  ready_completes

theorem witness_CodesComeFromTheirCommands :
    (∀ i : Instr, ∃ t, exec i ready = .next t ∧ codeOf t.result = 0) ∧
    ends (exec .rmod State.reset) (fun t => codeOf t.result == 1) = true ∧
    ends (exec .dsmp State.reset) (fun t => codeOf t.result == 2) = true :=
  ⟨ready_completes, by decide +kernel, by decide +kernel⟩

theorem witness_RejectionsArePrecise : ∀ i : Instr, ∃ t, exec i State.reset = .next t ∧ codeOf t.result ≠ 0 :=
  reset_rejects

/-- `ready` with every register no command reads changed, another output, another element of `SIGI`. -/
def readyElsewhere : State :=
  { ready with
    result := 0x602
    lfoPhase := F_1
    sigi := memWrite ready.sigi 9 5
    sigo := memOfList [1#32]
    outLen := 1
    params := { ready.params with dlMix := 1, dlWidth := 2, dlHighPass := 3, dlLowPass := 4 } }

theorem witness_ReportDependsOnlyOnTheOperands : ∀ i : Instr, SameOperands i ready readyElsewhere := by
  intro i
  cases i <;> unfold SameOperands SameInput <;> decide +kernel

theorem witness_PassThroughFieldsHaveNoEffect : ∀ i : Instr, ∃ t, exec i ready = .next t ∧ codeOf t.result = 0 :=
  ready_completes

/-- An input element that is not written, and a scripted answer equal to the excluded upper bound. -/
theorem witness_StopsOnlyAtUnwrittenInputOrBadDraws :
    (∀ i : Instr, exec i { ready with sigi := [] } = .fault (.unwrittenSample 0)) ∧
    exec .schr { ready with drawScript := [0x40A7700000000000] } = .refused (.drawOutsideContract 0x40A7700000000000) := by
  refine ⟨fun i => fault_of_faults ?_, refused_of_refuses ?_⟩
  · cases i <;> decide +kernel
  · decide +kernel

/-- `ready` without its last sample, the last that `APF`, `DIFD`, `SCHR` and `RMOD` read. -/
def lastMissing : State := { ready with sigi := memOfList [1#32, 2#32, 3#32] }

/-- `byThree` with the two samples it takes at 0 and 3, the second not written, nor the ones between. -/
def thirdMissing : State := { byThree with sigi := memOfList [1#32] }

/-- The last sample a command reads is not written. -/
theorem witness_UnwrittenInputFaults :
    (∀ k, k < 3 → (memRead lastMissing.sigi k).isSome = true) ∧ memRead lastMissing.sigi 3 = none ∧
    ApfReady lastMissing ∧ RmodReady lastMissing ∧ DifdReady lastMissing ∧ SchrReady lastMissing ∧
    3 < lastMissing.params.inLen.toNat ∧
    3 < min lastMissing.params.sampleLength.toNat lastMissing.params.inLen.toNat :=
  ⟨by decide +kernel, by decide +kernel, ready_apf, ready_rmod, ready_difd, ready_schr, by decide +kernel,
    by decide +kernel⟩

/-- The table of `DIFD` and the one answer of `SCHR`, both of length 2. -/
theorem witness_UnwrittenInputFaults_tables :
    (floorLen lastMissing.params.dlDelay lastMissing.params.sampleRate = .samples 2 ∧
      ∀ k, k < lastMissing.params.dlStages.toNat → 1 ≤ 2 / (k + lastMissing.params.divOffset.toNat) ∧
        2 / (k + lastMissing.params.divOffset.toNat) ≤ lastMissing.caps.dlyCap) ∧
    lastMissing.drawScript = [0x409F400000000000] ++ [] ∧
    [(0x409F400000000000 : F)].length = lastMissing.params.dlStages.toNat ∧
    (∀ r ∈ [(0x409F400000000000 : F)], isFinite r = true ∧ fLe (fMul F_0p9 lastMissing.params.dlDelay) r = true ∧
      fLt r (fMul F_1p5 lastMissing.params.dlDelay) = true) ∧
    [(0x409F400000000000 : F)].map (fun r => floorLen r lastMissing.params.sampleRate) =
      [2].map SampleCount.samples ∧ ∀ m ∈ [2], 1 ≤ m ∧ m ≤ lastMissing.caps.dlyCap :=
  ⟨by decide +kernel, by decide +kernel, by decide +kernel,
    fun r hr => by rw [List.mem_singleton.mp hr]; decide +kernel, by decide +kernel,
    fun m hm => by rw [List.mem_singleton.mp hm]; decide +kernel⟩

theorem witness_UnwrittenInputFaults_dsmp :
    DsmpReady thirdMissing ∧ 3 = thirdMissing.params.sampleRate.toNat / thirdMissing.params.newSampleRate.toNat ∧
    (∀ i, i < 1 → (memRead thirdMissing.sigi (i * 3)).isSome = true) ∧ memRead thirdMissing.sigi (1 * 3) = none ∧
    1 * 3 < thirdMissing.params.inLen.toNat :=
  ⟨by unfold DsmpReady InputFits; decide +kernel, by decide +kernel, by decide +kernel, by decide +kernel,
    by decide +kernel⟩

/-- A state in mid-session, with output, a table, a phase and a command pending, meets the invariant and steps. -/
def session : State :=
  { withOutput with
    mtab := memOfList [2#32]
    mtabLen := 1
    lfoPhase := F_1
    hostQueue := [.write .reg 0x00 0x00000005] }

theorem session_inv : session.Inv where
  caps := ready_caps
  sigi := by unfold Mem.wf; decide +kernel
  sigo := by decide +kernel
  outLen := by decide +kernel
  mtab := by decide +kernel
  mtabLen := by decide +kernel
  mtabEntries := by decide +kernel
  dly := ⟨List.Pairwise.nil, by intro p hp; cases hp⟩
  result := ⟨.ok, false, 0, 0, by decide +kernel, by decide, by decide, by decide⟩
  lfoPhase := by unfold PhaseOk; decide +kernel
  carrierPhase := by unfold PhaseOk; decide +kernel

theorem witness_EveryStepKeepsTheInvariant : session.Inv ∧ ∃ t, step session = .next t ∧ t.outLen = 4 := by
  refine ⟨session_inv, ?_⟩
  have h : ends (step session) (fun t => t.outLen == 4) = true := by decide +kernel
  obtain ⟨t, h1, h2⟩ := next_of_ends h
  exact ⟨t, h1, by simpa using h2⟩

end Sys2Proof.Tests
end

/-! The statements about the floating type and the sine (`00_scope.md` R26, R27, R28, R30): first what each conversion
answers, as lemmas about the model's functions, then the obligations. -/

namespace Sys2Proof.Proofs
open Sys2Proof.Machine Sys2Proof.Laws

/-! ## Truncation (R26) -/

theorem f2i32_of_isNaN {y : F} (h : isNaN y = true) : f2i32 y = 0 := by simp [f2i32, h]

theorem cast_oneUnits : (oneUnits : Int) = 2 ^ 1074 := by rw [oneUnits_def, cast_two_pow]

/-- An infinity counts as a whole number beyond the range of a sample (`2^1024`), with its sign. -/
theorem tdiv_oneUnits_of_isInf {y : F} (h : isInf y = true) :
    ∃ p : Int, 2 ^ 31 ≤ p ∧ (signedUnits y).tdiv oneUnits = if signBit y then -p else p := by
  have hone : (oneUnits : Int) ≠ 0 := by exact_mod_cast oneUnits_pos.ne'
  have hsplit : (2 : Int) ^ 2098 = 2 ^ 1024 * oneUnits := by
    rw [cast_oneUnits]; exact pow_add 2 1024 1074
  have hbig : (2 : Int) ^ 31 ≤ 2 ^ 1024 := pow_le_pow_right₀ (by norm_num) (by norm_num)
  rw [signedUnits_isInf h, hsplit]
  generalize (2 : Int) ^ 1024 = p at hbig ⊢
  refine ⟨p, hbig, ?_⟩
  split
  · rw [← neg_mul, Int.mul_tdiv_cancel _ hone]
  · rw [Int.mul_tdiv_cancel _ hone]

theorem f2i32_of_isInf {y : F} (h : isInf y = true) :
    (f2i32 y).toInt = if signBit y then -2 ^ 31 else 2 ^ 31 - 1 := by
  obtain ⟨p, hbig, hdiv⟩ := tdiv_oneUnits_of_isInf h
  rw [f2i32_of_not_isNaN (isNaN_of_isInf h), hdiv]
  split <;> omega

/-- Settles O17: a value that is no NaN is clamped to the range of a sample, and an infinity lies beyond its end. -/
theorem conversionToSampleTruncatesAndSaturates : Obligations.ConversionToSampleTruncatesAndSaturates := by
  intro y
  refine ⟨f2i32_of_isNaN, f2i32_of_isInf, ?_⟩
  rintro hfin t rfl
  have hclamp := f2i32_of_not_isNaN (isNaN_of_isFinite hfin)
  rw [← cast_oneUnits]
  generalize (signedUnits y).tdiv oneUnits = t at hclamp ⊢
  omega

/-! ## The phase wrap (R28) -/

theorem unitsOfBits_magBits (x : F) : unitsOfBits (magBits x) = units x := rfl

/-- The remainder `WRAP` works with is the truncated remainder of the exact values. -/
theorem signedUnits_fmodTwoPi {x : F} (hx : isFinite x = true) :
    signedUnits (fmodTwoPi x) = (signedUnits x).tmod (signedUnits TWO_PI) := by
  obtain ⟨-, hunits, hsign⟩ := fmodTwoPi_spec hx
  rw [signedUnits_of_signBit_false signBit_TWO_PI, signedUnits, hunits, hsign, signedUnits]
  split
  · rw [Int.neg_tmod, Int.ofNat_tmod]
  · rw [Int.ofNat_tmod]

/-- `WRAP` of a finite value, by the sign of the remainder. -/
theorem fWrap_of_isFinite {x : F} (hx : isFinite x = true) :
    fWrap x = if signedUnits (fmodTwoPi x) = 0 then F_0
      else if 0 < signedUnits (fmodTwoPi x) then fmodTwoPi x
      else if fLt (fAdd (fmodTwoPi x) TWO_PI) TWO_PI then fAdd (fmodTwoPi x) TWO_PI else F_0 := by
  have hr := isNaN_of_isFinite (fmodTwoPi_spec hx).1
  have h0 : isNaN F_0 = false := by decide
  simp only [fWrap, hx, fEq_iff hr h0, fLt_iff h0 hr, signedUnits_F_0, Bool.not_true, Bool.false_eq_true, if_false]

theorem not_fLt_self (x : F) : fLt x x = false := by simp [fLt]

/-- The exact sum of a negative remainder and `TWO_PI` lies in `(0, TWO_PI)`, so its rounding can only reach `TWO_PI`. -/
theorem fAdd_TWO_PI_of_neg {r : F} (hr : isFinite r = true) (hlt : units r < units TWO_PI) (hneg : signedUnits r < 0) :
    signBit (fAdd r TWO_PI) = false ∧ magBits (fAdd r TWO_PI) ≤ magBits TWO_PI := by
  have habs := natAbs_signedUnits r
  have hpi := signedUnits_of_signBit_false signBit_TWO_PI
  rw [fAdd_finite hr isFinite_TWO_PI]
  constructor
  · rw [signBit_roundUnits, if_neg (by omega), decide_eq_false]; omega
  · rw [roundUnits_eq, magBits_roundF]
    refine roundMag_le_of_le one_pos ?_ magBits_TWO_PI_lt.le
    rw [Nat.mul_one, unitsOfBits_magBits]
    omega

theorem fLt_fAdd_TWO_PI_iff {r : F} (hr : isFinite r = true) (hlt : units r < units TWO_PI) (hneg : signedUnits r < 0) :
    fLt (fAdd r TWO_PI) TWO_PI = true ↔ fAdd r TWO_PI ≠ TWO_PI := by
  obtain ⟨hsign, hmag⟩ := fAdd_TWO_PI_of_neg hr hlt hneg
  constructor
  · intro h he
    rw [he, not_fLt_self] at h
    cases h
  · intro hne
    have hmag' : magBits (fAdd r TWO_PI) ≠ magBits TWO_PI :=
      fun he => hne (eq_of_sign_mag (hsign.trans signBit_TWO_PI.symm) he)
    exact fLt_TWO_PI hsign (lt_of_le_of_ne hmag hmag')

/-- Settles O21, with the model's `fmodTwoPi` as the exact remainder. -/
theorem wrapIsTheEuclideanRemainder : Obligations.WrapIsTheEuclideanRemainder := by
  intro x
  refine ⟨fun hx => ?_, fWrap_of_not_isFinite⟩
  obtain ⟨hfin, hunits, hsign⟩ := fmodTwoPi_spec hx
  have hlt : units (fmodTwoPi x) < units TWO_PI := by
    rw [hunits]; exact Nat.mod_lt _ units_TWO_PI_pos
  have hwrap := fWrap_of_isFinite hx
  refine ⟨fmodTwoPi x, hfin, hsign, signedUnits_fmodTwoPi hx, fun h0 => ?_, fun hpos => ?_, fun hneg => ?_⟩
  · rw [hwrap, if_pos h0]
  · rw [hwrap, if_neg hpos.ne', if_pos hpos]
  · rw [if_neg hneg.ne, if_neg hneg.not_gt] at hwrap
    have hsum := fLt_fAdd_TWO_PI_iff hfin hlt hneg
    refine ⟨fun hne => ?_, fun he => ?_⟩
    · rw [hwrap, if_pos (hsum.2 hne)]
      exact ⟨rfl, hsum.2 hne⟩
    · rw [hwrap, he, not_fLt_self, if_neg Bool.false_ne_true]

/-! ## Lengths (R30) -/

theorem floorLen_of_isFinite {t : F} {sr : U32} (h : isFinite (fDiv (fMul t (i2f sr.toNat)) F_1000) = true) :
    floorLen t sr = .samples (units (fDiv (fMul t (i2f sr.toNat)) F_1000) / oneUnits) := by
  simp only [floorLen, h, if_true]

theorem floorLen_of_isInf {t : F} {sr : U32} (h : isInf (fDiv (fMul t (i2f sr.toNat)) F_1000) = true) :
    floorLen t sr = .tooLong := by
  simp only [floorLen, isFinite_of_isInf h, Bool.false_eq_true, if_false]

theorem signedUnits_of_fLe_zero {q : F} (h : fLe F_0 q = true) : signedUnits q = units q := by
  have hle := (fLe_iff (not_isNaN_of_fLe h).1 (not_isNaN_of_fLe h).2).1 h
  rw [signedUnits_F_0] at hle
  have := natAbs_signedUnits q
  omega

/-- Whole units of 1 in a value: the floor and the bounds that fix it. -/
theorem units_div_oneUnits_bounds (q : F) :
    units q / oneUnits * 2 ^ 1074 ≤ units q ∧ units q < (units q / oneUnits + 1) * 2 ^ 1074 := by
  rw [← oneUnits_def]
  exact ⟨Nat.div_mul_le_self _ _, Nat.lt_mul_of_div_lt (Nat.lt_succ_self _) oneUnits_pos⟩

/-- Dividing by a finite nonzero value makes no NaN, and the signs combine. -/
theorem fDiv_not_isNaN {a b : F} (ha : isNaN a = false) (hb : isFinite b = true) (hz : isZero b = false) :
    isNaN (fDiv a b) = false ∧ signBit (fDiv a b) = (signBit a ^^ signBit b) := by
  rcases classes a with h | h | h
  · rw [fDiv_finite h hb hz]
    exact ⟨isNaN_roundF _ _ _, signBit_roundF _ _ _⟩
  · have e : fDiv a b = packF (signBit a ^^ signBit b) infBits := by
      simp [fDiv, ha, h, isNaN_of_isFinite hb, isInf_of_isFinite hb]
    rw [e, isNaN, magBits_packF infBits_lt]
    exact ⟨by simp, signBit_packF infBits_lt⟩
  · rw [ha] at h; cases h

/-- The quotient of `FLOORLEN` on the rule's domain. -/
theorem floorLen_quotient {t : F} {sr : U32} (ht : isFinite t = true) (hpos : fLt F_0 t = true) :
    isNaN (fDiv (fMul t (i2f sr.toNat)) F_1000) = false ∧
      signBit (fDiv (fMul t (i2f sr.toNat)) F_1000) = false := by
  obtain ⟨hn, hns, -⟩ := i2f_nat (n := sr.toNat) (by omega)
  have hmul := fMul_finite ht hn
  rw [(units_pos_of_fLt hpos).2, hns] at hmul
  have hnan : isNaN (fMul t (i2f sr.toNat)) = false := hmul ▸ isNaN_roundF _ _ _
  have hsign : signBit (fMul t (i2f sr.toNat)) = false := hmul ▸ signBit_roundF _ _ _
  have hdiv := fDiv_not_isNaN (b := F_1000) hnan (by decide) (by decide)
  rw [hsign] at hdiv
  exact ⟨hdiv.1, hdiv.2.trans (by decide)⟩

theorem scanTable_tooLong (cap k m : Nat) (rest : List SampleCount) (h : cap < m) :
    scanTable cap k (.tooLong :: rest) = scanTable cap k (.samples m :: rest) := by
  simp only [scanTable, if_pos h]

/-- Settles O23: the floor is taken of the quotient's units, and a table scan rejects `TOO_LONG` as it does a length
above the capacity. -/
theorem floorlenIsTheFloorOfTheQuotient : Obligations.FloorlenIsTheFloorOfTheQuotient := by
  refine ⟨?_, scanTable_tooLong⟩
  rintro t q sr rfl
  refine ⟨fun hfin hle => ?_, fun hinf _ => floorLen_of_isInf hinf, fun ht hpos _ => floorLen_quotient ht hpos⟩
  refine ⟨_, floorLen_of_isFinite hfin, ?_⟩
  rw [signedUnits_of_fLe_zero hle]
  exact_mod_cast units_div_oneUnits_bounds _

/-! ## The sine (R27) -/

theorem cutSine_of_not_isFinite (f : F → F) {x : F} (hx : isFinite x = false) : isNaN (cutSine f x) = true := by
  have h0 : x ≠ F_0 := by
    rintro rfl
    exact absurd hx (by decide)
  rw [cutSine, if_neg h0, hx, Bool.not_false, if_pos rfl]
  split
  · assumption
  · exact isNaN_nanResult _ _ _

/-- Whatever function is cut has S1 to S4. -/
theorem sineSpec_cutSine (f : F → F) : SineSpec (cutSine f) := by
  refine ⟨?zero, ?bounded, ?nan, ?brackets⟩
  case zero => exact if_pos rfl
  case bounded => exact fun x hx => inRange_of_sineAllowed (sineAllowed_cutSine f hx)
  case nan => exact fun x hx => cutSine_of_not_isFinite f hx
  case brackets => exact fun x hx => sineAllowed_iff.1 (sineAllowed_cutSine f hx)

/-- Settles O24: the model's sine is a cut one. -/
theorem modelSineMeetsItsRequirements : Obligations.ModelSineMeetsItsRequirements := sineSpec_cutSine Config.sineRaw

end Sys2Proof.Proofs

/-! The statements about the architectural state (`10_state.md` R48, R58, R70). What a command leaves in `MTAB_LEN` and in
`RESULT.SIGX` is read off the inversion lemma `exec_next`: it was rejected, or it completed. -/

namespace Sys2Proof.Proofs
open Sys2Proof.Machine Sys2Proof.Laws

/-! ## How an end is reported (R46, R47) -/

theorem codeOf_resultWord_eq_zero {c : ResultCode} {x : Bool} {p : BitVec 8} {st : BitVec 32} :
    codeOf (resultWord c x p st) = 0 ↔ c = .ok := by
  rw [codeOf_resultWord, bits_eq_zero]

theorem ne_ok_of_cascade_rejection {r : Rejection} (h : r.code = .invalidParameter ∨ r.code = .capacityExceeded) :
    r.code ≠ .ok := by
  rcases h with h | h <;> simp [h]

/-! ## `MTAB_LEN` (R58) -/

/-- What R58 asks of the end `t` of a cascade command with the stage count `n`. -/
def ReportsStageCount (n : U32) (t : State) : Prop :=
  (codeOf t.result = 0 → t.mtabLen = n) ∧ (codeOf t.result ≠ 0 → t.mtabLen = 0)

theorem reportsStageCount_rejectCascade {r : Rejection} (hr : r.code ≠ .ok) (n : U32) (s : State) :
    ReportsStageCount n (rejectCascade r s) := by
  constructor
  · intro h0
    rw [rejectCascade_result, codeOf_resultWord_eq_zero] at h0
    exact absurd h0 hr
  · intro _
    exact rejectCascade_mtabLen r s

theorem reportsStageCount_complete {lens : List Nat} {n : U32} (hlen : lens.length = n.toNat) (out : List Sample)
    (x : Bool) (s : State) : ReportsStageCount n (complete out x (setStageTable lens s)) := by
  constructor
  · intro _
    rw [complete_mtabLen, setStageTable_mtabLen, hlen, BitVec.ofNat_toNat, BitVec.setWidth_eq]
  · intro h0
    rw [complete_result] at h0
    exact absurd (codeOf_resultWord_eq_zero.2 rfl) h0

theorem reportsStageCount_of_cascade {i : Instr} {s t : State} (hi : i = .difd ∨ i = .schr) (h : Ends s i t) :
    ReportsStageCount s.params.dlStages t := by
  cases h with
  | rejectedCascade i r _ hr => exact reportsStageCount_rejectCascade (ne_ok_of_cascade_rejection hr) _ _
  | rejectedAfterDraws r _ hr => exact reportsStageCount_rejectCascade (ne_ok_of_cascade_rejection hr) _ _
  | difd x lens _ _ _ _ hlen => exact reportsStageCount_complete hlen _ _ _
  | schr x lens rs _ _ _ _ _ hlen => exact reportsStageCount_complete hlen _ _ _
  | rejected i r hi' => rcases hi with rfl | rfl <;> simp at hi'
  | apf | rmod | dsmp => simp at hi

theorem mtabLen_of_not_cascade {i : Instr} {s t : State} (hd : i ≠ .difd) (hs : i ≠ .schr) (h : Ends s i t) :
    t.mtabLen = s.mtabLen := by
  cases h with
  | rejectedCascade i r hi => exact absurd hi (not_or.2 ⟨hd, hs⟩)
  | rejectedAfterDraws | schr => exact absurd rfl hs
  | difd => exact absurd rfl hd
  | rejected | apf | rmod | dsmp => simp

/-- Settles O42, by the ways a command can end. -/
theorem mtabLenIsTheStageCountOrZero : Obligations.MtabLenIsTheStageCountOrZero := by
  refine ⟨rfl, rfl, rfl, rfl, fun i s t h => ⟨fun hi => ?_, fun hd hs => ?_⟩, illegalCommand_mtabLen⟩
  · exact reportsStageCount_of_cascade hi (exec_next h)
  · exact mtabLen_of_not_cascade hd hs (exec_next h)

/-! ## The notice (R48) -/

theorem sigxOf_resultWord_eq_one {c : ResultCode} {x : Bool} {p : BitVec 8} {st : BitVec 32} :
    sigxOf (resultWord c x p st) = 1 ↔ x = true := by
  rw [sigxOf_resultWord]
  cases x <;> decide

theorem signalExhausted_iff {s : State} :
    signalExhausted s = true ↔ s.params.inLen.toNat < s.params.sampleLength.toNat := decide_eq_true_iff

/-- Only a completed `RMOD` hands on a notice: a rejection and the end of any other command write `SIGX` as 0. -/
theorem sigx_iff_of_ends {i : Instr} {s t : State} (h : Ends s i t) :
    sigxOf t.result = 1 ↔
      i = .rmod ∧ codeOf t.result = 0 ∧ s.params.inLen.toNat < s.params.sampleLength.toNat := by
  cases h with
  | rejected i r _ hr =>
    rw [reject_result, sigxOf_resultWord_eq_one, codeOf_resultWord_eq_zero]
    simp [hr]
  | rejectedCascade i r hi =>
    rw [rejectCascade_result, sigxOf_resultWord_eq_one]
    rcases hi with rfl | rfl <;> simp
  | rmod =>
    rw [complete_result, sigxOf_resultWord_eq_one, codeOf_resultWord_eq_zero, signalExhausted_iff]
    simp
  | rejectedAfterDraws =>
    rw [rejectCascade_result, sigxOf_resultWord_eq_one]
    simp
  | apf | difd | schr | dsmp =>
    rw [complete_result, sigxOf_resultWord_eq_one]
    simp

/-- Settles O48, by the ways a command can end. -/
theorem noticeExactlyWhenTheInputRanOut : Obligations.NoticeExactlyWhenTheInputRanOut := by
  refine ⟨fun i s t h => sigx_iff_of_ends (exec_next h), fun s => ?_⟩
  rw [illegalCommand_result, sigxOf_resultWord]
  rfl

/-! ## Reset (R70) -/

theorem regRead_reset (r : RegName) : regRead r State.reset = 0 := by cases r <;> rfl

/-- Settles O13: the reset value of each register, by its name, and four memories that list no element. -/
theorem resetClearsRegistersAndNoMemory : Obligations.ResetClearsRegistersAndNoMemory := by
  exact ⟨regRead_reset, by decide, by decide, by decide,
    fun j => ⟨memRead_nil j, memRead_nil j, memRead_nil j, memRead_nil j⟩⟩

end Sys2Proof.Proofs

/-! The statements about decoding (`30_encoding.md` R111 to R114): one lemma for each way `decode` ends, then the opcode
map both ways, the `OP` values it assigns and those it does not. -/

namespace Sys2Proof.Proofs

/-! ## The three ends of `decode` (R114) -/

theorem decode_of_rsvField_ne_zero {w : BitVec 32} (h : rsvField w ≠ 0) : decode w = .error .reservedBits :=
  if_pos h

theorem decode_of_opcode_some {w : BitVec 32} {i : Instr} (hr : rsvField w = 0)
    (ho : opcode (opField w).toNat = some i) : decode w = .ok i := by
  rw [decode, if_neg (not_not.2 hr), ho]

theorem decode_of_opcode_none {w : BitVec 32} (hr : rsvField w = 0) (ho : opcode (opField w).toNat = none) :
    decode w = .error .unassignedOpcode := by
  rw [decode, if_neg (not_not.2 hr), ho]

/-! ## The opcode map (R112) -/

@[simp] theorem opcode_opValue (i : Instr) : opcode (opValue i).toNat = some i := by cases i <;> rfl

/-- The `OP` values R112 assigns are 1 to 5. -/
theorem opcode_eq_none_iff {n : Nat} : opcode n = none ↔ n = 0 ∨ 5 < n := by
  match n with
  | 0 | _ + 6 => simp [opcode]
  | 1 | 2 | 3 | 4 | 5 => simp [opcode]

theorem decode_of_opField_eq_opValue {w : BitVec 32} {i : Instr} (hr : rsvField w = 0) (ho : opField w = opValue i) :
    decode w = .ok i :=
  decode_of_opcode_some hr (by rw [ho, opcode_opValue])

theorem decode_of_opField_unassigned {w : BitVec 32} (hr : rsvField w = 0)
    (ho : opField w = 0 ∨ 5 < (opField w).toNat) : decode w = .error .unassignedOpcode :=
  decode_of_opcode_none hr (opcode_eq_none_iff.2 (ho.imp_left (congrArg BitVec.toNat)))

/-- Settles O1: each clause is one end of `decode`, with the `OP` value of the command it names. -/
theorem decodingFollowsTheOpcodeMap : Obligations.DecodingFollowsTheOpcodeMap := by
  intro w
  refine ⟨decode_of_rsvField_ne_zero, fun hr => ?_⟩
  have assigned (i : Instr) : opField w = opValue i → decode w = .ok i := decode_of_opField_eq_opValue hr
  exact ⟨assigned .apf, assigned .difd, assigned .schr, assigned .rmod, assigned .dsmp,
    decode_of_opField_unassigned hr⟩

end Sys2Proof.Proofs

/-! The checks of the cascade commands (`41_diffusion_cascade.md` R161, R169, R172): what a failing check does to a
command, then which check of the shared six is the first to fail, then the seventh check of each command. -/

namespace Sys2Proof.Proofs
open Sys2Proof.Machine Sys2Proof.Laws

/-! ## A failing check ends the command (R252, R260) -/

theorem rejectsCascade_of_exec {i : Instr} {s : State} {c : ResultCode} {p : BitVec 8} {k : Nat}
    (h : exec i s = .next (rejectCascade ⟨c, p, BitVec.ofNat 32 k⟩ s)) : RejectsCascade i s c p k :=
  ⟨_, h, rejectedAs_rejectCascade s c p k, stageTableIs_rejectCascade _ s,
    rejectCascade_drawScript _ s, rejectCascade_drawCount _ s⟩

theorem rejectsCascade_of_difdChecks {s : State} {c : ResultCode} {p : BitVec 8} {k : Nat}
    (h : firstFailure (difdChecks s) = some ⟨c, p, BitVec.ofNat 32 k⟩) : RejectsCascade .difd s c p k := by
  refine rejectsCascade_of_exec ?_
  change execDifd s = _
  rw [execDifd, h]

theorem rejectsCascade_of_schrChecks {s : State} {c : ResultCode} {p : BitVec 8} {k : Nat}
    (h : firstFailure (schrChecks s) = some ⟨c, p, BitVec.ofNat 32 k⟩) : RejectsCascade .schr s c p k := by
  refine rejectsCascade_of_exec ?_
  change execSchr s = _
  rw [execSchr, h]

/-- Both commands make the shared checks before their own, so what decides there decides the command. -/
theorem rejectsCascade_of_sharedChecks {i : Instr} {s : State} {c : ResultCode} {p : BitVec 8} {k : Nat}
    (hi : i = .difd ∨ i = .schr) (h : firstFailure (sharedChecks s) = some ⟨c, p, BitVec.ofNat 32 k⟩) :
    RejectsCascade i s c p k := by
  rcases hi with rfl | rfl
  · refine rejectsCascade_of_difdChecks ?_
    rw [difdChecks, firstFailure_append, h, Option.some_or]
  · refine rejectsCascade_of_schrChecks ?_
    rw [schrChecks, firstFailure_append, h, Option.some_or]

/-! ## The conditions of the shared checks -/

theorem inLenTooLong_eq_true {s : State} : inLenTooLong s = true ↔ ¬ InputFits s := by
  rw [← inLenTooLong_eq_false, Bool.not_eq_false]

theorem badFeedback_eq_true {s : State} : badFeedback s = true ↔ ¬ FeedbackOk s := by
  rw [← badFeedback_eq_false, Bool.not_eq_false]

/-! ## The first of the shared checks to fail (R169) -/

section
variable {s : State}

theorem sharedChecks_of_not_inputFits (hfit : ¬ InputFits s) :
    firstFailure (sharedChecks s) = some (capacityExceeded 0x03) := by
  simp [sharedChecks, firstFailure, inLenTooLong_eq_true.2 hfit]

theorem sharedChecks_of_sampleRate_zero (hfit : InputFits s) (hrate : s.params.sampleRate = 0) :
    firstFailure (sharedChecks s) = some (invalidParameter 0x02) := by
  simp [sharedChecks, firstFailure, inLenTooLong_eq_false.2 hfit, hrate]

theorem sharedChecks_of_output_too_long (hfit : InputFits s) (hrate : s.params.sampleRate ≠ 0)
    (hout : s.caps.sigCap < s.params.inLen.toNat + 5 * s.params.sampleRate.toNat) :
    firstFailure (sharedChecks s) = some (capacityExceeded 0x04) := by
  simp only [sharedChecks, firstFailure, inLenTooLong_eq_false.2 hfit, decide_eq_false hrate, decide_eq_true hout,
    Bool.false_eq_true, if_false, if_true]

/-- Past the checks on the lengths and the rate, those on the delay, the feedback and the stage count remain. -/
theorem sharedChecks_of_output_fits (hfit : InputFits s) (hrate : s.params.sampleRate ≠ 0)
    (hout : s.params.inLen.toNat + 5 * s.params.sampleRate.toNat ≤ s.caps.sigCap) :
    firstFailure (sharedChecks s) = firstFailure ((sharedChecks s).drop 3) := by
  simp only [sharedChecks, firstFailure, inLenTooLong_eq_false.2 hfit, decide_eq_false hrate,
    decide_eq_false (Nat.not_lt.2 hout), Bool.false_eq_true, if_false, List.drop_succ_cons, List.drop_zero]

theorem laterSharedChecks_of_bad_delay
    (hdelay : isFinite s.params.dlDelay = false ∨ fLe s.params.dlDelay F_0 = true) :
    firstFailure ((sharedChecks s).drop 3) = some (invalidParameter 0x11) := by
  simp [sharedChecks, firstFailure, hdelay]

theorem laterSharedChecks_of_bad_feedback (hfin : isFinite s.params.dlDelay = true)
    (hpos : fLt F_0 s.params.dlDelay = true) (hfb : ¬ FeedbackOk s) :
    firstFailure ((sharedChecks s).drop 3) = some (invalidParameter 0x12) := by
  have hle : fLe s.params.dlDelay F_0 = false := (fLe_eq_false hfin (by decide)).2 hpos
  simp [sharedChecks, firstFailure, hfin, hle, badFeedback_eq_true.2 hfb]

theorem laterSharedChecks_of_too_many_stages (hfin : isFinite s.params.dlDelay = true)
    (hpos : fLt F_0 s.params.dlDelay = true) (hfb : FeedbackOk s) (hcap : s.caps.stageCap < s.params.dlStages.toNat) :
    firstFailure ((sharedChecks s).drop 3) = some (capacityExceeded 0x13) := by
  have hle : fLe s.params.dlDelay F_0 = false := (fLe_eq_false hfin (by decide)).2 hpos
  simp [sharedChecks, firstFailure, hfin, hle, badFeedback_eq_false.2 hfb, hcap]

/-! ## The check of each command's own (R164, R172) -/

theorem difdChecks_of_divOffset_zero (hr : CascadeReady s) (hd : s.params.divOffset = 0) :
    firstFailure (difdChecks s) = some (invalidParameter 0x17) := by
  rw [difdChecks, firstFailure_append, sharedChecks_pass.2 hr, Option.none_or]
  simp [firstFailure, hd]

/-- A state that passes the shared checks and is not ready for `SCHR` has an interval that cannot be drawn from. -/
theorem schrChecks_of_bad_interval (hr : CascadeReady s) (hn : ¬ SchrReady s) :
    firstFailure (schrChecks s) = some (invalidParameter 0x11) := by
  have hbad : (!isFinite (drawHi s) || !fLt (drawLo s) (drawHi s)) = true := by
    by_contra hgood
    exact hn ⟨hr, by simpa [drawLo, drawHi] using hgood⟩
  rw [schrChecks, firstFailure_append, sharedChecks_pass.2 hr, Option.none_or, hbad]
  rfl

end

/-- Settles O34: each clause names the check that is the first to fail. -/
theorem cascadesReportTheirFirstFailingCheck : Obligations.CascadesReportTheirFirstFailingCheck := by
  intro i s hi
  refine ⟨fun hfit => ?_, fun hfit hrate => ?_, fun hfit hrate hout => ?_, fun hfit hrate hout => ?_, ?_, ?_⟩
  · exact rejectsCascade_of_sharedChecks hi (sharedChecks_of_not_inputFits hfit)
  · exact rejectsCascade_of_sharedChecks hi (sharedChecks_of_sampleRate_zero hfit hrate)
  · exact rejectsCascade_of_sharedChecks hi (sharedChecks_of_output_too_long hfit hrate hout)
  · have hlater := sharedChecks_of_output_fits hfit hrate hout
    refine ⟨fun hdelay => ?_, fun hfin hpos => ⟨fun hfb => ?_, fun hfb hcap => ?_⟩⟩
    · exact rejectsCascade_of_sharedChecks hi (hlater.trans (laterSharedChecks_of_bad_delay hdelay))
    · exact rejectsCascade_of_sharedChecks hi (hlater.trans (laterSharedChecks_of_bad_feedback hfin hpos hfb))
    · exact rejectsCascade_of_sharedChecks hi
        (hlater.trans (laterSharedChecks_of_too_many_stages hfin hpos hfb hcap))
  · rintro hr rfl hd
    exact rejectsCascade_of_difdChecks (difdChecks_of_divOffset_zero hr hd)
  · rintro hr rfl hn
    exact rejectsCascade_of_schrChecks (schrChecks_of_bad_interval hr hn)

end Sys2Proof.Proofs

/-! The ring modulator (`42_ring_modulator.md`): the sample loop against a sequence of phases, one step of the phases
against the rules' recurrences, and what a completed `RMOD` leaves in the state. -/

namespace Sys2Proof.Proofs
open Sys2Proof.Machine Sys2Proof.Laws

/-! ## The sample loop (R194) -/

/-- The loop over a sequence of phases that advances by `nextPhases`: sample `i` meets the carrier after step `i`. -/
theorem ringLoop_of_recurrence {sin : F → F} {u : RingSetup} {x : List Sample} {ph : Nat → Phases}
    (hph : ∀ i, i < x.length → ph (i + 1) = nextPhases sin u (ph i)) :
    ringLoop sin u (ph 0) x =
      ((List.range x.length).map (fun i => ringSample sin u (ph (i + 1)).carrier (x.getD i 0)), ph x.length) := by
  induction x generalizing ph with
  | nil => rfl
  | cons v vs ih =>
    have hfirst : nextPhases sin u (ph 0) = ph 1 := (hph 0 (Nat.succ_pos _)).symm
    have hrest := ih (ph := fun i => ph (i + 1)) (fun i hi => hph (i + 1) (Nat.succ_lt_succ hi))
    rw [ringLoop, hfirst, hrest, List.length_cons, List.range_succ_eq_map, List.map_cons, List.map_map]
    rfl

/-! ## One step under the set-up of a state (R193 to R200) -/

theorem lfoValue_waveformOf (sin : F → F) (b : BitVec 1) (lfo : F) :
    lfoValue sin (waveformOf b) lfo = if b = 0 then sin lfo else if fLe F_0 (sin lfo) then F_1 else F_0 := by
  unfold waveformOf
  split <;> rfl

theorem nextLfo_ringSetup (s : State) (lfo : F) :
    nextLfo (ringSetup s) lfo =
      fWrap (fAdd lfo (fDiv (fMul TWO_PI s.params.rmRate) (i2f s.params.sampleRate.toNat))) := rfl

theorem carrierInc_ringSetup (s : State) (lv : F) :
    carrierInc (ringSetup s) lv =
      fDiv (fMul TWO_PI (fAdd s.params.rmFrequency
        (fMul (fMul (fMul lv s.params.rmFrequency) F_3) (fDiv s.params.rmAmount F_10))))
        (i2f s.params.sampleRate.toNat) := rfl

theorem blend_ringSetup (s : State) (a c : F) :
    blend (ringSetup s) a c =
      fAdd (fMul a (fSub F_1 (fDiv s.params.rmMix F_100))) (fMul (fMul a c) (fDiv s.params.rmMix F_100)) := rfl

/-! ## The end of a completed `RMOD` (R202) -/

/-- The state after a completed `RMOD` with output `out` and last phases `ph`. -/
def ringEnd (out : List Sample) (ph : Phases) (s : State) : State :=
  complete out (signalExhausted s) (setPhases ph.lfo ph.carrier s)

theorem exec_rmod_of_ready {s : State} {x : List Sample} (hready : RmodReady s) (hlen : x.length = ringLength s)
    (hx : InputIs s x) :
    exec .rmod s = .next (ringEnd (ringLoop sine (ringSetup s) ⟨F_0, F_0⟩ x).1
      (ringLoop sine (ringSetup s) ⟨F_0, F_0⟩ x).2 s) := by
  change ringModulate sine s = _
  rw [ringModulate, rmodChecks_pass.2 hready, ← hlen, readSignal_ok.2 hx]
  rfl

/-- The notice is bit 4 of `RESULT`, and every other field of a completed command is 0 (R46 to R48). -/
theorem ringEnd_result (out : List Sample) (ph : Phases) (s : State) :
    (ringEnd out ph s).result = if s.params.inLen.toNat < s.params.sampleLength.toNat then 0x10 else 0 := by
  rw [ringEnd, complete_result, signalExhausted]
  split
  · next h => rw [decide_eq_true h]; decide
  · next h => rw [decide_eq_false h]; decide

theorem kept_ringEnd (out : List Sample) (ph : Phases) (s : State) : Kept s (ringEnd out ph s) := by
  constructor <;> simp [ringEnd]

theorem stageTableKept_ringEnd (out : List Sample) (ph : Phases) (s : State) :
    StageTableKept s (ringEnd out ph s) := by
  simp [StageTableKept, ringEnd]

theorem drawsKept_ringEnd (out : List Sample) (ph : Phases) (s : State) : DrawsKept s (ringEnd out ph s) := by
  simp [DrawsKept, ringEnd]

/-! ## The rules' recurrences as a sequence of phases -/

/-- The LFO and the carrier phase sequences as one sequence of phases. -/
def pairedPhases (phi kappa : Nat → F) (i : Nat) : Phases := ⟨phi i, kappa i⟩

theorem pairedPhases_succ {phi kappa : Nat → F} {u : RingSetup} {sin : F → F} {i : Nat}
    (hlfo : phi (i + 1) = nextLfo u (phi i))
    (hcarrier : kappa (i + 1) = fWrap (fAdd (kappa i) (carrierInc u (lfoValue sin u.wave (phi (i + 1)))))) :
    pairedPhases phi kappa (i + 1) = nextPhases sin u (pairedPhases phi kappa i) := by
  rw [pairedPhases, hcarrier, hlfo]
  rfl

/-- Settles O43: by the recurrences the pairs of phases advance by `nextPhases`, so the loop runs over them. -/
theorem rmodCompletesWithThePhaseRecurrence : Obligations.RmodCompletesWithThePhaseRecurrence := by
  rintro s x sr lfoInc mixn amtn phi kappa lv y hready hlen hx rfl rfl rfl rfl hphi0 hkappa0 hphi hlv hkappa hy
  have hstart : pairedPhases phi kappa 0 = ⟨F_0, F_0⟩ := by rw [pairedPhases, hphi0, hkappa0]
  have hstep : ∀ i, i < x.length →
      pairedPhases phi kappa (i + 1) = nextPhases sine (ringSetup s) (pairedPhases phi kappa i) := by
    intro i hi
    have hv : lfoValue sine (ringSetup s).wave (phi (i + 1)) = lv i :=
      (lfoValue_waveformOf _ _ _).trans (hlv i hi).symm
    refine pairedPhases_succ ?_ ?_
    · rw [nextLfo_ringSetup, hphi i hi]
    · rw [hv, carrierInc_ringSetup, hkappa i hi]
  have hout : ∀ i ∈ List.range x.length,
      ringSample sine (ringSetup s) (pairedPhases phi kappa (i + 1)).carrier (x.getD i 0) = f2i32 (y i) := by
    intro i hi
    rw [hy i (List.mem_range.1 hi), ringSample, blend_ringSetup, sampleF, pairedPhases]
  have hexec := exec_rmod_of_ready hready hlen hx
  rw [← hstart, ringLoop_of_recurrence hstep, List.map_congr_left hout] at hexec
  have hfits : x.length < 2 ^ 32 := hlen ▸ (Nat.min_le_right _ _).trans_lt s.params.inLen.isLt
  exact ⟨_, hexec, outputIs_complete _ _ _ (by simpa using hfits), ringEnd_result _ _ _, rfl, rfl,
    kept_ringEnd _ _ _, stageTableKept_ringEnd _ _ _, drawsKept_ringEnd _ _ _, rfl⟩

end Sys2Proof.Proofs

/-! The resampler (`43_resampler.md`): how many samples `DSMP` takes, when it completes, and what it leaves in the state
then. -/

namespace Sys2Proof.Proofs
open Sys2Proof.Machine Sys2Proof.Laws

/-! ## The number of samples taken (R231, R233) -/

theorem decimationFactor_pos {s : State} (hready : DsmpReady s) : 0 < decimationFactor s := by
  obtain ⟨-, hpos, hle⟩ := hready
  exact Nat.div_pos hle hpos

theorem decimatedLength_eq_ceilDiv (s : State) : decimatedLength s = s.params.inLen.toNat ⌈/⌉ decimationFactor s :=
  (Nat.ceilDiv_eq_add_pred_div _ _).symm

/-- The output indices are those whose input index lies in the input. -/
theorem lt_decimatedLength_iff {s : State} (hready : DsmpReady s) (j : Nat) :
    j < decimatedLength s ↔ j * decimationFactor s < s.params.inLen.toNat := by
  rw [decimatedLength_eq_ceilDiv, ← not_le, ceilDiv_le_iff_le_mul (decimationFactor_pos hready), not_le, Nat.mul_comm]

theorem decimatedLength_le_inLen {s : State} (hready : DsmpReady s) : decimatedLength s ≤ s.params.inLen.toNat := by
  rw [decimatedLength_eq_ceilDiv, ceilDiv_le_iff_le_mul (decimationFactor_pos hready)]
  exact Nat.le_mul_of_pos_left _ (decimationFactor_pos hready)

/-! ## A completed `DSMP` (R233) -/

/-- Only the samples at multiples of the factor are read, so only they have to be written. -/
theorem exec_dsmp_of_ready {s : State} {v : Nat → Sample} (hready : DsmpReady s)
    (hv : ∀ j, j < decimatedLength s → memRead s.sigi (j * decimationFactor s) = some (v j)) :
    exec .dsmp s = .next (complete ((List.range (decimatedLength s)).map v) false s) := by
  have hread : readSamples s.sigi ((List.range (decimatedLength s)).map (fun j => j * decimationFactor s)) =
      .ok ((List.range (decimatedLength s)).map v) := by
    rw [readSamples_eq_ok, List.map_map, List.map_map]
    exact List.map_congr_left fun j hj => hv j (List.mem_range.1 hj)
  change execDsmp s = _
  rw [execDsmp, dsmpChecks_pass.2 hready, hread]

/-- What the end of a completed command leaves alone is all but `RESULT`, `OUT_LEN` and `SIGO`. -/
theorem complete_frame (out : List Sample) (x : Bool) (s : State) :
    Kept s (complete out x s) ∧ PhasesKept s (complete out x s) ∧ StageTableKept s (complete out x s) ∧
      DrawsKept s (complete out x s) ∧ (complete out x s).dly = s.dly := by
  refine ⟨?_, ?_, ?_, ?_, complete_dly out x s⟩
  · constructor <;> simp
  · simp [PhasesKept]
  · simp [StageTableKept]
  · simp [DrawsKept]

/-- Settles O49: the indices `j` with `j * FACTOR < IN_LEN` are those below the ceiling of `IN_LEN / FACTOR`, so `n` is
the number of samples the model reads. -/
theorem dsmpCompletesWithEveryFactorthSample : Obligations.DsmpCompletesWithEveryFactorthSample := by
  rintro s x factor n hready rfl hlen hx hn
  change ∀ j, j * decimationFactor s < x.length → _ at hx
  change ∀ j, j < n ↔ j * decimationFactor s < x.length at hn
  simp only [hlen, ← lt_decimatedLength_iff hready] at hx hn
  obtain rfl : n = decimatedLength s := eq_of_forall_lt_iff hn
  have hfits : decimatedLength s < 2 ^ 32 := (decimatedLength_le_inLen hready).trans_lt s.params.inLen.isLt
  exact ⟨_, exec_dsmp_of_ready hready hx, by rw [complete_result]; decide,
    outputIs_complete _ _ _ (by simpa using hfits), rfl, complete_frame _ _ _⟩

end Sys2Proof.Proofs

/-! The commands that end as a rejection and nothing else (`60_exceptions.md` R254, R257): what such an end
amounts to, then the illegal word and the degenerate resample request. -/

namespace Sys2Proof.Proofs
open Sys2Proof.Machine Sys2Proof.Laws

/-! ## A rejection outside the cascades (R252) -/

theorem reject_frame (r : Rejection) (s : State) : StageTableKept s (reject r s) ∧ DrawsKept s (reject r s) := by
  constructor
  · simp [StageTableKept]
  · simp [DrawsKept]

theorem rejects_of_exec {i : Instr} {s : State} {c : ResultCode} {p : BitVec 8} {k : Nat}
    (h : exec i s = .next (reject ⟨c, p, BitVec.ofNat 32 k⟩ s)) : Rejects i s c p k :=
  ⟨_, h, rejectedAs_reject s c p k, reject_frame _ s⟩

/-! ## The step on a command word (R45, R93) -/

theorem step_of_hostQueue_cons {s : State} {a : HostAccess} {rest : List HostAccess} (h : s.hostQueue = a :: rest) :
    step s = hostAccess a (takeAccess rest s) := by
  rw [step, stepOnce, h]

/-- `CMD` is register `0x00`, and a write of it runs the word. -/
theorem hostAccess_write_cmd (v : BitVec 64) (s : State) : hostAccess (.write .reg 0x00 v) s = runCommandWord v s := rfl

theorem runCommandWord_of_decode_error {v : BitVec 64} {e : DecodeError} (h : decode (v.setWidth 32) = .error e)
    (s : State) : runCommandWord v s = .next (illegalCommand (latchCommand v s)) := by
  rw [runCommandWord, h]

/-- Settles O6: the step latches the word and rejects it, and a rejection leaves the rest alone. -/
theorem illegalWordIsRejected : Obligations.IllegalWordIsRejected := by
  intro s v rest e hqueue hdecode
  have hstep : step s = .next (illegalCommand (latchCommand v (takeAccess rest s))) := by
    rw [step_of_hostQueue_cons hqueue, hostAccess_write_cmd, runCommandWord_of_decode_error hdecode]
  have hframe := reject_frame ⟨.illegalCommand, 0x00, 0⟩ (latchCommand v (takeAccess rest s))
  exact ⟨_, hstep, rejectedAs_reject _ .illegalCommand 0x00 0, hframe⟩

/-! ## The checks of `DSMP` (R231, R232) -/

theorem rejects_of_dsmpChecks {s : State} {c : ResultCode} {p : BitVec 8} {k : Nat}
    (h : firstFailure (dsmpChecks s) = some ⟨c, p, BitVec.ofNat 32 k⟩) : Rejects .dsmp s c p k := by
  refine rejects_of_exec ?_
  change execDsmp s = _
  rw [execDsmp, h]

theorem dsmpChecks_of_not_inputFits {s : State} (hfit : ¬ InputFits s) :
    firstFailure (dsmpChecks s) = some (capacityExceeded 0x03) := by
  simp [dsmpChecks, firstFailure, inLenTooLong_eq_true.2 hfit]

theorem dsmpChecks_of_degenerate {s : State} (hfit : InputFits s)
    (hrate : s.params.newSampleRate = 0 ∨ s.params.sampleRate.toNat < s.params.newSampleRate.toNat) :
    firstFailure (dsmpChecks s) = some degenerateResample := by
  have hbad := decide_eq_true hrate
  rw [Bool.decide_or] at hbad
  simp only [dsmpChecks, firstFailure, inLenTooLong_eq_false.2 hfit, hbad, Bool.false_eq_true, if_false, if_true]

/-- Settles O50: each clause names the check that is the first to fail. -/
theorem degenerateResampleIsReported : Obligations.DegenerateResampleIsReported := by
  intro s
  constructor
  · intro hfit hrate
    exact rejects_of_dsmpChecks (dsmpChecks_of_degenerate hfit hrate)
  · intro hfit
    exact rejects_of_dsmpChecks (dsmpChecks_of_not_inputFits hfit)

end Sys2Proof.Proofs

/-! The invariant of the state (`10_state.md` sections 2 and 3, `42_ring_modulator.md` R203): each update of the state
keeps it, so every end of a command and every host access does. -/

namespace Sys2Proof.Proofs
open Sys2Proof.Machine Sys2Proof.Laws

/-! ## The updates of the state -/

theorem toNat_ofNat_of_lt {w n : Nat} (h : n < 2 ^ w) : (BitVec.ofNat w n).toNat = n :=
  (BitVec.toNat_ofNat n w).trans (Nat.mod_eq_of_lt h)

section
variable {s : State} (hs : s.Inv)
include hs

theorem inv_takeAccess (rest : List HostAccess) : (takeAccess rest s).Inv := { hs with }

theorem inv_latchCommand (v : BitVec 64) : (latchCommand v s).Inv := { hs with }

theorem inv_hostRead (sp : HostSpace) (i : Nat) : (hostRead sp i s).Inv := { hs with }

theorem inv_regWrite (r : RegName) (v : BitVec 64) : (regWrite r v s).Inv := { hs with }

theorem inv_afterDraws : (afterDraws s).Inv := { hs with }

theorem inv_forgetDelays : (forgetDelays s).Inv := { hs with dly := by simp }

theorem inv_setPhases {lfo carrier : F} (hl : PhaseOk lfo) (hc : PhaseOk carrier) : (setPhases lfo carrier s).Inv :=
  { hs with lfoPhase := hl, carrierPhase := hc }

theorem inv_clearStageTable : (clearStageTable s).Inv :=
  { hs with mtab := by simp, mtabLen := Nat.zero_le _, mtabEntries := by simp }

theorem inv_reject {r : Rejection} (hr : r.code ≠ .ok) : (reject r s).Inv :=
  { hs with
    sigo := by simp
    outLen := Nat.zero_le _
    result := ⟨r.code, false, r.param, r.stage, rfl, by simp, fun h => absurd h hr, fun _ => rfl⟩ }

theorem inv_rejectCascade {r : Rejection} (hr : r.code ≠ .ok) : (rejectCascade r s).Inv :=
  inv_reject (inv_clearStageTable hs) hr

theorem inv_complete {out : List Sample} (hout : out.length ≤ s.caps.sigCap) (x : Bool) : (complete out x s).Inv := by
  obtain ⟨⟨-, hsig⟩, -⟩ := hs.caps
  have hlen : (complete out x s).outLen.toNat = out.length := toNat_ofNat_of_lt (hout.trans_lt hsig)
  exact { hs with
    sigo := by rw [hlen, complete_sigo, memOfList_map_fst]
    outLen := hlen.trans_le hout
    result := ⟨.ok, x, 0, 0, rfl, fun _ => rfl, fun _ => ⟨rfl, rfl⟩, fun h => absurd rfl h⟩ }

theorem inv_setStageTable {lens : List Nat} (hn : lens.length ≤ s.caps.stageCap)
    (hm : ∀ m ∈ lens, 1 ≤ m ∧ m ≤ s.caps.dlyCap) : (setStageTable lens s).Inv := by
  obtain ⟨-, ⟨-, hdly⟩, hstage⟩ := hs.caps
  have hlen : (setStageTable lens s).mtabLen.toNat = lens.length := toNat_ofNat_of_lt (hn.trans_lt hstage)
  refine { hs with mtab := ?_, mtabLen := hlen.trans_le hn, mtabEntries := fun p hp => ?_ }
  · rw [hlen, setStageTable_mtab, memOfList_map_fst, List.length_map]
  · have hentry : p.2 ∈ lens.map (BitVec.ofNat 32) := by
      rw [← memOfListFrom_map_snd (lens.map (BitVec.ofNat 32)) 0]
      exact List.mem_map_of_mem hp
    obtain ⟨m, hmem, he⟩ := List.mem_map.1 hentry
    rw [← he, toNat_ofNat_of_lt ((hm m hmem).2.trans_lt hdly)]
    exact hm m hmem

theorem inv_writeInput (i : Nat) (v : Sample) : (writeInput i v s).Inv := by
  unfold writeInput
  split
  · next hi =>
    obtain ⟨hwf, hrange⟩ := hs.sigi
    refine { hs with sigi := ⟨memWrite_wf hwf i v, fun p hp => ?_⟩ }
    rcases mem_memWrite hp with rfl | hp
    · exact hi
    · exact hrange p hp
  · exact hs

end

/-! ## The phases `RMOD` ends with (R203) -/

theorem phaseOk_F_0 : PhaseOk F_0 := .inr ⟨by decide, fLt_TWO_PI (by decide) (by decide)⟩

theorem phaseOk_fWrap (x : F) : PhaseOk (fWrap x) := by
  by_cases hx : isFinite x = true
  · obtain ⟨hsign, hmag⟩ := fWrap_spec hx
    exact .inr ⟨hsign, fLt_TWO_PI hsign hmag⟩
  · exact .inl (fWrap_of_not_isFinite (by simpa using hx))

theorem phaseOk_ringLoop (sin : F → F) (u : RingSetup) (x : List Sample) {ph : Phases} (hl : PhaseOk ph.lfo)
    (hc : PhaseOk ph.carrier) :
    PhaseOk (ringLoop sin u ph x).2.lfo ∧ PhaseOk (ringLoop sin u ph x).2.carrier := by
  induction x generalizing ph with
  | nil => exact ⟨hl, hc⟩
  | cons v vs ih => exact ih (phaseOk_fWrap _) (phaseOk_fWrap _)

/-! ## The ends of the commands -/

theorem ringLength_le_inLen (s : State) : ringLength s ≤ s.params.inLen.toNat := Nat.min_le_right _ _

/-- Every way a command can end keeps the invariant: an output fits `SIG_CAP` by the command's checks, a table fits
`STAGE_CAP` by its check on `DL_STAGES`. -/
theorem inv_of_ends {i : Instr} {s t : State} (hs : s.Inv) (h : Ends s i t) : t.Inv := by
  cases h with
  | rejected i r _ hr => exact inv_reject hs hr
  | rejectedCascade i r _ hr => exact inv_rejectCascade hs (ne_ok_of_cascade_rejection hr)
  | rejectedAfterDraws r _ hr => exact inv_rejectCascade (inv_afterDraws hs) (ne_ok_of_cascade_rejection hr)
  | apf x hready hx =>
    obtain ⟨hfit, -⟩ := hready
    refine inv_complete (inv_forgetDelays hs) ?_ _
    rw [stage_length, readSignal_length hx]
    exact hfit
  | difd x lens hready hx _ hm hlen =>
    obtain ⟨⟨-, -, hfit, -, -, hstages⟩, -⟩ := hready
    refine inv_complete (inv_setStageTable (inv_forgetDelays hs) (hlen.trans_le hstages) hm) ?_ _
    rw [cascade_length, padSignal_length, readSignal_length hx]
    exact hfit
  | schr x lens rs hready hx _ _ hm hlen =>
    obtain ⟨⟨-, -, hfit, -, -, hstages⟩, -⟩ := hready
    refine inv_complete (inv_setStageTable (inv_forgetDelays (inv_afterDraws hs)) (hlen.trans_le hstages) hm) ?_ _
    rw [cascade_length, padSignal_length, readSignal_length hx]
    exact hfit
  | rmod x hready hx =>
    obtain ⟨hfit, -⟩ := hready
    obtain ⟨hl, hc⟩ := phaseOk_ringLoop sine (ringSetup s) x (ph := ⟨F_0, F_0⟩) phaseOk_F_0 phaseOk_F_0
    refine inv_complete (inv_setPhases hs hl hc) ?_ _
    rw [ringLoop_length, readSignal_length hx]
    exact (ringLength_le_inLen s).trans hfit
  | dsmp out hready hout =>
    have hlen : out.length = decimatedLength s := by simpa using readSamples_length hout
    exact inv_complete hs (hlen.trans_le ((decimatedLength_le_inLen hready).trans hready.1)) _

/-! ## The host accesses -/

theorem inv_runCommandWord {v : BitVec 64} {s t : State} (hs : s.Inv) (h : runCommandWord v s = .next t) : t.Inv := by
  unfold runCommandWord at h
  split at h
  · exact inv_of_ends (inv_latchCommand hs v) (exec_next h)
  · cases h
    exact inv_reject (inv_latchCommand hs v) (by simp)

theorem inv_hostWriteReg {n : Nat} {v : BitVec 64} {s t : State} (hs : s.Inv) (h : hostWriteReg n v s = .next t) :
    t.Inv := by
  unfold hostWriteReg at h
  split at h
  · cases h; exact hs
  · exact inv_runCommandWord hs h
  · cases h; exact inv_regWrite hs _ _

theorem inv_hostAccess {a : HostAccess} {s t : State} (hs : s.Inv) (h : hostAccess a s = .next t) : t.Inv := by
  cases a with
  | read sp i => cases h; exact inv_hostRead hs sp i
  | write sp i v =>
    cases sp with
    | reg => exact inv_hostWriteReg hs h
    | sigi => cases h; exact inv_writeInput hs _ _
    | sigo | mtab => cases h; exact hs

/-- Settles O59: a step is idle or performs one access. -/
theorem everyStepKeepsTheInvariant : Obligations.EveryStepKeepsTheInvariant := by
  intro s t hs h
  cases hq : s.hostQueue with
  | nil =>
    rw [step, stepOnce, hq] at h
    cases h
    exact hs
  | cons a rest =>
    rw [step_of_hostQueue_cons hq] at h
    exact inv_hostAccess (inv_takeAccess hs rest) h

/-- Settles O15: no memory lists an element, and every register is 0. -/
theorem resetMeetsTheInvariant : Obligations.ResetMeetsTheInvariant where
  caps := by unfold Capacities.Ok; decide
  sigi := by simp [State.reset]
  sigo := rfl
  outLen := Nat.zero_le _
  mtab := rfl
  mtabLen := Nat.zero_le _
  mtabEntries := by simp [State.reset]
  dly := by simp [State.reset]
  result := ⟨.ok, false, 0, 0, by decide, by simp, fun _ => ⟨rfl, rfl⟩, fun h => absurd rfl h⟩
  lfoPhase := phaseOk_F_0
  carrierPhase := phaseOk_F_0

end Sys2Proof.Proofs

/-! Decoding against encoding (`30_encoding.md` R111 to R114). -/

namespace Sys2Proof.Proofs

/-- The `OP` values R112 assigns, read backwards. -/
theorem opcode_eq_some_iff {v : BitVec 8} {i : Instr} : opcode v.toNat = some i ↔ v = opValue i := by
  constructor
  · intro h
    apply BitVec.eq_of_toNat_eq
    generalize v.toNat = n at h
    unfold opcode at h
    split at h <;> cases h <;> rfl
  · rintro rfl
    exact opcode_opValue i

/-- A word is its two fields (R111). -/
theorem rsvField_append_opField (w : BitVec 32) : rsvField w ++ opField w = w := by
  apply BitVec.eq_of_getLsbD_eq
  intro i hi
  rw [BitVec.getLsbD_append]
  split
  · next h => simp [opField, h]
  · next h => simp [rsvField, show i - 8 < 24 by omega, show 8 + (i - 8) = i by omega]

theorem decode_eq_ok_iff {w : BitVec 32} {i : Instr} : decode w = .ok i ↔ rsvField w = 0 ∧ opField w = opValue i := by
  constructor
  · intro h
    by_cases hr : rsvField w = 0
    · refine ⟨hr, ?_⟩
      cases ho : opcode (opField w).toNat with
      | none => rw [decode_of_opcode_none hr ho] at h; cases h
      | some j =>
        rw [decode_of_opcode_some hr ho] at h
        cases h
        exact opcode_eq_some_iff.1 ho
    · rw [decode_of_rsvField_ne_zero hr] at h
      cases h
  · rintro ⟨hr, ho⟩
    exact decode_of_opField_eq_opValue hr ho

theorem fields_encode (i : Instr) : rsvField (encode i) = 0 ∧ opField (encode i) = opValue i := by
  cases i <;> decide

/-- Settles O2: the two fields decide a word, and `encode` writes the fields `decode` asks for. -/
theorem decodeAndEncodeAgree : Obligations.DecodeAndEncodeAgree := by
  intro w i
  rw [decode_eq_ok_iff]
  constructor
  · rintro ⟨hr, ho⟩
    rw [← rsvField_append_opField w, hr, ho, encode]
  · rintro rfl
    exact fields_encode i

/-- Settles O3: each word is the encoding of its command. -/
theorem wordsOfTheOpcodeTableDecode : Obligations.WordsOfTheOpcodeTableDecode := by
  have encoded (i : Instr) : decode (encode i) = .ok i := (decodeAndEncodeAgree _ i).2 rfl
  exact ⟨encoded .apf, encoded .difd, encoded .schr, encoded .rmod, encoded .dsmp⟩

end Sys2Proof.Proofs

/-! One step of the host port (`10_state.md` R43 to R45, `20_memory.md` R81, R84, R90): the register map both ways, what
a register reads as after a write, and what each access does. -/

namespace Sys2Proof.Proofs
open Sys2Proof.Machine Sys2Proof.Laws

/-! ## The register map (R44) -/

theorem regOfNumber_regNumber (r : RegName) : regOfNumber (regNumber r) = some r := by cases r <;> rfl

theorem regOfNumber_eq_none {n : Nat} (h : ∀ r, n ≠ regNumber r) : regOfNumber n = none := by
  rw [regOfNumber, List.find?_eq_none]
  intro r _ hr
  exact h r (beq_iff_eq.1 hr).symm

/-- A register number is reserved, or it is that of one register. -/
theorem reserved_or_regNumber (n : Nat) : (∀ r, n ≠ regNumber r) ∨ ∃ r, n = regNumber r := by
  by_cases h : ∃ r, n = regNumber r
  · exact .inr h
  · exact .inl (not_exists.1 h)

theorem regNumber_injective {r r' : RegName} (h : regNumber r = regNumber r') : r = r' := by
  have hsome := regOfNumber_regNumber r
  rw [h, regOfNumber_regNumber] at hsome
  exact (Option.some.inj hsome).symm

theorem regNumber_le (r : RegName) : regNumber r ≤ 0xFF := by cases r <;> decide

/-! ## Reading and writing registers (R43) -/

theorem regRead_takeAccess (r : RegName) (rest : List HostAccess) (s : State) :
    regRead r (takeAccess rest s) = regRead r s := by cases r <;> rfl

/-- An `RW` register takes the value cut to its container; no other register and no write of another kind is seen. -/
theorem regRead_regWrite (r r' : RegName) (v : BitVec 64) (s : State) :
    regRead r' (regWrite r v s) =
      if r' = r ∧ regAccess r = .rw then containerValue (regType r) v else regRead r' s := by
  cases r <;> cases r' <;> rfl

theorem paramWrite_of_ro {r : RegName} (h : regAccess r = .ro) (v : BitVec 64) (p : ParamRegs) :
    paramWrite r v p = p := by
  revert h
  cases r <;> simp [regAccess, paramWrite]

theorem hostWriteReg_regNumber {r : RegName} (h : r ≠ .cmd) (v : BitVec 64) (s : State) :
    hostWriteReg (regNumber r) v s = .next (regWrite r v s) := by
  rw [hostWriteReg, regOfNumber_regNumber]
  revert h
  cases r <;> simp

theorem hostWriteReg_reserved {n : Nat} (h : ∀ r, n ≠ regNumber r) (v : BitVec 64) (s : State) :
    hostWriteReg n v s = .next s := by
  rw [hostWriteReg, regOfNumber_eq_none h]

theorem hostReadValue_regNumber (r : RegName) (s : State) : hostReadValue .reg (regNumber r) s = regRead r s := by
  rw [hostReadValue, if_neg (Nat.not_lt.2 (regNumber_le r)), regOfNumber_regNumber]

theorem hostReadValue_reserved {n : Nat} (hn : n ≤ 0xFF) (h : ∀ r, n ≠ regNumber r) (s : State) :
    hostReadValue .reg n s = 0 := by
  rw [hostReadValue, if_neg (Nat.not_lt.2 hn), regOfNumber_eq_none h]

/-! ## The step -/

/-- Settles O5: no access is there to perform. -/
theorem idleStepChangesNothing : Obligations.IdleStepChangesNothing := by
  intro s h
  rw [step, stepOnce, h]

/-- Settles O4: the write of `CMD` runs the word it latched. -/
theorem stepRunsTheDecodedCommand : Obligations.StepRunsTheDecodedCommand := by
  intro s v rest i hqueue hdecode
  rw [step_of_hostQueue_cons hqueue, hostAccess_write_cmd, runCommandWord, hdecode]
  rfl

/-- Settles O10: neither write changes the state the access was taken from. -/
theorem hostWritesToOutputMemoriesAreIgnored : Obligations.HostWritesToOutputMemoriesAreIgnored := by
  rintro s j v rest (hqueue | hqueue)
  · rw [step_of_hostQueue_cons hqueue]; rfl
  · rw [step_of_hostQueue_cons hqueue]; rfl

/-- Settles O7: the answer is the value the host port reads in the state the access was taken from. -/
theorem hostReadsAnswerAndChangeNothing : Obligations.HostReadsAnswerAndChangeNothing := by
  intro s sp n rest hqueue
  refine ⟨hostReadValue sp n (takeAccess rest s), by rw [step_of_hostQueue_cons hqueue]; rfl, ?_, ?_, ?_, ?_, ?_⟩
  · rintro r rfl rfl
    rw [hostReadValue_regNumber, regRead_takeAccess]
  · rintro rfl hn hreserved
    exact hostReadValue_reserved hn hreserved _
  all_goals
    rintro v rfl hv
    simp [hostReadValue, hv]

/-- Settles O8: the number names a register or is reserved, and only an `RW` register takes the value. -/
theorem hostRegisterWritesFollowTheMap : Obligations.HostRegisterWritesFollowTheMap := by
  intro s n v rest hqueue hcmd
  have hstep : step s = hostWriteReg n v (takeAccess rest s) := step_of_hostQueue_cons hqueue
  rcases reserved_or_regNumber n with hreserved | ⟨q, rfl⟩
  · rw [hostWriteReg_reserved hreserved] at hstep
    exact ⟨_, hstep, rfl, fun r hr => absurd hr.symm (hreserved r), fun r _ => regRead_takeAccess r rest s,
      fun _ _ _ => rfl, fun _ => rfl⟩
  · rw [hostWriteReg_regNumber (fun h => hcmd (congrArg regNumber h))] at hstep
    refine ⟨_, hstep, rfl, fun r hr hrw => ?_, fun r hr => ?_, fun r hr hro => ?_, fun h => absurd rfl (h q)⟩
    · obtain rfl := regNumber_injective hr
      rw [regRead_regWrite, if_pos ⟨rfl, hrw⟩]
    · rw [regRead_regWrite, if_neg (fun h => hr (congrArg regNumber h.1)), regRead_takeAccess]
    · obtain rfl := regNumber_injective hr
      rw [regWrite_params, paramWrite_of_ro hro, takeAccess_params]

theorem writeInput_of_lt {s : State} {i : Nat} (h : i < s.caps.sigCap) (v : Sample) :
    writeInput i v s = { s with sigi := memWrite s.sigi i v } := if_pos h

theorem writeInput_of_ge {s : State} {i : Nat} (h : s.caps.sigCap ≤ i) (v : Sample) : writeInput i v s = s :=
  if_neg (Nat.not_lt.2 h)

/-- Settles O9: the element is written below `SIG_CAP`, and from there on nothing is. -/
theorem hostWritesOneInputSample : Obligations.HostWritesOneInputSample := by
  intro s j v rest hqueue
  have hstep : step s = .next (writeInput j (v.setWidth 32) (takeAccess rest s)) := step_of_hostQueue_cons hqueue
  rcases Nat.lt_or_ge j s.caps.sigCap with hj | hj
  · rw [writeInput_of_lt (s := takeAccess rest s) hj] at hstep
    exact ⟨_, hstep, rfl, fun _ => memRead_memWrite_same _ _ _, fun i hi => memRead_memWrite_other _ _ hi,
      fun h => absurd hj (Nat.not_lt.2 h)⟩
  · rw [writeInput_of_ge (s := takeAccess rest s) hj] at hstep
    exact ⟨_, hstep, rfl, fun h => absurd h (Nat.not_lt.2 hj), fun _ _ => rfl, fun _ => rfl⟩

end Sys2Proof.Proofs

/-! The pseudo-instructions that load the input signal (`30_encoding.md` R121): runs of several steps, the input memory
after a sequence of writes, and the two expansions. -/

namespace Sys2Proof.Proofs
open Sys2Proof.Machine Sys2Proof.Laws

/-! ## Runs -/

theorem run_succ {M : Host.Core} {s t : M.State} (h : M.step s = .next t) (k : Nat) :
    M.run (k + 1) s = M.run k t := by
  simp only [Host.Core.run, h]

/-- `run_succ` for this machine, whose step is `step`. -/
theorem run_succ_of_step {s t : State} (h : step s = .next t) (k : Nat) :
    Host.Core.run core (k + 1) s = Host.Core.run core k t := run_succ (M := core) h k

theorem run_append {M : Host.Core} {m n : Nat} {s t : M.State} (h : M.run m s = .next t) :
    M.run (m + n) s = M.run n t := by
  induction m generalizing s with
  | zero =>
    cases h
    rw [Nat.zero_add]
  | succ m ih =>
    rw [Nat.succ_add]
    simp only [Host.Core.run] at h ⊢
    split at h
    · exact ih h
    · cases h
    · cases h

/-! ## The lines of the expansions, one step each -/

section
variable {s : State} {rest : List HostAccess} {j : Nat} {v : Int} {w : BitVec 64}

theorem step_wrs (hqueue : s.hostQueue = lineAccess (.wrs j v) :: rest) (hj : j < s.caps.sigCap) :
    step s = .next { s with hostQueue := rest, sigi := memWrite s.sigi j (BitVec.ofInt 32 v) } := by
  have hword : ((BitVec.ofInt 32 v).setWidth 64).setWidth 32 = BitVec.ofInt 32 v := by
    rw [BitVec.setWidth_setWidth_of_le _ (by omega), BitVec.setWidth_eq]
  rw [step_of_hostQueue_cons hqueue, lineAccess, hostAccess, hword, writeInput_of_lt (s := takeAccess rest s) hj]
  rfl

theorem step_rds (hqueue : s.hostQueue = lineAccess (.rds j) :: rest) :
    step s = .next (hostRead .sigo j (takeAccess rest s)) := step_of_hostQueue_cons hqueue

theorem step_rd_outLen (hqueue : s.hostQueue = lineAccess (.rd .outLen) :: rest) :
    step s = .next (hostRead .reg 0x04 (takeAccess rest s)) := step_of_hostQueue_cons hqueue

theorem step_wr_inLen (hqueue : s.hostQueue = lineAccess (.wr .inLen w) :: rest) :
    step s = .next { s with hostQueue := rest, params := { s.params with inLen := w.setWidth 32 } } := by
  rw [step_of_hostQueue_cons hqueue]
  exact hostWriteReg_regNumber (r := .inLen) (by decide) w (takeAccess rest s)

end

/-! ## The input memory after a sequence of writes -/

/-- The memory with the samples of a list stored from index `start` upward. -/
def storeFrom (start : Nat) : List Sample → Mem 32 → Mem 32
  | [], m => m
  | v :: vs, m => storeFrom (start + 1) vs (memWrite m start v)

theorem memRead_storeFrom (start : Nat) (vs : List Sample) (m : Mem 32) (i : Nat) :
    memRead (storeFrom start vs m) i =
      if start ≤ i ∧ i < start + vs.length then vs[i - start]? else memRead m i := by
  induction vs generalizing start m with
  | nil =>
    rw [if_neg (fun h => by simp at h; omega)]
    rfl
  | cons v vs ih =>
    rw [storeFrom, ih, memRead_memWrite, List.length_cons]
    rcases Nat.lt_trichotomy i start with h | rfl | h
    · rw [if_neg (by omega), if_neg (by omega), if_neg (by omega)]
    · rw [if_neg (by omega), if_pos rfl, if_pos (by omega), Nat.sub_self, List.getElem?_cons_zero]
    · rw [if_neg h.ne', show i - start = i - (start + 1) + 1 by omega, List.getElem?_cons_succ]
      exact if_congr (by omega) rfl rfl

/-- `SIGI` after a signal of `vs.length` samples was stored from index 0. -/
theorem memRead_storeFrom_zero (vs : List Sample) (m : Mem 32) :
    (∀ j, j < vs.length → memRead (storeFrom 0 vs m) j = some (vs.getD j 0)) ∧
      ∀ j, vs.length ≤ j → memRead (storeFrom 0 vs m) j = memRead m j := by
  constructor
  · intro j hj
    rw [memRead_storeFrom, if_pos (by omega), Nat.sub_zero, List.getElem?_eq_getElem hj, List.getD_eq_getElem _ _ hj]
  · intro j hj
    rw [memRead_storeFrom, if_neg (by omega)]

/-- The `wrs` lines of `ldsig` store their samples. -/
theorem run_wrsFrom {start : Nat} {vs : List Int} {rest : List HostAccess} {s : State}
    (hfit : start + vs.length ≤ s.caps.sigCap) (hqueue : s.hostQueue = scriptAccesses (wrsFrom start vs) ++ rest) :
    Host.Core.run core vs.length s =
      .next { s with hostQueue := rest, sigi := storeFrom start (vs.map (BitVec.ofInt 32)) s.sigi } := by
  induction vs generalizing start s with
  | nil =>
    obtain rfl : s.hostQueue = rest := hqueue
    rfl
  | cons v vs ih =>
    rw [List.length_cons] at hfit ⊢
    have hstep := step_wrs hqueue (show start < s.caps.sigCap by omega)
    exact (run_succ_of_step hstep _).trans (ih (start := start + 1) (by simp; omega) rfl)

/-- The `rds` and `wrs` lines of `mvsig` store their samples and leave some answers. -/
theorem run_copyFrom {start : Nat} {vs : List Int} {rest : List HostAccess} {s : State}
    (hfit : start + vs.length ≤ s.caps.sigCap) (hqueue : s.hostQueue = scriptAccesses (copyFrom start vs) ++ rest) :
    ∃ answers, Host.Core.run core (2 * vs.length) s = Host.Outcome.next
      { s with
        hostQueue := rest
        hostAnswers := answers
        sigi := storeFrom start (vs.map (BitVec.ofInt 32)) s.sigi } := by
  induction vs generalizing start s with
  | nil =>
    obtain rfl : s.hostQueue = rest := hqueue
    exact ⟨s.hostAnswers, rfl⟩
  | cons v vs ih =>
    rw [List.length_cons] at hfit ⊢
    have hread := step_rds hqueue
    have hwrite := step_wrs (s := hostRead .sigo start (takeAccess _ s)) (j := start) (v := v)
      (rest := scriptAccesses (copyFrom (start + 1) vs) ++ rest) rfl (show start < s.caps.sigCap by omega)
    obtain ⟨answers, hrun⟩ := ih (start := start + 1) (s := { hostRead .sigo start (takeAccess _ s) with
      hostQueue := _, sigi := memWrite s.sigi start (BitVec.ofInt 32 v) }) (by simp; omega) rfl
    exact ⟨answers, (run_succ_of_step hread _).trans ((run_succ_of_step hwrite _).trans hrun)⟩

/-- Settles O11: the samples are stored, then `IN_LEN` takes their number, which fits in 32 bits. -/
theorem ldsigLoadsTheInputSignal : Obligations.LdsigLoadsTheInputSignal := by
  intro s vs rest ⟨⟨_, hcap⟩, _⟩ hfit hqueue
  have hsplit : scriptAccesses (ldsig vs) ++ rest =
      scriptAccesses (wrsFrom 0 vs) ++ (lineAccess (.wr .inLen (BitVec.ofNat 64 vs.length)) :: rest) := by
    simp [ldsig, scriptAccesses]
  have hstore := run_wrsFrom (by omega) (hqueue.trans hsplit)
  have hrun := (run_append (n := 1) hstore).trans (run_succ_of_step (step_wr_inLen rfl) 0)
  obtain ⟨hin, hout⟩ := memRead_storeFrom_zero (vs.map (BitVec.ofInt 32)) s.sigi
  refine ⟨_, hrun, rfl, ?_, fun j hj => ?_, fun j hj => hout j (by simpa using hj)⟩
  · change ((BitVec.ofNat 64 vs.length).setWidth 32).toNat = vs.length
    rw [BitVec.toNat_setWidth, toNat_ofNat_of_lt (by omega), Nat.mod_eq_of_lt (by omega)]
  · refine (hin j (by simpa using hj)).trans ?_
    simp [hj]

/-- The values `mvsig` writes back are those of the output Signal (log entry 16). -/
theorem mvsig_of_outputIs {s : State} {y : List Sample} (hy : OutputIs s y) :
    mvsig s = .rd .outLen :: (copyFrom 0 (y.map BitVec.toInt) ++ [.wr .inLen (s.outLen.setWidth 64)]) := by
  obtain ⟨hlen, hread, -⟩ := hy
  have hvalues : (List.range s.outLen.toNat).map
      (fun j => ((memRead s.sigo j).getD (unspecifiedElement 32 .sigo s j)).toInt) = y.map BitVec.toInt := by
    rw [hlen]
    refine List.ext_getElem (by simp) fun j hj _ => ?_
    have hj' : j < y.length := by simpa using hj
    simp [hread j hj', hj']
  rw [mvsig, hvalues]

theorem map_ofInt_toInt (y : List Sample) : (y.map BitVec.toInt).map (BitVec.ofInt 32) = y := by
  simp [Function.comp_def]

/-- Settles O12: one read of `OUT_LEN`, the copies, then `IN_LEN` takes the length. -/
theorem mvsigCopiesOutputToInput : Obligations.MvsigCopiesOutputToInput := by
  intro s y rest hy hfit hqueue
  have hsplit : scriptAccesses (mvsig s) ++ rest = lineAccess (.rd .outLen) ::
      (scriptAccesses (copyFrom 0 (y.map BitVec.toInt)) ++
        (lineAccess (.wr .inLen (s.outLen.setWidth 64)) :: rest)) := by
    rw [mvsig_of_outputIs hy]
    simp [scriptAccesses]
  have hread := step_rd_outLen (hqueue.trans hsplit)
  obtain ⟨answers, hcopy⟩ := run_copyFrom (s := hostRead .reg 0x04 (takeAccess _ s)) (start := 0)
    (vs := y.map BitVec.toInt) (by simpa using hfit) rfl
  rw [List.length_map, map_ofInt_toInt] at hcopy
  have hrun := (run_succ_of_step hread (2 * y.length + 1)).trans
    ((run_append (n := 1) hcopy).trans (run_succ_of_step (step_wr_inLen rfl) 0))
  obtain ⟨hin, hout⟩ := memRead_storeFrom_zero y s.sigi
  refine ⟨_, hrun, rfl, ?_, hin, hout⟩
  change (s.outLen.setWidth 64).setWidth 32 = s.outLen
  rw [BitVec.setWidth_setWidth_of_le _ (by omega), BitVec.setWidth_eq]

end Sys2Proof.Proofs

/-! The statements about arithmetic, comparison and conversion on `F` and about the cut of the sine (`00_scope.md` R21,
R23, R25, R27, R29): what each operation answers for each class of its operands, then the obligations. -/

namespace Sys2Proof.Proofs
open Sys2Proof.Machine Sys2Proof.Laws

/-! ## Conversions (R25, R26) -/

/-- Settles O16: an integer below `2^53` has an encoding, so it is its own rounding. -/
theorem integersConvertExactly : Obligations.IntegersConvertExactly := by
  refine ⟨fun n hn => ?_, by rw [i2f, Int.zero_mul]; rfl⟩
  obtain ⟨hfin, hvalue, -⟩ := i2f_spec hn
  exact ⟨hfin, by rw [hvalue, cast_oneUnits]⟩

/-- Settles O18: a sample converts exactly, and truncation of a whole number in range is the number. -/
theorem samplesSurviveTheRoundTrip : Obligations.SamplesSurviveTheRoundTrip := f2i32_i2f

/-! ## Finite operands (R21) -/

theorem units_pos {x : F} (h : isZero x = false) : 0 < units x := by
  refine Nat.pos_of_ne_zero fun h0 => ?_
  rw [units_eq_zero.1 h0] at h
  cases h

/-- No whole number of units but 0 rounds to a zero: a zero sum is exact. -/
theorem eq_zero_of_isZero_roundUnits {z : Bool} {t : Int} (h : isZero (roundUnits z t) = true) : t = 0 := by
  by_contra hne
  have hone : unitsOfBits 1 * 1 ≤ t.natAbs := by
    have : unitsOfBits 1 = 1 := by decide
    omega
  rw [isZero_iff, roundUnits_eq, magBits_roundF] at h
  have := le_roundMag_of_le one_pos hone (by decide)
  omega

theorem signBit_of_isZero_roundUnits {z : Bool} {t : Int} (h : isZero (roundUnits z t) = true) :
    signBit (roundUnits z t) = z := by
  rw [signBit_roundUnits, if_pos (eq_zero_of_isZero_roundUnits h)]

/-- The sign of a product of values is the exclusive or of their signs. -/
theorem signedUnits_mul (a b : F) :
    signedUnits a * signedUnits b =
      if (signBit a ^^ signBit b) = true then -((units a * units b : Nat) : Int) else (units a * units b : Nat) := by
  rw [signedUnits, signedUnits]
  cases signBit a <;> cases signBit b <;> push_cast <;> simp

theorem roundsTo_fMul {a b : F} (ha : isFinite a = true) (hb : isFinite b = true) :
    RoundsTo (signedUnits a * signedUnits b) (2 ^ 1074) (fMul a b) := by
  rw [fMul_finite ha hb, signedUnits_mul, ← oneUnits_def]
  exact roundsTo_roundF oneUnits_pos

theorem roundsTo_fDiv {a b : F} (ha : isFinite a = true) (hb : isFinite b = true) (hz : isZero b = false) :
    RoundsTo (signedUnits a * 2 ^ 1074 * (if signBit b then -1 else 1)) (units b) (fDiv a b) := by
  have hvalue : signedUnits a * 2 ^ 1074 * (if signBit b then -1 else 1) =
      if (signBit a ^^ signBit b) = true then -((units a * oneUnits : Nat) : Int) else (units a * oneUnits : Nat) := by
    rw [signedUnits, ← cast_oneUnits]
    cases signBit a <;> cases signBit b <;> push_cast <;> simp
  rw [fDiv_finite ha hb hz, hvalue]
  exact roundsTo_roundF (units_pos hz)

/-- Settles O19: each operation is one rounding of the exact result. -/
theorem arithmeticRoundsToNearestEven : Obligations.ArithmeticRoundsToNearestEven := by
  intro a b ha hb
  refine ⟨?_, ?_, roundsTo_fMul ha hb, roundsTo_fDiv ha hb, ?_, ?_, ?_, fun hz => ?_⟩
  · rw [fAdd_finite ha hb]; exact roundsTo_roundUnits _ _
  · rw [fSub_finite ha hb]; exact roundsTo_roundUnits _ _
  · rw [fAdd_finite ha hb]; exact signBit_of_isZero_roundUnits
  · rw [fSub_finite ha hb]; exact signBit_of_isZero_roundUnits
  · rw [fMul_finite ha hb, signBit_roundF]
  · rw [fDiv_finite ha hb hz, signBit_roundF]

/-! ## NaN and infinite operands, zero divisors (R21) -/

section
variable {a b : F}

theorem packF_infBits (neg : Bool) : isInf (packF neg infBits) = true ∧ signBit (packF neg infBits) = neg :=
  ⟨by rw [isInf_iff, magBits_packF infBits_lt], signBit_packF infBits_lt⟩

theorem packF_zero (neg : Bool) : isZero (packF neg 0) = true ∧ signBit (packF neg 0) = neg :=
  ⟨packF_zero_isZero neg, signBit_packF (by decide)⟩

theorem isNaN_of_nan_operand (h : isNaN a = true ∨ isNaN b = true) :
    isNaN (fAdd a b) = true ∧ isNaN (fSub a b) = true ∧ isNaN (fMul a b) = true ∧ isNaN (fDiv a b) = true := by
  have hany : (isNaN a || isNaN b) = true := by simpa using h
  have hsub : (isNaN a || isNaN (if isNaN b = true then b else fNeg b)) = true := by
    cases hb : isNaN b <;> simp_all
  simp [fAdd, fSub, addAs, fMul, fDiv, hany, hsub]

theorem compare_of_nan_operand (h : isNaN a = true ∨ isNaN b = true) :
    fLt a b = false ∧ fLe a b = false ∧ fEq a b = false := by
  rcases h with h | h <;> simp [fLt, fLe, fEq, h]

/-- Two infinities: the sum of equal ones and the difference of opposite ones is the first. -/
theorem addAs_of_isInf (op : FloatOp) (ha : isInf a = true) (hb : isInf b = true) :
    (signBit a = signBit b → addAs op a b = a) ∧ (signBit a ≠ signBit b → isNaN (addAs op a b) = true) := by
  constructor <;> intro hs <;> simp [addAs, isNaN_of_isInf, ha, hb, hs]

theorem fSub_eq (hb : isNaN b = false) : fSub a b = addAs .sub a (fNeg b) := by simp [fSub, hb]

theorem addAs_inf_finite (op : FloatOp) (ha : isInf a = true) (hb : isFinite b = true) : addAs op a b = a := by
  simp [addAs, isNaN_of_isInf, ha, isNaN_of_isFinite hb, isInf_of_isFinite hb]

theorem addAs_finite_inf (op : FloatOp) (ha : isFinite a = true) (hb : isInf b = true) : addAs op a b = b := by
  simp [addAs, isNaN_of_isInf, hb, isNaN_of_isFinite ha, isInf_of_isFinite ha]

theorem fMul_zero_inf (ha : isZero a = true) (hb : isInf b = true) :
    isNaN (fMul a b) = true ∧ isNaN (fMul b a) = true := by
  have hn := isNaN_of_isFinite (isFinite_of_isZero ha)
  simp [fMul, hn, isNaN_of_isInf, ha, hb]

theorem fMul_inf (ha : isInf a = true) (hb : isNaN b = false) (hz : isZero b = false) :
    fMul a b = packF (signBit a ^^ signBit b) infBits ∧ fMul b a = packF (signBit a ^^ signBit b) infBits := by
  have hza : isZero a = false := by
    by_contra h
    rw [Bool.not_eq_false] at h
    exact absurd (isFinite_of_isZero h) (by simp [isFinite_of_isInf ha])
  simp [fMul, isNaN_of_isInf, ha, hb, hz, hza, Bool.xor_comm (signBit b)]

theorem fDiv_zero_zero (ha : isZero a = true) (hb : isZero b = true) : isNaN (fDiv a b) = true := by
  have ha' := isFinite_of_isZero ha
  have hb' := isFinite_of_isZero hb
  simp [fDiv, isNaN_of_isFinite, isInf_of_isFinite, ha, hb, ha', hb']

theorem fDiv_inf_inf (ha : isInf a = true) (hb : isInf b = true) : isNaN (fDiv a b) = true := by
  simp [fDiv, isNaN_of_isInf, ha, hb]

theorem fDiv_by_zero (ha : isFinite a = true) (hz : isZero a = false) (hb : isZero b = true) :
    fDiv a b = packF (signBit a ^^ signBit b) infBits := by
  have hb' := isFinite_of_isZero hb
  simp [fDiv, isNaN_of_isFinite, isInf_of_isFinite, ha, hz, hb, hb']

theorem fDiv_finite_inf (ha : isFinite a = true) (hb : isInf b = true) :
    fDiv a b = packF (signBit a ^^ signBit b) 0 := by
  simp [fDiv, isNaN_of_isFinite, isInf_of_isFinite, isNaN_of_isInf, ha, hb]

theorem fDiv_inf_finite (ha : isInf a = true) (hb : isFinite b = true) :
    fDiv a b = packF (signBit a ^^ signBit b) infBits := by
  simp [fDiv, isNaN_of_isFinite, isInf_of_isFinite, isNaN_of_isInf, ha, hb]

/-! ## Comparison with an infinity (R23) -/

theorem compare_of_not_isNaN (ha : isNaN a = false) (hb : isNaN b = false) :
    fLt a b = decide (signedUnits a < signedUnits b) ∧ fLe a b = decide (signedUnits a ≤ signedUnits b) ∧
      fEq a b = decide (signedUnits a = signedUnits b) := by
  simp [fLt, fLe, fEq, ha, hb]

/-- `+inf` counts above, `-inf` below every other value that is no NaN. -/
theorem signedUnits_of_isInf_of_ne (ha : isInf a = true) (hb : isNaN b = false) (hne : b ≠ a) :
    if signBit a then signedUnits a < signedUnits b else signedUnits b < signedUnits a := by
  have hmag : magBits b ≤ magBits a := by
    rw [isInf_iff.1 ha]
    simpa [isNaN] using hb
  have hle : units b ≤ units a := unitsOfBits_le.2 hmag
  have hsign : units b = units a → signBit b ≠ signBit a :=
    fun hu hs => hne (eq_of_sign_mag hs (unitsOfBits_inj.1 hu))
  have hpos : 0 < units a := by
    have hI := unitsOfBits_lt.2 (show 0 < infBits by decide)
    rw [units, isInf_iff.1 ha]
    omega
  rw [signedUnits, signedUnits]
  cases hsa : signBit a <;> cases hsb : signBit b <;> simp [hsa, hsb] at hsign ⊢ <;> omega

/-- An infinity compared with another value, either way round. -/
theorem compare_of_isInf_of_ne (ha : isInf a = true) (hb : isNaN b = false) (hne : b ≠ a) :
    fLt a b = signBit a ∧ fLe a b = signBit a ∧ fEq a b = false ∧
      fLt b a = !signBit a ∧ fLe b a = !signBit a ∧ fEq b a = false := by
  obtain ⟨hlt, hle, heq⟩ := compare_of_not_isNaN (isNaN_of_isInf ha) hb
  obtain ⟨hlt', hle', heq'⟩ := compare_of_not_isNaN hb (isNaN_of_isInf ha)
  have horder := signedUnits_of_isInf_of_ne ha hb hne
  rw [hlt, hle, heq, hlt', hle', heq']
  cases hs : signBit a <;> simp [hs] at horder ⊢ <;> omega

end

/-- Settles O20: one lemma for each class of operands. -/
theorem infinitiesAndNaNsFollowIeee : Obligations.InfinitiesAndNaNsFollowIeee := by
  intro a b
  refine ⟨fun h => ?nan, fun ha hb hs => ?sameInf, fun ha hb hs => ?oppositeInf, fun ha hb => ?infFinite, fMul_zero_inf,
    fun ha hb => ?zeroZero, fDiv_inf_inf, fun ha hz hb => ?byZero, fun ha hb => ?finiteInf, fun ha hb hz => ?mulInf,
    fun ha hb => ?divInf, fun ha => ?self, compare_of_isInf_of_ne⟩
  case nan =>
    obtain ⟨hadd, hsub, hmul, hdiv⟩ := isNaN_of_nan_operand h
    exact ⟨hadd, hsub, hmul, hdiv, compare_of_nan_operand h⟩
  case sameInf =>
    rw [fSub_eq (isNaN_of_isInf hb)]
    exact ⟨(addAs_of_isInf _ ha (by simpa using hb)).2 (by simp [hs]), (addAs_of_isInf _ ha hb).1 hs⟩
  case oppositeInf =>
    rw [fSub_eq (isNaN_of_isInf hb)]
    have hs' : signBit a = signBit (fNeg b) := by rw [signBit_fNeg]; exact Bool.eq_not_of_ne hs
    exact ⟨(addAs_of_isInf _ ha hb).2 hs, (addAs_of_isInf _ ha (by simpa using hb)).1 hs'⟩
  case infFinite =>
    rw [fSub_eq (isNaN_of_isFinite hb)]
    exact ⟨addAs_inf_finite _ ha hb, addAs_inf_finite _ ha (by simpa using hb)⟩
  case zeroZero =>
    refine ⟨fDiv_zero_zero ha hb, ?_⟩
    rw [fEq_iff (isNaN_of_isFinite (isFinite_of_isZero ha)) (isNaN_of_isFinite (isFinite_of_isZero hb)),
      signedUnits_eq_zero.2 ha, signedUnits_eq_zero.2 hb]
  case byZero => rw [fDiv_by_zero ha hz hb]; exact packF_infBits _
  case finiteInf =>
    rw [fSub_eq (isNaN_of_isInf hb), fDiv_finite_inf ha hb]
    exact ⟨addAs_finite_inf _ ha hb, addAs_finite_inf _ ha (by simpa using hb), packF_zero _⟩
  case mulInf =>
    obtain ⟨hab, hba⟩ := fMul_inf ha hb hz
    obtain ⟨hinf, hsign⟩ := packF_infBits (signBit a ^^ signBit b)
    rw [hab, hba]
    exact ⟨hinf, hinf, hsign, hsign⟩
  case divInf => rw [fDiv_inf_finite ha hb]; exact packF_infBits _
  case self =>
    obtain ⟨hlt, hle, heq⟩ := compare_of_not_isNaN (isNaN_of_isInf ha) (isNaN_of_isInf ha)
    rw [hlt, hle, heq]
    simp

/-! ## The phase wrap (R29) -/

/-- A value in `[0, TWO_PI)` with sign bit 0 is encoded below `TWO_PI`. -/
theorem magBits_lt_of_fLt_TWO_PI {x : F} (hs : signBit x = false) (h : fLt x TWO_PI = true) :
    magBits x < magBits TWO_PI := by
  have hlt := (fLt_iff (not_isNaN_of_fLt h).1 (not_isNaN_of_fLt h).2).1 h
  rw [signedUnits_of_signBit_false hs, signedUnits_of_signBit_false signBit_TWO_PI] at hlt
  exact unitsOfBits_lt.1 (by exact_mod_cast hlt)

/-- Settles O22: the encoding of a wrapped phase is below that of `TWO_PI`. -/
theorem wrapStaysBelowTwoPi : Obligations.WrapStaysBelowTwoPi := by
  intro x
  refine ⟨fun hx => ?_, fun _ hlt hs => fWrap_id hs (magBits_lt_of_fLt_TWO_PI hs hlt), fWrap_of_not_isFinite⟩
  obtain ⟨hsign, hmag⟩ := fWrap_spec hx
  have hfin := fWrap_isFinite hx
  exact ⟨hfin, fLe_zero_of_signBit (isNaN_of_isFinite hfin) hsign, fLt_TWO_PI hsign hmag, hsign⟩

/-! ## The cut of the sine (R27) -/

/-- The value `v` is one S1 to S4 allow at the operand `x`. -/
def SineValueOk (x v : F) : Prop :=
  (x = F_0 → v = F_0) ∧
    (isFinite x = true → InRange (fNeg F_1) F_1 v ∧
      Bracketing (Real.sin ((signedUnits x : ℝ) / 2 ^ 1074) * 2 ^ 1074) v) ∧
    (isFinite x = false → isNaN v = true)

/-- S1 to S4 speak of one operand at a time. -/
theorem sineSpec_iff (f : F → F) : SineSpec f ↔ ∀ x, SineValueOk x (f x) := by
  constructor
  · rintro ⟨hzero, hbounded, hnan, hbrackets⟩ x
    refine ⟨?_, fun hx => ⟨hbounded x hx, hbrackets x hx⟩, hnan x⟩
    rintro rfl
    exact hzero
  · intro h
    have hzero (x) : x = F_0 → f x = F_0 := (h x).1
    have hfinite (x) (hx : isFinite x = true) := (h x).2.1 hx
    exact ⟨hzero F_0 rfl, fun x hx => (hfinite x hx).1, fun x => (h x).2.2, fun x hx => (hfinite x hx).2⟩

theorem sineValueOk_cutSine (f : F → F) (x : F) : SineValueOk x (cutSine f x) :=
  (sineSpec_iff _).1 (sineSpec_cutSine f) x

/-- The cut keeps every value the requirements allow. -/
theorem cutSine_eq_self {f : F → F} {x : F} (h : SineValueOk x (f x)) : cutSine f x = f x := by
  obtain ⟨hzero, hfinite, hnan⟩ := h
  unfold cutSine
  split
  · next h0 => exact (hzero h0).symm
  · cases hx : isFinite x with
    | false => simp [hnan hx]
    | true => simp [sineAllowed_iff.2 (hfinite hx).2]

/-- Settles O25: a cut function has S1 to S4, and the cut keeps the values they allow. -/
theorem cutKeepsExactlyTheAllowedSines : Obligations.CutKeepsExactlyTheAllowedSines := by
  intro f
  constructor
  · intro h
    rw [← h]
    exact sineSpec_cutSine f
  · intro h
    exact funext fun x => cutSine_eq_self ((sineSpec_iff f).1 h x)

/-- Settles O26: a constant function has the value at the operand, where the cut keeps it. -/
theorem sineTakesExactlyTheAllowedValues : Obligations.SineTakesExactlyTheAllowedValues := by
  intro x v
  constructor
  · rintro ⟨f, rfl⟩
    exact sineValueOk_cutSine f x
  · intro h
    exact ⟨fun _ => v, cutSine_eq_self (f := fun _ => v) h⟩

end Sys2Proof.Proofs

/-! How each command ends, by what decides it: a failing check, the table, the draws, and the read of its input. -/

namespace Sys2Proof.Proofs
open Sys2Proof.Machine Sys2Proof.Laws

/-! ## The end of a command that reads its input (R64) -/

/-- The outcome of a command past its checks: a fault at the first unwritten sample, or the end `finish` makes of the
samples read. -/
def onRead (read : Except Nat (List Sample)) (finish : List Sample → State) : Host.Outcome State Fault Refusal :=
  match read with
  | .error j => .fault (.unwrittenSample j)
  | .ok x => .next (finish x)

theorem onRead_eq_fault {read : Except Nat (List Sample)} {finish : List Sample → State} {f : Fault}
    (h : onRead read finish = .fault f) : ∃ j, read = .error j ∧ f = .unwrittenSample j := by
  cases read with
  | error j => cases h; exact ⟨j, rfl, rfl⟩
  | ok x => cases h

theorem onRead_ne_refused {read : Except Nat (List Sample)} {finish : List Sample → State} {r : Refusal} :
    onRead read finish ≠ .refused r := by
  intro h
  cases read <;> cases h

/-- The state after a completed `APF` on the input `x` (R144). -/
def apfEnd (s : State) (x : List Sample) : State :=
  complete (stage x s.params.apM.toNat (feedbackG s)) false (forgetDelays s)

/-- The state after a completed cascade command with the stage lengths `lens` on the input `x` (R161, R171). -/
def cascadeEnd (lens : List Nat) (s : State) (x : List Sample) : State :=
  complete (cascade (feedbackG s) lens (padSignal x s.params.sampleRate.toNat)) false
    (setStageTable lens (forgetDelays s))

theorem runCascade_eq_onRead (lens : List Nat) (s : State) :
    runCascade lens s = onRead (readSignal s s.params.inLen.toNat) (cascadeEnd lens s) := by
  rw [runCascade]
  cases readSignal s s.params.inLen.toNat <;> rfl

section
variable {s : State} {r : Rejection}

/-! ## Failing checks (R260) -/

theorem exec_apf_of_failure (h : firstFailure (apfChecks s) = some r) : exec .apf s = .next (reject r s) := by
  change execApf s = _
  rw [execApf, h]

theorem exec_difd_of_failure (h : firstFailure (difdChecks s) = some r) : exec .difd s = .next (rejectCascade r s) := by
  change execDifd s = _
  rw [execDifd, h]

theorem exec_schr_of_failure (h : firstFailure (schrChecks s) = some r) : exec .schr s = .next (rejectCascade r s) := by
  change execSchr s = _
  rw [execSchr, h]

theorem exec_rmod_of_failure (h : firstFailure (rmodChecks s) = some r) : exec .rmod s = .next (reject r s) := by
  change ringModulate sine s = _
  rw [ringModulate, h]

theorem exec_dsmp_of_failure (h : firstFailure (dsmpChecks s) = some r) : exec .dsmp s = .next (reject r s) := by
  change execDsmp s = _
  rw [execDsmp, h]

/-! ## The commands with one read (R144, R191, R231) -/

theorem exec_apf_eq_onRead (hready : ApfReady s) :
    exec .apf s = onRead (readSignal s s.params.inLen.toNat) (apfEnd s) := by
  change execApf s = _
  rw [execApf, apfChecks_pass.2 hready]
  cases readSignal s s.params.inLen.toNat <;> rfl

theorem exec_rmod_eq_onRead (hready : RmodReady s) :
    exec .rmod s = onRead (readSignal s (ringLength s)) (fun x =>
      ringEnd (ringLoop sine (ringSetup s) ⟨F_0, F_0⟩ x).1 (ringLoop sine (ringSetup s) ⟨F_0, F_0⟩ x).2 s) := by
  change ringModulate sine s = _
  rw [ringModulate, rmodChecks_pass.2 hready]
  cases readSignal s (ringLength s) <;> rfl

theorem exec_dsmp_eq_onRead (hready : DsmpReady s) :
    exec .dsmp s = onRead (readSamples s.sigi ((List.range (decimatedLength s)).map (fun j => j * decimationFactor s)))
      (fun out => complete out false s) := by
  change execDsmp s = _
  rw [execDsmp, dsmpChecks_pass.2 hready]
  cases readSamples s.sigi ((List.range (decimatedLength s)).map (fun j => j * decimationFactor s)) <;> rfl

/-! ## `DIFD` past its checks (R165 to R167) -/

theorem exec_difd_of_bad_table (hready : DifdReady s)
    (htable : scanTable s.caps.dlyCap 0 (difdLengths s) = .error r) : exec .difd s = .next (rejectCascade r s) := by
  change execDifd s = _
  rw [execDifd, difdChecks_pass.2 hready]
  simp only [htable]

theorem exec_difd_of_table {lens : List Nat} (hready : DifdReady s)
    (htable : scanTable s.caps.dlyCap 0 (difdLengths s) = .ok lens) :
    exec .difd s = onRead (readSignal s s.params.inLen.toNat) (cascadeEnd lens s) := by
  rw [← runCascade_eq_onRead]
  change execDifd s = _
  rw [execDifd, difdChecks_pass.2 hready]
  simp only [htable]

/-! ## `SCHR` past its checks (R171 to R176) -/

/-- The table of a `SCHR` whose draws were answered with `rs`. -/
def drawnLengths (s : State) (rs : List F) : List SampleCount := rs.map (fun r => floorLen r s.params.sampleRate)

theorem exec_schr_of_refused_draw {a : F} (hready : SchrReady s)
    (hdraw : drawMany (drawLo s) (drawHi s) s.params.dlStages.toNat s = .error a) :
    exec .schr s = .refused (.drawOutsideContract a) := by
  change execSchr s = _
  rw [execSchr, schrChecks_pass.2 hready]
  simp only [hdraw]

variable {rs : List F} {t : State}

/-- What draws that are all answered leave: the answers meet the contract, and only the random port has moved. -/
theorem draws_of_ready (hready : SchrReady s)
    (hdraw : drawMany (drawLo s) (drawHi s) s.params.dlStages.toNat s = .ok (rs, t)) :
    rs.length = s.params.dlStages.toNat ∧ (∀ r ∈ rs, drawAllowed (drawLo s) (drawHi s) r = true) ∧ t = afterDraws s :=
  drawMany_ok (drawAllowed_lo hready) hdraw

theorem exec_schr_of_bad_table (hready : SchrReady s)
    (hdraw : drawMany (drawLo s) (drawHi s) s.params.dlStages.toNat s = .ok (rs, t))
    (htable : scanTable s.caps.dlyCap 0 (drawnLengths s rs) = .error r) :
    exec .schr s = .next (rejectCascade r (afterDraws s)) := by
  obtain ⟨-, -, rfl⟩ := draws_of_ready hready hdraw
  rw [drawnLengths] at htable
  change execSchr s = _
  rw [execSchr, schrChecks_pass.2 hready]
  simp only [hdraw, htable]

theorem exec_schr_of_table {lens : List Nat} (hready : SchrReady s)
    (hdraw : drawMany (drawLo s) (drawHi s) s.params.dlStages.toNat s = .ok (rs, t))
    (htable : scanTable s.caps.dlyCap 0 (drawnLengths s rs) = .ok lens) :
    exec .schr s = onRead (readSignal s s.params.inLen.toNat) (cascadeEnd lens (afterDraws s)) := by
  obtain ⟨-, -, rfl⟩ := draws_of_ready hready hdraw
  rw [drawnLengths] at htable
  have hrun := runCascade_eq_onRead lens (afterDraws s)
  change execSchr s = _
  rw [execSchr, schrChecks_pass.2 hready]
  simp only [hdraw, htable]
  exact hrun

/-- The port's contract for the bounds of `SCHR`, written out (R172, R270). -/
theorem drawAllowed_iff_contract {a : F} :
    drawAllowed (drawLo s) (drawHi s) a = true ↔ isFinite a = true ∧ fLe (fMul F_0p9 s.params.dlDelay) a = true ∧
      fLt a (fMul F_1p5 s.params.dlDelay) = true := drawAllowed_iff

/-- Scripted answers that meet the contract are the draws (R270, R271). -/
theorem draws_of_script {later : List F} (hscript : s.drawScript = rs ++ later)
    (hlen : rs.length = s.params.dlStages.toNat)
    (hrs : ∀ r ∈ rs, isFinite r = true ∧ fLe (fMul F_0p9 s.params.dlDelay) r = true ∧
      fLt r (fMul F_1p5 s.params.dlDelay) = true) :
    drawMany (drawLo s) (drawHi s) s.params.dlStages.toNat s = .ok (rs, afterDraws s) ∧
      (afterDraws s).drawScript = later := by
  have hlater : (afterDraws s).drawScript = later := by
    change s.drawScript.drop s.params.dlStages.toNat = later
    rw [hscript, ← hlen, List.drop_left]
  refine ⟨?_, hlater⟩
  rw [← hlen, drawMany_scripted hscript (fun r hr => drawAllowed_iff_contract.2 (hrs r hr)), hlen, ← hlater]
  rfl

end

end Sys2Proof.Proofs

/-! What a command reports depends on its operands only (`30_encoding.md` R115): two states that agree on the operands
of a command end by the same update of the state, or stop for the same reason. -/

namespace Sys2Proof.Proofs
open Sys2Proof.Machine Sys2Proof.Laws

/-! ## The updates a command can end with -/

/-- The random port with `n` answers taken. -/
def skipDraws (n : Nat) (s : State) : State :=
  { s with drawScript := s.drawScript.drop n, drawCount := s.drawCount + n }

/-- The update of the state with which command `i` can end, its data made of operands only. -/
inductive EndUpdate : Instr → (State → State) → Prop where
  | rejected (i : Instr) (r : Rejection) : i = .apf ∨ i = .rmod ∨ i = .dsmp → r.code ≠ .ok → EndUpdate i (reject r)
  | rejectedCascade (i : Instr) (r : Rejection) : i = .difd ∨ i = .schr → EndUpdate i (rejectCascade r)
  | rejectedAfterDraws (r : Rejection) (n : Nat) : EndUpdate .schr (fun s => rejectCascade r (skipDraws n s))
  | apf (out : List Sample) : EndUpdate .apf (fun s => complete out false (forgetDelays s))
  | difd (lens : List Nat) (out : List Sample) :
      EndUpdate .difd (fun s => complete out false (setStageTable lens (forgetDelays s)))
  | schr (lens : List Nat) (out : List Sample) (n : Nat) :
      EndUpdate .schr (fun s => complete out false (setStageTable lens (forgetDelays (skipDraws n s))))
  | rmod (out : List Sample) (x : Bool) (lfo carrier : F) :
      EndUpdate .rmod (fun s => complete out x (setPhases lfo carrier s))
  | dsmp (out : List Sample) : EndUpdate .dsmp (complete out false)

/-- Command `i` ends in both states by one update, or stops in both for one reason. -/
def SameEnd (i : Instr) (s s' : State) : Prop :=
  (∃ u, EndUpdate i u ∧ exec i s = .next (u s) ∧ exec i s' = .next (u s')) ∨
    (∃ f, exec i s = .fault f ∧ exec i s' = .fault f) ∨ (∃ r, exec i s = .refused r ∧ exec i s' = .refused r)

section
variable {i : Instr} {s s' : State}

theorem sameEnd_of_next {u : State → State} (hu : EndUpdate i u) (h : exec i s = .next (u s))
    (h' : exec i s' = .next (u s')) : SameEnd i s s' := .inl ⟨u, hu, h, h'⟩

/-- Past the checks: the same samples are read, and one update is made of them. -/
theorem sameEnd_of_onRead {read : Except Nat (List Sample)} {finish finish' : List Sample → State}
    (h : exec i s = onRead read finish) (h' : exec i s' = onRead read finish')
    (hu : ∀ x, ∃ u, EndUpdate i u ∧ finish x = u s ∧ finish' x = u s') : SameEnd i s s' := by
  cases read with
  | error j => exact .inr (.inl ⟨_, h, h'⟩)
  | ok x =>
    obtain ⟨u, hend, he, he'⟩ := hu x
    exact sameEnd_of_next hend (h.trans (congrArg _ he)) (h'.trans (congrArg _ he'))

theorem readSignal_of_sameInput {n m : Nat} (h : SameInput n s s') (hm : m ≤ n) :
    readSignal s' m = readSignal s m :=
  readSamples_congr fun j hj => h j ((List.mem_range.1 hj).trans_le hm)

theorem draw_of_same_port (lo hi : F) (hscript : s'.drawScript = s.drawScript) (hcount : s'.drawCount = s.drawCount) :
    (∃ a, draw lo hi s = .error a ∧ draw lo hi s' = .error a) ∨
      ∃ r, draw lo hi s = .ok (r, skipDraws 1 s) ∧ draw lo hi s' = .ok (r, skipDraws 1 s') := by
  cases hs : s.drawScript with
  | nil =>
    exact .inr ⟨boundedDraw lo hi (Config.freeDraw s.drawCount), by simp [draw, skipDraws, hs],
      by simp [draw, skipDraws, hscript, hcount, hs]⟩
  | cons a rest =>
    by_cases ha : drawAllowed lo hi a = true
    · exact .inr ⟨a, by simp [draw, skipDraws, hs, ha], by simp [draw, skipDraws, hscript, hs, ha]⟩
    · exact .inl ⟨a, by simp [draw, hs, ha], by simp [draw, hscript, hs, ha]⟩

theorem skipDraws_skipDraws (m n : Nat) (s : State) : skipDraws n (skipDraws m s) = skipDraws (n + m) s := by
  simp [skipDraws, Nat.add_comm, Nat.add_left_comm]

/-- The draws are the same where the random port is. -/
theorem drawMany_of_same_port (lo hi : F) (n : Nat) (hscript : s'.drawScript = s.drawScript)
    (hcount : s'.drawCount = s.drawCount) :
    (∃ a, drawMany lo hi n s = .error a ∧ drawMany lo hi n s' = .error a) ∨
      ∃ rs, drawMany lo hi n s = .ok (rs, skipDraws n s) ∧ drawMany lo hi n s' = .ok (rs, skipDraws n s') := by
  induction n generalizing s s' with
  | zero => exact .inr ⟨[], rfl, rfl⟩
  | succ n ih =>
    rcases draw_of_same_port lo hi hscript hcount with ⟨a, h, h'⟩ | ⟨r, h, h'⟩
    · exact .inl ⟨a, by simp [drawMany, h], by simp [drawMany, h']⟩
    · have hrest := ih (s := skipDraws 1 s) (s' := skipDraws 1 s') (by simp [skipDraws, hscript])
        (by simp [skipDraws, hcount])
      rcases hrest with ⟨a, hm, hm'⟩ | ⟨rs, hm, hm'⟩
      · exact .inl ⟨a, by simp [drawMany, h, hm], by simp [drawMany, h', hm']⟩
      · rw [skipDraws_skipDraws] at hm hm'
        exact .inr ⟨r :: rs, by simp [drawMany, h, hm], by simp [drawMany, h', hm']⟩

theorem checks_code {cs : List (Bool × Rejection)} {r : Rejection} (hcs : ∀ c ∈ cs, c.2.code ≠ .ok)
    (h : firstFailure cs = some r) : r.code ≠ .ok := hcs _ (firstFailure_mem h)

theorem apfChecks_code (s : State) : ∀ c ∈ apfChecks s, c.2.code ≠ .ok := by
  simp [apfChecks, invalidParameter, capacityExceeded]

theorem rmodChecks_code (s : State) : ∀ c ∈ rmodChecks s, c.2.code ≠ .ok := by
  simp [rmodChecks, invalidParameter, capacityExceeded]

theorem dsmpChecks_code (s : State) : ∀ c ∈ dsmpChecks s, c.2.code ≠ .ok := by
  simp [dsmpChecks, degenerateResample, capacityExceeded]

/-! ## One lemma per command -/

theorem sameEnd_apf (h : SameOperands .apf s s') : SameEnd .apf s s' := by
  obtain ⟨hcaps, hlen, hin, hm, hfb⟩ := h
  have hchecks : apfChecks s' = apfChecks s := by simp [apfChecks, inLenTooLong, badFeedback, hcaps, hlen, hm, hfb]
  cases hc : firstFailure (apfChecks s) with
  | some r =>
    exact sameEnd_of_next (.rejected _ r (.inl rfl) (checks_code (apfChecks_code s) hc)) (exec_apf_of_failure hc)
      (exec_apf_of_failure (hchecks ▸ hc))
  | none =>
    have hend := exec_apf_eq_onRead (apfChecks_pass.1 hc)
    have hend' := exec_apf_eq_onRead (apfChecks_pass.1 (hchecks ▸ hc))
    rw [hlen, readSignal_of_sameInput hin le_rfl] at hend'
    exact sameEnd_of_onRead hend hend' fun x => ⟨_, .apf _, rfl, by simp only [apfEnd, feedbackG, hm, hfb]⟩

theorem sharedChecks_of_sameOperands (hcaps : s'.caps = s.caps) (hlen : s'.params.inLen = s.params.inLen)
    (hrate : s'.params.sampleRate = s.params.sampleRate) (hdelay : s'.params.dlDelay = s.params.dlDelay)
    (hfb : s'.params.dlFeedback = s.params.dlFeedback) (hn : s'.params.dlStages = s.params.dlStages) :
    sharedChecks s' = sharedChecks s := by
  simp [sharedChecks, inLenTooLong, badFeedback, hcaps, hlen, hrate, hdelay, hfb, hn]

theorem sameEnd_difd (h : SameOperands .difd s s') : SameEnd .difd s s' := by
  obtain ⟨hcaps, hlen, hin, hrate, hdelay, hfb, hn, hd⟩ := h
  have hchecks : difdChecks s' = difdChecks s := by
    simp [difdChecks, sharedChecks_of_sameOperands hcaps hlen hrate hdelay hfb hn, hd]
  have htables : scanTable s'.caps.dlyCap 0 (difdLengths s') = scanTable s.caps.dlyCap 0 (difdLengths s) := by
    simp [difdLengths, hcaps, hrate, hdelay, hn, hd]
  cases hc : firstFailure (difdChecks s) with
  | some r =>
    exact sameEnd_of_next (.rejectedCascade _ r (.inl rfl)) (exec_difd_of_failure hc)
      (exec_difd_of_failure (hchecks ▸ hc))
  | none =>
    have hready := difdChecks_pass.1 hc
    have hready' : DifdReady s' := difdChecks_pass.1 (hchecks ▸ hc)
    cases ht : scanTable s.caps.dlyCap 0 (difdLengths s) with
    | error r =>
      exact sameEnd_of_next (.rejectedCascade _ r (.inl rfl)) (exec_difd_of_bad_table hready ht)
        (exec_difd_of_bad_table hready' (htables.trans ht))
    | ok lens =>
      have hend' := exec_difd_of_table hready' (htables.trans ht)
      rw [hlen, readSignal_of_sameInput hin le_rfl] at hend'
      exact sameEnd_of_onRead (exec_difd_of_table hready ht) hend' fun x =>
        ⟨_, .difd lens _, rfl, by simp only [cascadeEnd, feedbackG, hrate, hfb]⟩

theorem sameEnd_schr (h : SameOperands .schr s s') : SameEnd .schr s s' := by
  obtain ⟨hcaps, hlen, hin, hrate, hdelay, hfb, hn, hscript, hcount⟩ := h
  have hchecks : schrChecks s' = schrChecks s := by
    simp [schrChecks, drawLo, drawHi, sharedChecks_of_sameOperands hcaps hlen hrate hdelay hfb hn, hdelay]
  cases hc : firstFailure (schrChecks s) with
  | some r =>
    exact sameEnd_of_next (.rejectedCascade _ r (.inr rfl)) (exec_schr_of_failure hc)
      (exec_schr_of_failure (hchecks ▸ hc))
  | none =>
    have hready := schrChecks_pass.1 hc
    have hready' : SchrReady s' := schrChecks_pass.1 (hchecks ▸ hc)
    have hlo : drawLo s' = drawLo s := by rw [drawLo, drawLo, hdelay]
    have hhi : drawHi s' = drawHi s := by rw [drawHi, drawHi, hdelay]
    rcases drawMany_of_same_port (drawLo s) (drawHi s) s.params.dlStages.toNat hscript hcount with
      ⟨a, hdraw, hdraw'⟩ | ⟨rs, hdraw, hdraw'⟩ <;> rw [← hlo, ← hhi, ← hn] at hdraw'
    · exact .inr (.inr ⟨_, exec_schr_of_refused_draw hready hdraw, exec_schr_of_refused_draw hready' hdraw'⟩)
    · have htables : scanTable s'.caps.dlyCap 0 (drawnLengths s' rs) =
          scanTable s.caps.dlyCap 0 (drawnLengths s rs) := by
        simp [drawnLengths, hcaps, hrate]
      have hafter : afterDraws s' = skipDraws s.params.dlStages.toNat s' := by rw [← hn]; rfl
      cases ht : scanTable s.caps.dlyCap 0 (drawnLengths s rs) with
      | error r =>
        refine sameEnd_of_next (.rejectedAfterDraws r s.params.dlStages.toNat)
          (exec_schr_of_bad_table hready hdraw ht) ?_
        rw [← hafter]
        exact exec_schr_of_bad_table hready' hdraw' (htables.trans ht)
      | ok lens =>
        have hend' := exec_schr_of_table hready' hdraw' (htables.trans ht)
        rw [hlen, readSignal_of_sameInput hin le_rfl, hafter] at hend'
        exact sameEnd_of_onRead (exec_schr_of_table hready hdraw ht) hend' fun x =>
          ⟨_, .schr lens _ s.params.dlStages.toNat, rfl, by
            simp only [cascadeEnd, feedbackG, skipDraws, hrate, hfb]
            rfl⟩

theorem sameEnd_rmod (h : SameOperands .rmod s s') : SameEnd .rmod s s' := by
  obtain ⟨hcaps, hlen, hin, hrate, hsamples, hmix, hamount, hwave, hlfo, hfreq⟩ := h
  have hchecks : rmodChecks s' = rmodChecks s := by
    simp [rmodChecks, inLenTooLong, hcaps, hlen, hrate, hmix, hamount, hlfo, hfreq]
  have hsetup : ringSetup s' = ringSetup s := by
    simp [ringSetup, sampleRateF, mixN, amountN, hrate, hmix, hamount, hwave, hlfo, hfreq]
  have hn : ringLength s' = ringLength s := by rw [ringLength, ringLength, hlen, hsamples]
  have hnotice : signalExhausted s' = signalExhausted s := by rw [signalExhausted, signalExhausted, hlen, hsamples]
  cases hc : firstFailure (rmodChecks s) with
  | some r =>
    exact sameEnd_of_next (.rejected _ r (.inr (.inl rfl)) (checks_code (rmodChecks_code s) hc))
      (exec_rmod_of_failure hc) (exec_rmod_of_failure (hchecks ▸ hc))
  | none =>
    have hend := exec_rmod_eq_onRead (rmodChecks_pass.1 hc)
    have hend' := exec_rmod_eq_onRead (s := s') (rmodChecks_pass.1 (hchecks ▸ hc))
    rw [hn, readSignal_of_sameInput hin (ringLength_le_inLen s), hsetup] at hend'
    exact sameEnd_of_onRead hend hend' fun x => ⟨_, .rmod _ _ _ _, rfl, by simp only [ringEnd, hnotice]⟩

theorem sameEnd_dsmp (h : SameOperands .dsmp s s') : SameEnd .dsmp s s' := by
  obtain ⟨hcaps, hlen, hin, hrate, hnew⟩ := h
  have hchecks : dsmpChecks s' = dsmpChecks s := by simp [dsmpChecks, inLenTooLong, hcaps, hlen, hrate, hnew]
  have hfactor : decimationFactor s' = decimationFactor s := by rw [decimationFactor, decimationFactor, hrate, hnew]
  have hn : decimatedLength s' = decimatedLength s := by rw [decimatedLength, decimatedLength, hlen, hfactor]
  cases hc : firstFailure (dsmpChecks s) with
  | some r =>
    exact sameEnd_of_next (.rejected _ r (.inr (.inr rfl)) (checks_code (dsmpChecks_code s) hc))
      (exec_dsmp_of_failure hc) (exec_dsmp_of_failure (hchecks ▸ hc))
  | none =>
    have hready := dsmpChecks_pass.1 hc
    have hend' := exec_dsmp_eq_onRead (s := s') (dsmpChecks_pass.1 (hchecks ▸ hc))
    have hread : readSamples s'.sigi ((List.range (decimatedLength s)).map (fun j => j * decimationFactor s)) =
        readSamples s.sigi ((List.range (decimatedLength s)).map (fun j => j * decimationFactor s)) := by
      refine readSamples_congr fun k hk => ?_
      obtain ⟨j, hj, rfl⟩ := List.mem_map.1 hk
      exact hin _ ((lt_decimatedLength_iff hready j).1 (List.mem_range.1 hj))
    rw [hn, hfactor, hread] at hend'
    exact sameEnd_of_onRead (exec_dsmp_eq_onRead hready) hend' fun out => ⟨_, .dsmp out, rfl, rfl⟩

theorem sameEnd_of_sameOperands (h : SameOperands i s s') : SameEnd i s s' := by
  cases i with
  | apf => exact sameEnd_apf h
  | difd => exact sameEnd_difd h
  | schr => exact sameEnd_schr h
  | rmod => exact sameEnd_rmod h
  | dsmp => exact sameEnd_dsmp h

/-! ## The report, and the fields no command reads (R56) -/

/-- One update makes one report, if it starts from one random port. -/
theorem sameReport_of_endUpdate {u : State → State} (hu : EndUpdate i u)
    (hdraws : i = .schr → s'.drawScript = s.drawScript ∧ s'.drawCount = s.drawCount) :
    SameReport i (u s) (u s') := by
  cases hu with
  | rejected i r hi hr =>
    refine ⟨rfl, rfl, rfl, ?_, ?_, fun _ h0 => absurd (codeOf_resultWord_eq_zero.1 h0) hr⟩ <;>
      rcases hi with rfl | rfl | rfl <;> simp
  | rejectedCascade i r hi =>
    refine ⟨rfl, rfl, rfl, fun _ => ⟨rfl, rfl⟩, hdraws, ?_⟩
    rcases hi with rfl | rfl <;> simp
  | rejectedAfterDraws r n =>
    obtain ⟨hscript, hcount⟩ := hdraws rfl
    exact ⟨rfl, rfl, rfl, fun _ => ⟨rfl, rfl⟩, fun _ => by simp [skipDraws, hscript, hcount], by simp⟩
  | schr lens out n =>
    obtain ⟨hscript, hcount⟩ := hdraws rfl
    exact ⟨rfl, rfl, rfl, fun _ => ⟨rfl, rfl⟩, fun _ => by simp [skipDraws, hscript, hcount], by simp⟩
  | difd lens out => exact ⟨rfl, rfl, rfl, fun _ => ⟨rfl, rfl⟩, by simp, by simp⟩
  | rmod out x lfo carrier => exact ⟨rfl, rfl, rfl, by simp, by simp, fun _ _ => ⟨.inl rfl, .inl rfl⟩⟩
  | apf | dsmp => exact ⟨rfl, rfl, rfl, by simp, by simp, by simp⟩

/-- `s` with other values in the four pass-through registers. -/
def withPassThrough (a b c d : BitVec 64) (s : State) : State :=
  { s with params := { s.params with dlMix := a, dlWidth := b, dlHighPass := c, dlLowPass := d } }

theorem sameOperands_withPassThrough (i : Instr) (a b c d : BitVec 64) (s : State) :
    SameOperands i s (withPassThrough a b c d s) := by
  cases i <;> simp [SameOperands, SameInput, withPassThrough]

theorem withPassThrough_of_endUpdate {u : State → State} (hu : EndUpdate i u) (a b c d : BitVec 64) (s : State) :
    u (withPassThrough a b c d s) = withPassThrough a b c d (u s) := by
  cases hu <;> rfl

theorem params_of_endUpdate {u : State → State} (hu : EndUpdate i u) (s : State) : (u s).params = s.params := by
  cases hu <;> rfl

end

/-- Settles O55: both states end by one update, and one update makes one report. -/
theorem reportDependsOnlyOnTheOperands : Obligations.ReportDependsOnlyOnTheOperands := by
  intro i s s' h
  rcases sameEnd_of_sameOperands h with ⟨u, hu, hnext, hnext'⟩ | hstop
  · refine .inl ⟨_, _, hnext, hnext', sameReport_of_endUpdate hu ?_⟩
    rintro rfl
    obtain ⟨-, -, -, -, -, -, -, hport⟩ := h
    exact hport
  · exact .inr hstop

/-- Settles O56: the four registers are no operands, and an update of the state does not touch them. -/
theorem passThroughFieldsHaveNoEffect : Obligations.PassThroughFieldsHaveNoEffect := by
  intro i s t a b c d hnext
  rcases sameEnd_of_sameOperands (sameOperands_withPassThrough i a b c d s) with
    ⟨u, hu, hend, hend'⟩ | ⟨f, hfault, -⟩ | ⟨r, hrefused, -⟩
  · obtain rfl : u s = t := by rw [hend] at hnext; cases hnext; rfl
    refine hend'.trans ?_
    rw [withPassThrough_of_endUpdate hu, withPassThrough, params_of_endUpdate hu]
  · rw [hfault] at hnext; cases hnext
  · rw [hrefused] at hnext; cases hnext

end Sys2Proof.Proofs

/-! What an end leaves alone and what it reports (`60_exceptions.md` R251, R252, `10_state.md` R47), read off the ways a
command can end. -/

namespace Sys2Proof.Proofs
open Sys2Proof.Machine Sys2Proof.Laws

section
variable {i : Instr} {s t : State}

/-! ## Frames -/

theorem codeOf_complete (out : List Sample) (x : Bool) (s : State) : codeOf (complete out x s).result = 0 :=
  codeOf_resultWord_eq_zero.2 rfl

theorem kept_of_ends (h : Ends s i t) : Kept s t := by
  cases h <;> constructor <;> simp [afterDraws]

theorem phasesKept_of_ends (h : Ends s i t) (hi : i ≠ .rmod) : PhasesKept s t := by
  cases h with
  | rmod => exact absurd rfl hi
  | rejected | rejectedCascade | rejectedAfterDraws | apf | difd | schr | dsmp => simp [PhasesKept, afterDraws]

theorem stageTableKept_of_ends (h : Ends s i t) (hd : i ≠ .difd) (hs : i ≠ .schr) : StageTableKept s t := by
  cases h with
  | rejectedCascade i r hi => exact absurd hi (not_or.2 ⟨hd, hs⟩)
  | rejectedAfterDraws | schr => exact absurd rfl hs
  | difd => exact absurd rfl hd
  | rejected | apf | rmod | dsmp => simp [StageTableKept]

theorem drawsKept_of_ends (h : Ends s i t) (hi : i ≠ .schr) : DrawsKept s t := by
  cases h with
  | rejectedAfterDraws | schr => exact absurd rfl hi
  | rejected | rejectedCascade | apf | difd | rmod | dsmp => simp [DrawsKept]

theorem dly_kept_of_ends (h : Ends s i t) (hi : i = .rmod ∨ i = .dsmp ∨ codeOf t.result ≠ 0) : t.dly = s.dly := by
  cases h with
  | apf | difd | schr => rw [codeOf_complete] at hi; simp at hi
  | rejected | rejectedCascade | rejectedAfterDraws | rmod | dsmp => simp [afterDraws]

theorem dly_forgotten_of_ends (h : Ends s i t) (hi : i = .apf ∨ i = .difd ∨ i = .schr) (h0 : codeOf t.result = 0) :
    t.dly = [] := by
  cases h with
  | rejected i r _ hr => exact absurd (codeOf_resultWord_eq_zero.1 h0) hr
  | rejectedCascade i r _ hr | rejectedAfterDraws r _ hr =>
    exact absurd (codeOf_resultWord_eq_zero.1 h0) (ne_ok_of_cascade_rejection hr)
  | apf | difd | schr => simp
  | rmod | dsmp => simp at hi

/-! ## Codes (R47, R251) -/

/-- The word a command reports: a code its checks can raise, never an illegal word's, and with code 0 no fields. -/
theorem result_of_ends (h : Ends s i t) :
    ∃ c x p st, t.result = resultWord c x p st ∧ c ≠ .illegalCommand ∧ (c = .invalidParameter → i ≠ .dsmp) ∧
      (c = .degenerateResample → i = .dsmp) ∧ (c = .ok → p = 0 ∧ st = 0) := by
  cases h with
  | rejected i r _ hok hillegal hinvalid hdegenerate =>
    exact ⟨_, _, _, _, rfl, hillegal, hinvalid, hdegenerate, fun h => absurd h hok⟩
  | rejectedCascade i r hi hr =>
    refine ⟨_, _, _, _, rfl, ?_⟩
    rcases hi with rfl | rfl <;> rcases hr with hr | hr <;> simp [hr]
  | rejectedAfterDraws r _ hr =>
    refine ⟨_, _, _, _, rfl, ?_⟩
    rcases hr with hr | hr <;> simp [hr]
  | apf | difd | schr | rmod | dsmp => exact ⟨_, _, _, _, rfl, by simp⟩

/-! ## Rejections (R252) -/

theorem outputIs_nil_of_rejected (h : Ends s i t) (h0 : codeOf t.result ≠ 0) : OutputIs t [] ∧ sigxOf t.result = 0 := by
  cases h with
  | apf | difd | schr | rmod | dsmp => exact absurd (codeOf_complete _ _ _) h0
  | rejected | rejectedCascade | rejectedAfterDraws => simp [OutputIs]

theorem phasesKept_of_rejected (h : Ends s i t) (h0 : codeOf t.result ≠ 0) : PhasesKept s t := by
  by_cases hi : i = .rmod
  · cases h with
    | apf | difd | schr | rmod | dsmp => exact absurd (codeOf_complete _ _ _) h0
    | rejected | rejectedCascade | rejectedAfterDraws => simp [PhasesKept, afterDraws]
  · exact phasesKept_of_ends h hi

theorem stageTableIs_nil_of_rejected (h : Ends s i t) (h0 : codeOf t.result ≠ 0) (hi : i = .difd ∨ i = .schr) :
    StageTableIs t [] := by
  cases h with
  | apf | difd | schr | rmod | dsmp => exact absurd (codeOf_complete _ _ _) h0
  | rejected i r hi' => rcases hi with rfl | rfl <;> simp at hi'
  | rejectedCascade | rejectedAfterDraws => exact stageTableIs_rejectCascade _ _

theorem draws_of_rejected_schr (h : Ends s .schr t) (h0 : codeOf t.result ≠ 0) :
    DrawsKept s t ∨ (t.drawCount = s.drawCount + s.params.dlStages.toNat ∧
      t.drawScript = s.drawScript.drop s.params.dlStages.toNat) := by
  cases h with
  | schr => exact absurd (codeOf_complete _ _ _) h0
  | rejected i r hi => simp at hi
  | rejectedCascade => exact .inl (by simp [DrawsKept])
  | rejectedAfterDraws => exact .inr ⟨rfl, rfl⟩

end

/-- Settles O52, by the ways a command can end. -/
theorem commandsKeepWhatTheyDoNotWrite : Obligations.CommandsKeepWhatTheyDoNotWrite := by
  intro i s t hnext
  have h := exec_next hnext
  refine ⟨kept_of_ends h, phasesKept_of_ends h, stageTableKept_of_ends h, drawsKept_of_ends h, dly_kept_of_ends h,
    fun hi h0 p => ?_⟩
  rw [dly_forgotten_of_ends h hi h0, memRead_nil]

/-- Settles O53, by the word a command reports. -/
theorem codesComeFromTheirCommands : Obligations.CodesComeFromTheirCommands := by
  refine ⟨fun i s t hnext => ?_, fun s => by rw [illegalCommand_result, codeOf_resultWord]; rfl⟩
  obtain ⟨c, x, p, st, hword, hillegal, hinvalid, hdegenerate, hok⟩ := result_of_ends (exec_next hnext)
  rw [hword, codeOf_resultWord, paramOf_resultWord, stageOf_resultWord]
  cases c <;> simp [ResultCode.bits] at hillegal hinvalid hdegenerate hok ⊢ <;> assumption

/-- Settles O54: of the ways a command can end, the completed ones have code 0. -/
theorem rejectionsArePrecise : Obligations.RejectionsArePrecise := by
  intro i s t hnext h0
  have h := exec_next hnext
  obtain ⟨hout, hsigx⟩ := outputIs_nil_of_rejected h h0
  refine ⟨hout, hsigx, kept_of_ends h, phasesKept_of_rejected h h0, dly_kept_of_ends h (.inr (.inr h0)),
    stageTableIs_nil_of_rejected h h0, stageTableKept_of_ends h, drawsKept_of_ends h, ?_⟩
  rintro rfl
  exact draws_of_rejected_schr h h0

end Sys2Proof.Proofs

/-! The order of the checks of `APF` and `RMOD` (`40_allpass_stage.md` R144, `42_ring_modulator.md` R192): which check
is the first to fail, and that the reset registers fail one check of every command (`10_state.md` section 5). -/

namespace Sys2Proof.Proofs
open Sys2Proof.Machine Sys2Proof.Laws

section
variable {s : State} {c : ResultCode} {p : BitVec 8} {k : Nat}

theorem rejects_of_apfChecks (h : firstFailure (apfChecks s) = some ⟨c, p, BitVec.ofNat 32 k⟩) :
    Rejects .apf s c p k := rejects_of_exec (exec_apf_of_failure h)

theorem rejects_of_rmodChecks (h : firstFailure (rmodChecks s) = some ⟨c, p, BitVec.ofNat 32 k⟩) :
    Rejects .rmod s c p k := rejects_of_exec (exec_rmod_of_failure h)

/-! ## `APF` (R144) -/

theorem apfChecks_of_not_inputFits (hfit : ¬ InputFits s) :
    firstFailure (apfChecks s) = some (capacityExceeded 0x03) := by
  simp [apfChecks, firstFailure, inLenTooLong_eq_true.2 hfit]

theorem apfChecks_of_apM_zero (hfit : InputFits s) (hm : s.params.apM = 0) :
    firstFailure (apfChecks s) = some (invalidParameter 0x18) := by
  simp [apfChecks, firstFailure, inLenTooLong_eq_false.2 hfit, hm]

theorem apfChecks_of_apM_too_long (hfit : InputFits s) (hm : s.params.apM ≠ 0)
    (hcap : s.caps.dlyCap < s.params.apM.toNat) : firstFailure (apfChecks s) = some (capacityExceeded 0x18) := by
  simp only [apfChecks, firstFailure, inLenTooLong_eq_false.2 hfit, decide_eq_false hm, decide_eq_true hcap,
    Bool.false_eq_true, if_false, if_true]

theorem apfChecks_of_bad_feedback (hfit : InputFits s) (hm : s.params.apM ≠ 0)
    (hcap : s.params.apM.toNat ≤ s.caps.dlyCap) (hfb : ¬ FeedbackOk s) :
    firstFailure (apfChecks s) = some (invalidParameter 0x12) := by
  simp only [apfChecks, firstFailure, inLenTooLong_eq_false.2 hfit, decide_eq_false hm,
    decide_eq_false (Nat.not_lt.2 hcap), badFeedback_eq_true.2 hfb, Bool.false_eq_true, if_false, if_true]

/-! ## `RMOD` (R192) -/

theorem rmodChecks_of_not_inputFits (hfit : ¬ InputFits s) :
    firstFailure (rmodChecks s) = some (capacityExceeded 0x03) := by
  simp [rmodChecks, firstFailure, inLenTooLong_eq_true.2 hfit]

theorem rmodChecks_of_sampleRate_zero (hfit : InputFits s) (hrate : s.params.sampleRate = 0) :
    firstFailure (rmodChecks s) = some (invalidParameter 0x02) := by
  simp [rmodChecks, firstFailure, inLenTooLong_eq_false.2 hfit, hrate]

theorem outOfRange_eq_true {lo hi x : F} (hlo : isFinite lo = true) (hhi : isFinite hi = true) :
    outOfRange lo hi x = true ↔ ¬ InRange lo hi x := by
  rw [← outOfRange_eq_false hlo hhi, Bool.not_eq_false]

/-- Past the checks on the input length and the sample rate, those on the mix, the amount, the rate and the frequency
remain. -/
theorem rmodChecks_of_sampleRate (hfit : InputFits s) (hrate : s.params.sampleRate ≠ 0) :
    firstFailure (rmodChecks s) = firstFailure ((rmodChecks s).drop 2) := by
  simp only [rmodChecks, firstFailure, inLenTooLong_eq_false.2 hfit, decide_eq_false hrate, Bool.false_eq_true,
    if_false, List.drop_succ_cons, List.drop_zero]

theorem laterRmodChecks_of_bad_mix (hmix : ¬ InRange F_0 F_100 s.params.rmMix) :
    firstFailure ((rmodChecks s).drop 2) = some (invalidParameter 0x08) := by
  simp [rmodChecks, firstFailure, (outOfRange_eq_true (by decide) (by decide)).2 hmix]

theorem laterRmodChecks_of_bad_amount (hmix : InRange F_0 F_100 s.params.rmMix)
    (hamount : ¬ InRange F_0 F_10 s.params.rmAmount) :
    firstFailure ((rmodChecks s).drop 2) = some (invalidParameter 0x09) := by
  simp [rmodChecks, firstFailure, (outOfRange_eq_false (by decide) (by decide)).2 hmix,
    (outOfRange_eq_true (by decide) (by decide)).2 hamount]

theorem laterRmodChecks_of_ranges (hmix : InRange F_0 F_100 s.params.rmMix)
    (hamount : InRange F_0 F_10 s.params.rmAmount) :
    firstFailure ((rmodChecks s).drop 2) = firstFailure ((rmodChecks s).drop 4) := by
  simp [rmodChecks, firstFailure, (outOfRange_eq_false (by decide) (by decide)).2 hmix,
    (outOfRange_eq_false (by decide) (by decide)).2 hamount]

theorem lastRmodChecks_of_bad_rate (hlfo : isFinite s.params.rmRate = false) :
    firstFailure ((rmodChecks s).drop 4) = some (invalidParameter 0x0B) := by
  simp [rmodChecks, firstFailure, hlfo]

theorem lastRmodChecks_of_bad_frequency (hlfo : isFinite s.params.rmRate = true)
    (hfreq : isFinite s.params.rmFrequency = false) :
    firstFailure ((rmodChecks s).drop 4) = some (invalidParameter 0x0C) := by
  simp [rmodChecks, firstFailure, hlfo, hfreq]

end

/-- Settles O29: each clause names the check that is the first to fail. -/
theorem apfReportsItsFirstFailingCheck : Obligations.ApfReportsItsFirstFailingCheck := by
  intro s
  refine ⟨fun hfit => ?_, fun hfit hm => ?_, fun hfit hm hcap => ?_, fun hfit hm hcap hfb => ?_⟩
  · exact rejects_of_apfChecks (apfChecks_of_not_inputFits hfit)
  · exact rejects_of_apfChecks (apfChecks_of_apM_zero hfit hm)
  · exact rejects_of_apfChecks (apfChecks_of_apM_too_long hfit hm hcap)
  · exact rejects_of_apfChecks (apfChecks_of_bad_feedback hfit hm hcap hfb)

/-- Settles O44: each clause names the check that is the first to fail. -/
theorem rmodReportsItsFirstFailingCheck : Obligations.RmodReportsItsFirstFailingCheck := by
  intro s
  refine ⟨fun hfit => ?_, fun hfit hrate => ?_, fun hfit hrate => ?_⟩
  · exact rejects_of_rmodChecks (rmodChecks_of_not_inputFits hfit)
  · exact rejects_of_rmodChecks (rmodChecks_of_sampleRate_zero hfit hrate)
  · have hlater := rmodChecks_of_sampleRate hfit hrate
    refine ⟨fun hmix => ?_, fun hmix => ⟨fun hamount => ?_, fun hamount => ?_⟩⟩
    · exact rejects_of_rmodChecks (hlater.trans (laterRmodChecks_of_bad_mix hmix))
    · exact rejects_of_rmodChecks (hlater.trans (laterRmodChecks_of_bad_amount hmix hamount))
    · have hlast := hlater.trans (laterRmodChecks_of_ranges hmix hamount)
      exact ⟨fun hlfo => rejects_of_rmodChecks (hlast.trans (lastRmodChecks_of_bad_rate hlfo)),
        fun hlfo hfreq => rejects_of_rmodChecks (hlast.trans (lastRmodChecks_of_bad_frequency hlfo hfreq))⟩

/-- Settles O14: an empty input fits, so the first parameter at 0 that a command checks is the one it reports. -/
theorem resetRegistersRejectEveryCommand : Obligations.ResetRegistersRejectEveryCommand := by
  intro s hparams
  have hfit : InputFits s := by rw [InputFits, hparams]; exact Nat.zero_le _
  have hm : s.params.apM = 0 := by rw [hparams]; rfl
  have hrate : s.params.sampleRate = 0 := by rw [hparams]; rfl
  have hnew : s.params.newSampleRate = 0 := by rw [hparams]; rfl
  exact ⟨rejects_of_apfChecks (apfChecks_of_apM_zero hfit hm),
    rejectsCascade_of_sharedChecks (.inl rfl) (sharedChecks_of_sampleRate_zero hfit hrate),
    rejectsCascade_of_sharedChecks (.inr rfl) (sharedChecks_of_sampleRate_zero hfit hrate),
    rejects_of_rmodChecks (rmodChecks_of_sampleRate_zero hfit hrate),
    rejects_of_dsmpChecks (dsmpChecks_of_degenerate hfit (.inl hnew))⟩

end Sys2Proof.Proofs

/-! Where a command stops (log entries 2 and 7): at the first unwritten sample it reads, or at a scripted answer outside
the contract of the random port. -/

namespace Sys2Proof.Proofs
open Sys2Proof.Machine Sys2Proof.Laws

/-! ## Reads -/

/-- A read stops at an index of its list whose element is not written. -/
theorem mem_of_readSamples_error {m : Mem 32} {is : List Nat} {j : Nat} (h : readSamples m is = .error j) :
    j ∈ is ∧ memRead m j = none := by
  obtain ⟨a, b, rfl, -, hnone⟩ := readSamples_eq_error.1 h
  exact ⟨by simp, hnone⟩

/-- A list over the indices below `n`, cut at one of them. -/
theorem map_range_split {α : Type} (f : Nat → α) {n j : Nat} (hj : j < n) :
    ∃ rest, (List.range n).map f = (List.range j).map f ++ f j :: rest := by
  obtain ⟨d, rfl⟩ := Nat.exists_eq_add_of_lt hj
  refine ⟨(List.range d).map (fun k => f (j + 1 + k)), ?_⟩
  rw [show j + d + 1 = (j + 1) + d by omega, List.range_add, List.range_succ]
  simp

/-! ## The three ways a command goes -/

section
variable {s : State}

/-- Command `i` is rejected or reads samples below `IN_LEN`, or it is a `SCHR` whose draws are refused. -/
inductive Goes (s : State) : Instr → Prop where
  | rejected (i : Instr) (t : State) : exec i s = .next t → Goes s i
  | reads (i : Instr) (is : List Nat) (finish : List Sample → State) : (∀ k ∈ is, k < s.params.inLen.toNat) →
      exec i s = onRead (readSamples s.sigi is) finish → Goes s i
  | refused (a : F) : drawMany (drawLo s) (drawHi s) s.params.dlStages.toNat s = .error a →
      exec .schr s = .refused (.drawOutsideContract a) → Goes s .schr

theorem goes_of_readSignal {i : Instr} {n : Nat} {finish : List Sample → State} (hn : n ≤ s.params.inLen.toNat)
    (h : exec i s = onRead (readSignal s n) finish) : Goes s i :=
  .reads i (List.range n) finish (fun _ hk => (List.mem_range.1 hk).trans_le hn) h

theorem goes_apf : Goes s .apf := by
  cases hc : firstFailure (apfChecks s) with
  | some r => exact .rejected _ _ (exec_apf_of_failure hc)
  | none => exact goes_of_readSignal le_rfl (exec_apf_eq_onRead (apfChecks_pass.1 hc))

theorem goes_difd : Goes s .difd := by
  cases hc : firstFailure (difdChecks s) with
  | some r => exact .rejected _ _ (exec_difd_of_failure hc)
  | none =>
    have hready := difdChecks_pass.1 hc
    cases ht : scanTable s.caps.dlyCap 0 (difdLengths s) with
    | error r => exact .rejected _ _ (exec_difd_of_bad_table hready ht)
    | ok lens => exact goes_of_readSignal le_rfl (exec_difd_of_table hready ht)

theorem goes_schr : Goes s .schr := by
  cases hc : firstFailure (schrChecks s) with
  | some r => exact .rejected _ _ (exec_schr_of_failure hc)
  | none =>
    have hready := schrChecks_pass.1 hc
    cases hdraw : drawMany (drawLo s) (drawHi s) s.params.dlStages.toNat s with
    | error a => exact .refused a hdraw (exec_schr_of_refused_draw hready hdraw)
    | ok drawn =>
      cases ht : scanTable s.caps.dlyCap 0 (drawnLengths s drawn.1) with
      | error r => exact .rejected _ _ (exec_schr_of_bad_table hready hdraw ht)
      | ok lens => exact goes_of_readSignal le_rfl (exec_schr_of_table hready hdraw ht)

theorem goes_rmod : Goes s .rmod := by
  cases hc : firstFailure (rmodChecks s) with
  | some r => exact .rejected _ _ (exec_rmod_of_failure hc)
  | none => exact goes_of_readSignal (ringLength_le_inLen s) (exec_rmod_eq_onRead (rmodChecks_pass.1 hc))

theorem goes_dsmp : Goes s .dsmp := by
  cases hc : firstFailure (dsmpChecks s) with
  | some r => exact .rejected _ _ (exec_dsmp_of_failure hc)
  | none =>
    have hready := dsmpChecks_pass.1 hc
    refine .reads _ _ _ (fun k hk => ?_) (exec_dsmp_eq_onRead hready)
    obtain ⟨j, hj, rfl⟩ := List.mem_map.1 hk
    exact (lt_decimatedLength_iff hready j).1 (List.mem_range.1 hj)

theorem goes (i : Instr) : Goes s i := by
  cases i with
  | apf => exact goes_apf
  | difd => exact goes_difd
  | schr => exact goes_schr
  | rmod => exact goes_rmod
  | dsmp => exact goes_dsmp

end

/-- Settles O57: only a read faults, and only a draw is refused. -/
theorem stopsOnlyAtUnwrittenInputOrBadDraws : Obligations.StopsOnlyAtUnwrittenInputOrBadDraws := by
  intro i s
  refine ⟨fun f hf => ?_, fun r hr => ?_⟩
  · rcases goes (s := s) i with ⟨i, t, h⟩ | ⟨i, is, finish, his, h⟩ | ⟨a, -, h⟩ <;> rw [h] at hf
    · cases hf
    · obtain ⟨j, hread, rfl⟩ := onRead_eq_fault hf
      obtain ⟨hmem, hnone⟩ := mem_of_readSamples_error hread
      exact ⟨j, rfl, his j hmem, hnone⟩
    · cases hf
  · rcases goes (s := s) i with ⟨i, t, h⟩ | ⟨i, is, finish, -, h⟩ | ⟨a, hdraw, h⟩ <;> rw [h] at hr
    · cases hr
    · exact absurd hr onRead_ne_refused
    · cases hr
      obtain ⟨hmem, hbad⟩ := drawMany_error hdraw
      refine ⟨a, rfl, rfl, hmem, fun hgood => ?_⟩
      rw [drawAllowed_iff_contract.2 hgood] at hbad
      cases hbad

/-! ## Faults (R64) -/

/-- A scan of lengths between 1 and the capacity gives them as the table. -/
theorem difdLengths_of_samples {s : State} {b0 : Nat}
    (hb : s.params.dlStages.toNat ≠ 0 → floorLen s.params.dlDelay s.params.sampleRate = .samples b0) :
    difdLengths s = ((List.range s.params.dlStages.toNat).map (fun k => b0 / (k + s.params.divOffset.toNat))).map
      SampleCount.samples := by
  rw [difdLengths, List.map_map]
  refine List.map_congr_left fun k hk => ?_
  have hn : s.params.dlStages.toNat ≠ 0 := by
    have := List.mem_range.1 hk
    omega
  rw [hb hn, divisorLength, Function.comp_apply]

/-- Settles O58: past its checks, table and draws a command reads its samples in order. -/
theorem unwrittenInputFaults : Obligations.UnwrittenInputFaults := by
  refine ⟨fun s j hwritten hnone => ⟨fun hready hj => ?_, fun hready hj => ?_, fun b0 hready hj hb hfit => ?_,
    fun rs later ms hready hj hscript hlen hrs htable hfit => ?_⟩, ?_⟩
  · rw [exec_apf_eq_onRead hready, readSignal_error hj hwritten hnone, onRead]
  · rw [exec_rmod_eq_onRead hready, readSignal_error (n := ringLength s) hj hwritten hnone, onRead]
  · have htable := scanTable_eq_ok (k := 0).2 ⟨difdLengths_of_samples hb, by simpa using hfit⟩
    rw [exec_difd_of_table hready htable, readSignal_error hj hwritten hnone, onRead]
  · obtain ⟨hdraw, -⟩ := draws_of_script hscript hlen hrs
    rw [exec_schr_of_table hready hdraw (scanTable_eq_ok.2 ⟨htable, hfit⟩), readSignal_error hj hwritten hnone, onRead]
  · rintro s factor j hready rfl hwritten hnone hj
    change j * decimationFactor s < _ at hj
    have hread : readSamples s.sigi ((List.range (decimatedLength s)).map (fun j => j * decimationFactor s)) =
        .error (j * decimationFactor s) := by
      have hj' : j < decimatedLength s := (lt_decimatedLength_iff hready j).2 hj
      obtain ⟨rest, hsplit⟩ := map_range_split (fun j => j * decimationFactor s) hj'
      refine readSamples_eq_error.2 ⟨_, rest, hsplit, fun k hk => ?_, hnone⟩
      obtain ⟨i, hi, rfl⟩ := List.mem_map.1 hk
      exact hwritten i (List.mem_range.1 hi)
    rw [exec_dsmp_eq_onRead hready, hread, onRead]
    rfl

end Sys2Proof.Proofs

/-! The rejections of the cascade commands past their checks, and the draws of `SCHR` (`41_diffusion_cascade.md` R166,
R167, R173, R176, `60_exceptions.md` R270). -/

namespace Sys2Proof.Proofs
open Sys2Proof.Machine Sys2Proof.Laws

section
variable {s : State} {c : ResultCode} {p : BitVec 8} {k : Nat}

theorem rejectsCascade_of_difdTable (hready : DifdReady s)
    (h : scanTable s.caps.dlyCap 0 (difdLengths s) = .error ⟨c, p, BitVec.ofNat 32 k⟩) :
    RejectsCascade .difd s c p k := rejectsCascade_of_exec (exec_difd_of_bad_table hready h)

/-- The table of `DIFD`, cut at stage `k`. -/
theorem difdLengths_split {b0 : SampleCount} (hb : floorLen s.params.dlDelay s.params.sampleRate = b0)
    (hk : k < s.params.dlStages.toNat) :
    ∃ rest, difdLengths s = (List.range k).map (divisorLength b0 s.params.divOffset.toNat) ++
      divisorLength b0 s.params.divOffset.toNat k :: rest := by
  rw [difdLengths, hb]
  exact map_range_split _ hk

/-- A rejection after the draws leaves what a rejection before them does, but for the random port. -/
theorem rejectedAs_afterDraws (s : State) (c : ResultCode) (p : BitVec 8) (k : Nat) :
    RejectedAs c p k s (rejectCascade ⟨c, p, BitVec.ofNat 32 k⟩ (afterDraws s)) := by
  have h := rejectedAs_rejectCascade (afterDraws s) c p k
  exact { h with kept := { h.kept with } }

end

/-- Settles O35: the lengths before stage `k` pass the scan, so stage `k` decides. -/
theorem difdReportsTheFirstBadStage : Obligations.DifdReportsTheFirstBadStage := by
  intro s k hready hk
  refine ⟨?_, fun b0 hb hbefore => ?_⟩
  · rintro hb rfl
    obtain ⟨rest, hsplit⟩ := difdLengths_split hb hk
    refine rejectsCascade_of_difdTable hready ?_
    rw [hsplit]
    rfl
  · obtain ⟨rest, hsplit⟩ := difdLengths_split hb hk
    have hprefix : (List.range k).map (divisorLength (.samples b0) s.params.divOffset.toNat) =
        ((List.range k).map (fun j => b0 / (j + s.params.divOffset.toNat))).map SampleCount.samples := by
      rw [List.map_map]
      rfl
    have hscan := scanTable_first_bad (cap := s.caps.dlyCap) (k := 0) (rest := rest)
      (ms := (List.range k).map (fun j => b0 / (j + s.params.divOffset.toNat)))
      (l := divisorLength (.samples b0) s.params.divOffset.toNat k) (by simpa using hbefore)
    rw [← hprefix, ← hsplit, List.length_map, List.length_range, Nat.zero_add] at hscan
    exact ⟨fun hlong => rejectsCascade_of_difdTable hready (hscan.1 (.inr ⟨_, rfl, hlong⟩)),
      fun hzero => rejectsCascade_of_difdTable hready (hscan.2 (congrArg _ (Nat.div_eq_of_lt hzero)))⟩

/-- Settles O36: the draws are those scripted, and the lengths before stage `k` pass the scan. -/
theorem schrReportsTheFirstBadStageAfterAllDraws : Obligations.SchrReportsTheFirstBadStageAfterAllDraws := by
  intro s rs later k ms hready hscript hlen hrs hk hbefore hms
  obtain ⟨hdraw, hlater⟩ := draws_of_script hscript hlen hrs
  have hcount : (afterDraws s).drawCount = s.drawCount + rs.length := by rw [hlen]; rfl
  have hcut : rs.take k ++ rs.getD k 0 :: rs.drop (k + 1) = rs := by
    rw [List.getD_eq_getElem _ _ hk, ← List.drop_eq_getElem_cons hk, List.take_append_drop]
  have hsplit : drawnLengths s rs = ms.map SampleCount.samples ++
      floorLen (rs.getD k 0) s.params.sampleRate :: drawnLengths s (rs.drop (k + 1)) := by
    conv_lhs => rw [← hcut, drawnLengths, List.map_append, List.map_cons, hbefore]
    rfl
  have hk' : ms.length = k := by
    have := congrArg List.length hbefore
    simp at this
    omega
  have hscan := scanTable_first_bad (cap := s.caps.dlyCap) (k := 0)
    (rest := drawnLengths s (rs.drop (k + 1)))
    (l := floorLen (rs.getD k 0) s.params.sampleRate) hms
  rw [← hsplit, hk', Nat.zero_add] at hscan
  refine ⟨fun hbad => ?_, fun hzero => ?_⟩
  · exact ⟨_, exec_schr_of_bad_table hready hdraw (hscan.1 hbad), rejectedAs_afterDraws s _ _ k,
      stageTableIs_rejectCascade _ _, hlater, hcount⟩
  · exact ⟨_, exec_schr_of_bad_table hready hdraw (hscan.2 hzero), rejectedAs_afterDraws s _ _ k,
      stageTableIs_rejectCascade _ _, hlater, hcount⟩

/-! ## Unscripted draws (log entry 7) -/

/-- Answers put into the script of a state that has none leave the state that the draws leave. -/
theorem afterDraws_withScript {s : State} {rs : List F} (hempty : s.drawScript = [])
    (hlen : rs.length = s.params.dlStages.toNat) : afterDraws { s with drawScript := rs } = afterDraws s := by
  simp [afterDraws, hempty, ← hlen]

/-- Settles O37: the free answers, once drawn, can be scripted, and the same table and cascade follow. -/
theorem unscriptedDrawsMeetTheContract : Obligations.UnscriptedDrawsMeetTheContract := by
  intro s hready hempty
  cases hdraw : drawMany (drawLo s) (drawHi s) s.params.dlStages.toNat s with
  | error a =>
    obtain ⟨hmem, -⟩ := drawMany_error hdraw
    rw [hempty] at hmem
    cases hmem
  | ok drawn =>
    obtain ⟨hlen, hallowed, -⟩ := draws_of_ready hready hdraw
    have hcontract := fun r hr => drawAllowed_iff_contract.1 (hallowed r hr)
    have hready' : SchrReady { s with drawScript := drawn.1 } := hready
    obtain ⟨hdraw', -⟩ := draws_of_script (s := { s with drawScript := drawn.1 }) (later := [])
      (List.append_nil _).symm hlen hcontract
    refine ⟨drawn.1, hlen, hcontract, ?_⟩
    cases htable : scanTable s.caps.dlyCap 0 (drawnLengths s drawn.1) with
    | error r =>
      rw [exec_schr_of_bad_table hready hdraw htable, exec_schr_of_bad_table hready' hdraw' htable,
        afterDraws_withScript hempty hlen]
    | ok lens =>
      rw [exec_schr_of_table hready hdraw htable, exec_schr_of_table hready' hdraw' htable,
        afterDraws_withScript hempty hlen]
      rfl

end Sys2Proof.Proofs

/-! The all-pass stage (`40_allpass_stage.md`): the sample loop against the delay recurrence, then what the recurrence
gives for a zero coefficient, a long buffer and a silent input. -/

namespace Sys2Proof.Proofs
open Sys2Proof.Machine Sys2Proof.Laws

/-! ## The delay recurrence (R142, R143) -/

section
variable {x : List Sample} {m : Nat} {g : F} {y : Nat → F}

/-- What step `i` reads from its slot when the untruncated values are `y`: the start value, or what step `i - m` fed
back. -/
def delayed (x : List Sample) (m : Nat) (g : F) (y : Nat → F) (i : Nat) : F :=
  if i < m then F_0 else stageFeed g (sampleF (x.getD (i - m) 0)) (y (i - m))

/-- `y` is the sequence of the untruncated values of a stage on `x`. -/
def Recurrence (x : List Sample) (m : Nat) (g : F) (y : Nat → F) : Prop :=
  ∀ i, i < x.length → y i = stageY g (sampleF (x.getD i 0)) (delayed x m g y i)

/-- Before step `i` the `m` slots hold what the next `m` steps read. -/
def SlotsHold (x : List Sample) (m : Nat) (g : F) (y : Nat → F) (i : Nat) (dly : Mem 64) : Prop :=
  ∀ k, i ≤ k → k < i + m → memRead dly (k % m) = some (delayed x m g y k)

theorem slotsHold_clearedDelays : SlotsHold x m g y 0 (clearedDelays m) := by
  intro k _ hk
  rw [Nat.zero_add] at hk
  rw [Nat.mod_eq_of_lt hk, delayed, if_pos hk, clearedDelays, memRead_memOfList]
  simp [hk]

/-- A step reads its slot and leaves there what step `i + m` reads. -/
theorem stageStep_of_slotsHold (hm : 1 ≤ m) (hy : Recurrence x m g y) {i : Nat} (hi : i < x.length) {dly : Mem 64}
    (hdly : SlotsHold x m g y i dly) :
    (stageStep m g i (x.getD i 0) dly).1 = f2i32 (y i) ∧
      SlotsHold x m g y (i + 1) (stageStep m g i (x.getD i 0) dly).2 := by
  have hread : stageY g (sampleF (x.getD i 0)) (delayRead dly (i % m)) = y i := by
    rw [delayRead, hdly i le_rfl (by omega), Option.getD_some, ← hy i hi]
  refine ⟨congrArg f2i32 hread, fun k hk hk' => ?_⟩
  rw [stageStep, hread, memRead_memWrite]
  split
  · next hslot =>
    obtain rfl : k = i + m := by
      have hdvd : m ∣ k - i := (Nat.modEq_iff_dvd' (by omega)).1 hslot.symm
      have := Nat.le_of_dvd (by omega) hdvd
      omega
    rw [delayed, if_neg (by omega), Nat.add_sub_cancel]
  · next hslot =>
    refine hdly k (by omega) (lt_of_le_of_ne (by omega) ?_)
    rintro rfl
    exact hslot (Nat.add_mod_right i m)

theorem stageLoop_of_slotsHold (hm : 1 ≤ m) (hy : Recurrence x m g y) (vs : List Sample) {i : Nat} {dly : Mem 64}
    (hvs : x.drop i = vs) (hdly : SlotsHold x m g y i dly) :
    (stageLoop m g i vs dly).1 = (List.range' i vs.length).map (fun k => f2i32 (y k)) := by
  induction vs generalizing i dly with
  | nil => rfl
  | cons v vs ih =>
    have hi : i < x.length := by
      by_contra hge
      rw [List.drop_eq_nil_of_le (by omega)] at hvs
      cases hvs
    rw [List.drop_eq_getElem_cons hi, ← List.getD_eq_getElem _ 0 hi] at hvs
    obtain ⟨rfl, hrest⟩ := List.cons.inj hvs
    obtain ⟨hout, hnext⟩ := stageStep_of_slotsHold hm hy hi hdly
    rw [List.length_cons, List.range'_succ, List.map_cons, ← ih hrest hnext, ← hout]
    rfl

theorem stage_of_recurrence (hm : 1 ≤ m) (hy : Recurrence x m g y) :
    stage x m g = (List.range x.length).map (fun i => f2i32 (y i)) := by
  rw [stage, stageLoop_of_slotsHold hm hy x rfl slotsHold_clearedDelays, List.range_eq_range']

end

/-- The recurrence with its delayed values named, as R142 and R143 write it. -/
theorem recurrence_of_delays {x : List Sample} {m : Nat} {g : F} {d y : Nat → F}
    (hd : ∀ i, i < x.length → d i =
      if i < m then F_0 else fAdd (i2f (x.getD (i - m) 0).toInt) (fMul g (y (i - m))))
    (hy : ∀ i, i < x.length → y i = fAdd (fMul (fNeg g) (i2f (x.getD i 0).toInt)) (d i)) : Recurrence x m g y := by
  intro i hi
  rw [hy i hi, hd i hi]
  rfl

/-- Settles O27, by the slots a step reads and leaves. -/
theorem stageFollowsTheDelayRecurrence : Obligations.StageFollowsTheDelayRecurrence := by
  intro x m g d y hm hd hy
  exact stage_of_recurrence hm (recurrence_of_delays hd hy)

/-! ## A completed `APF` (R144) -/

section
variable {s : State} {x : List Sample}

theorem exec_apf_of_input (hready : ApfReady s) (hlen : x.length = s.params.inLen.toNat) (hx : InputIs s x) :
    exec .apf s = .next (apfEnd s x) := by
  rw [exec_apf_eq_onRead hready, ← hlen, readSignal_ok.2 hx, onRead]

theorem apfEnd_result (s : State) (x : List Sample) : (apfEnd s x).result = 0 := by
  rw [apfEnd, complete_result]
  decide

theorem outputIs_apfEnd (hlen : x.length = s.params.inLen.toNat) :
    OutputIs (apfEnd s x) (stage x s.params.apM.toNat (fDiv s.params.dlFeedback F_100)) := by
  refine outputIs_complete _ _ _ ?_
  rw [stage_length, hlen]
  exact s.params.inLen.isLt

theorem apfEnd_frame (s : State) (x : List Sample) :
    Kept s (apfEnd s x) ∧ PhasesKept s (apfEnd s x) ∧ StageTableKept s (apfEnd s x) ∧ DrawsKept s (apfEnd s x) := by
  refine ⟨?_, ?_, ?_, ?_⟩
  · constructor <;> simp [apfEnd]
  · simp [PhasesKept, apfEnd]
  · simp [StageTableKept, apfEnd]
  · simp [DrawsKept, apfEnd]

end

/-- Settles O28: the output is that of the stage, which follows the recurrence. -/
theorem apfCompletesWithTheDelayRecurrence : Obligations.ApfCompletesWithTheDelayRecurrence := by
  rintro s x g d y hready hlen hx rfl hd hy
  obtain ⟨-, hm, -⟩ := id hready
  have hout := outputIs_apfEnd (s := s) hlen
  rw [stage_of_recurrence hm (recurrence_of_delays hd hy)] at hout
  exact ⟨_, exec_apf_of_input hready hlen hx, apfEnd_result s x, hout, apfEnd_frame s x⟩

/-! ## Every stage has a recurrence -/

/-- The untruncated values of a stage, by the recurrence. -/
def stageValues (x : List Sample) (m : Nat) (g : F) (i : Nat) : F :=
  stageY g (sampleF (x.getD i 0))
    (if _h : i < m ∨ m = 0 then F_0 else stageFeed g (sampleF (x.getD (i - m) 0)) (stageValues x m g (i - m)))
termination_by i
decreasing_by omega

theorem recurrence_stageValues (x : List Sample) {m : Nat} (hm : 1 ≤ m) (g : F) :
    Recurrence x m g (stageValues x m g) := by
  intro i _
  rw [stageValues, delayed]
  by_cases h : i < m
  · rw [dif_pos (.inl h), if_pos h]
  · rw [dif_neg (by omega), if_neg h]

/-! ## Values (R21, R25) -/

section
variable {a b g : F}

theorem isFinite_sampleF (v : Sample) : isFinite (sampleF v) = true := by
  have hlt := v.toInt_lt
  have hle := v.le_toInt
  exact (i2f_spec (by omega)).1

theorem sampleF_zero : sampleF 0 = F_0 := by
  rw [sampleF, show (0 : Sample).toInt = 0 from rfl, i2f, Int.zero_mul]
  rfl

theorem f2i32_of_isZero (h : isZero a = true) : f2i32 a = 0 := by
  have hzero : signedUnits a = signedUnits F_0 := by rw [signedUnits_eq_zero.2 h, signedUnits_F_0]
  rw [f2i32_congr (isNaN_of_isFinite (isFinite_of_isZero h)) (by decide) hzero, ← sampleF_zero]
  exact f2i32_i2f 0

theorem fAdd_comm_of_isFinite (ha : isFinite a = true) (hb : isFinite b = true) : fAdd a b = fAdd b a := by
  rw [fAdd_finite ha hb, fAdd_finite hb ha, Bool.and_comm, Int.add_comm]

/-- Adding to a zero keeps the value. -/
theorem zero_fAdd (ha : isZero a = true) (hb : isFinite b = true) :
    isFinite (fAdd a b) = true ∧ signedUnits (fAdd a b) = signedUnits b := by
  rw [fAdd_comm_of_isFinite (isFinite_of_isZero ha) hb]
  exact fAdd_zero hb ha

theorem isZero_fAdd (ha : isZero a = true) (hb : isZero b = true) : isZero (fAdd a b) = true := by
  rw [← signedUnits_eq_zero, (fAdd_zero (isFinite_of_isZero ha) hb).2, signedUnits_eq_zero.2 ha]

/-- A factor of magnitude at most 1 does not raise a magnitude. -/
theorem magBits_fMul_le (ha : isFinite a = true) (h1 : magBits a ≤ magBits F_1) (hb : isFinite b = true) :
    magBits (fMul a b) ≤ magBits b := by
  rw [fMul_finite ha hb, magBits_roundF]
  refine roundMag_le_of_le oneUnits_pos ?_ (isFinite_iff.1 hb).le
  rw [Nat.mul_comm, ← units_F_1]
  exact Nat.mul_le_mul_left _ (unitsOfBits_le.2 h1)

end

/-! ## A buffer no shorter than the signal -/

/-- No step reads a slot a step has written: each sample is only scaled. -/
theorem stage_of_long_buffer {x : List Sample} {m : Nat} {g : F} (hm : 1 ≤ m) (hg : isFinite g = true)
    (hg1 : magBits g ≤ magBits F_1) (hlong : x.length ≤ m) :
    stage x m g = x.map (fun v => f2i32 (fMul (fNeg g) (sampleF v))) := by
  have hy : Recurrence x m g (fun i => stageY g (sampleF (x.getD i 0)) F_0) := by
    intro i hi
    rw [delayed, if_pos (by omega)]
  have hscale (v : Sample) : f2i32 (stageY g (sampleF v) F_0) = f2i32 (fMul (fNeg g) (sampleF v)) := by
    have hneg : isFinite (fNeg g) = true := by simpa using hg
    have hfin := isFinite_of_le (isFinite_sampleF v) (magBits_fMul_le hneg (by simpa using hg1) (isFinite_sampleF v))
    obtain ⟨hsum, hvalue⟩ := fAdd_zero (b := F_0) hfin (by decide)
    exact f2i32_congr (isNaN_of_isFinite hsum) (isNaN_of_isFinite hfin) hvalue
  rw [stage_of_recurrence hm hy]
  refine List.ext_getElem (by simp) fun i hi _ => ?_
  have hi' : i < x.length := by simpa using hi
  simp [hscale, hi']

/-- Settles O31: a coefficient that passed its check is of magnitude at most 1, so every product is finite. -/
theorem longBufferStageOnlyScales : Obligations.LongBufferStageOnlyScales := by
  intro s x hready hlen hx hlong
  obtain ⟨-, hm, -, hfb⟩ := id hready
  obtain ⟨hg, hg1⟩ := feedback_finite hfb
  have hout := outputIs_apfEnd (s := s) hlen
  rw [stage_of_long_buffer (g := fDiv s.params.dlFeedback F_100) hm hg hg1 hlong] at hout
  exact ⟨_, exec_apf_of_input hready hlen hx, apfEnd_result s x, hout⟩

/-! ## A zero coefficient -/

/-- The input delayed by `m` samples. -/
def delayedSample (x : List Sample) (m i : Nat) : Sample := if i < m then 0 else x.getD (i - m) 0

/-- With a zero coefficient every untruncated value is a delayed sample. -/
theorem stageValues_of_isZero {x : List Sample} {m : Nat} {g : F} (hm : 1 ≤ m) (hg : isZero g = true) (i : Nat)
    (hi : i < x.length) : isFinite (stageValues x m g i) = true ∧
      signedUnits (stageValues x m g i) = signedUnits (sampleF (delayedSample x m i)) := by
  induction i using Nat.strong_induction_on with
  | _ i ih =>
    have hgfin := isFinite_of_isZero hg
    have hfirst : isZero (fMul (fNeg g) (sampleF (x.getD i 0))) = true :=
      isZero_fMul (by simpa using hgfin) (isFinite_sampleF _) (.inl (by simpa using hg))
    have hdelayed : isFinite (delayed x m g (stageValues x m g) i) = true ∧
        signedUnits (delayed x m g (stageValues x m g) i) = signedUnits (sampleF (delayedSample x m i)) := by
      rw [delayed, delayedSample]
      split
      · rw [sampleF_zero]
        exact ⟨by decide, rfl⟩
      · obtain ⟨hfed, -⟩ := ih (i - m) (by omega) (by omega)
        exact fAdd_zero (isFinite_sampleF _) (isZero_fMul hgfin hfed (.inl hg))
    obtain ⟨hfin, hvalue⟩ := zero_fAdd hfirst hdelayed.1
    rw [recurrence_stageValues x hm g i hi, stageY]
    exact ⟨hfin, hvalue.trans hdelayed.2⟩

/-- Settles O30: truncation gives each delayed sample back. -/
theorem zeroFeedbackIsAPureDelay : Obligations.ZeroFeedbackIsAPureDelay := by
  intro s x hready hzero hlen hx
  obtain ⟨-, hm, -⟩ := id hready
  have hg : isZero (fDiv s.params.dlFeedback F_100) = true := isZero_fDiv hzero (by decide) (by decide)
  have hout := outputIs_apfEnd (s := s) hlen
  rw [stage_of_recurrence hm (recurrence_stageValues x hm _)] at hout
  have hsample : ∀ i ∈ List.range x.length,
      f2i32 (stageValues x s.params.apM.toNat (fDiv s.params.dlFeedback F_100) i) =
        if i < s.params.apM.toNat then 0 else x.getD (i - s.params.apM.toNat) 0 := by
    intro i hi
    obtain ⟨hfin, hvalue⟩ := stageValues_of_isZero hm hg i (List.mem_range.1 hi)
    rw [f2i32_congr (isNaN_of_isFinite hfin) (isNaN_of_isFinite (isFinite_sampleF _)) hvalue]
    exact f2i32_i2f _
  rw [List.map_congr_left hsample] at hout
  exact ⟨_, exec_apf_of_input hready hlen hx, apfEnd_result s x, hout⟩

/-! ## Silence -/

theorem isZero_stageValues_silence {n m : Nat} {g : F} (hm : 1 ≤ m) (hg : isFinite g = true) (i : Nat) (hi : i < n) :
    isZero (stageValues (List.replicate n 0) m g i) = true := by
  induction i using Nat.strong_induction_on with
  | _ i ih =>
    have hsilent (j : Nat) : sampleF ((List.replicate n (0 : Sample)).getD j 0) = F_0 := by
      rw [List.getD_eq_getElem?_getD, List.getElem?_getD_replicate_default_eq, sampleF_zero]
    have hdelayed : isZero (delayed (List.replicate n 0) m g (stageValues (List.replicate n 0) m g) i) = true := by
      rw [delayed]
      split
      · decide
      · have hfed := ih (i - m) (by omega) (by omega)
        rw [hsilent]
        exact isZero_fAdd (by decide) (isZero_fMul hg (isFinite_of_isZero hfed) (.inr hfed))
    rw [recurrence_stageValues _ hm g i (by simpa using hi), hsilent]
    exact isZero_fAdd (isZero_fMul (by simpa using hg) (by decide) (.inr (by decide))) hdelayed

theorem stage_silence (n : Nat) {m : Nat} {g : F} (hm : 1 ≤ m) (hg : isFinite g = true) :
    stage (List.replicate n 0) m g = List.replicate n 0 := by
  rw [stage_of_recurrence hm (recurrence_stageValues _ hm g), List.length_replicate]
  refine List.eq_replicate_iff.2 ⟨by simp, fun v hv => ?_⟩
  obtain ⟨i, hi, rfl⟩ := List.mem_map.1 hv
  exact f2i32_of_isZero (isZero_stageValues_silence hm hg i (List.mem_range.1 hi))

end Sys2Proof.Proofs

/-! The completed cascade commands (`41_diffusion_cascade.md`): what they leave in the state, the drawn lengths,
silence. -/

namespace Sys2Proof.Proofs
open Sys2Proof.Machine Sys2Proof.Laws

/-! ## The cascade (R163, R168) -/

/-- Stages run one after the other. -/
theorem cascade_of_stages {g : F} {ms : List Nat} {W : Nat → List Sample}
    (hW : ∀ k, k < ms.length → W (k + 1) = stage (W k) (ms.getD k 0) g) : cascade g ms (W 0) = W ms.length := by
  induction ms generalizing W with
  | nil => rfl
  | cons m ms ih =>
    have hfirst : W 1 = stage (W 0) m g := hW 0 (Nat.succ_pos _)
    rw [cascade, ← hfirst]
    exact ih (W := fun k => W (k + 1)) fun k hk => hW (k + 1) (Nat.succ_lt_succ hk)

theorem cascade_silence (n : Nat) {g : F} {ms : List Nat} (hms : ∀ m ∈ ms, 1 ≤ m) (hg : isFinite g = true) :
    cascade g ms (List.replicate n 0) = List.replicate n 0 := by
  induction ms with
  | nil => rfl
  | cons m ms ih =>
    rw [cascade, stage_silence n (hms m List.mem_cons_self) hg]
    exact ih fun k hk => hms k (List.mem_cons_of_mem _ hk)

/-! ## The end of a completed cascade command -/

section
variable {s : State} {x : List Sample} {lens : List Nat}

theorem cascadeEnd_result (lens : List Nat) (s : State) (x : List Sample) : (cascadeEnd lens s x).result = 0 := by
  rw [cascadeEnd, complete_result]
  decide

/-- The output of a cascade that passed its checks fits the output memory, so its length fits in 32 bits (R169). -/
theorem output_lt_of_ready (hcaps : s.caps.Ok) (hready : CascadeReady s) :
    s.params.inLen.toNat + 5 * s.params.sampleRate.toNat < 2 ^ 32 := by
  obtain ⟨⟨-, hsig⟩, -⟩ := hcaps
  obtain ⟨-, -, hfit, -⟩ := hready
  exact hfit.trans_lt hsig

theorem outLen_cascadeEnd (hcaps : s.caps.Ok) (hready : CascadeReady s) (hlen : x.length = s.params.inLen.toNat) :
    (cascadeEnd lens s x).outLen.toNat = s.params.inLen.toNat + 5 * s.params.sampleRate.toNat := by
  rw [cascadeEnd, complete_outLen, cascade_length, padSignal_length, hlen]
  exact toNat_ofNat_of_lt (output_lt_of_ready hcaps hready)

theorem outputIs_cascadeEnd (hcaps : s.caps.Ok) (hready : CascadeReady s) (hlen : x.length = s.params.inLen.toNat) :
    OutputIs (cascadeEnd lens s x)
      (cascade (fDiv s.params.dlFeedback F_100) lens (x ++ List.replicate (5 * s.params.sampleRate.toNat) 0)) := by
  refine outputIs_complete _ _ _ ?_
  rw [cascade_length, padSignal_length, hlen]
  exact output_lt_of_ready hcaps hready

theorem stageTableIs_cascadeEnd (hcaps : s.caps.Ok) (hready : CascadeReady s)
    (hn : lens.length = s.params.dlStages.toNat) (hm : ∀ m ∈ lens, 1 ≤ m ∧ m ≤ s.caps.dlyCap) :
    StageTableIs (cascadeEnd lens s x) lens := by
  obtain ⟨-, ⟨-, hdly⟩, hstage⟩ := hcaps
  obtain ⟨-, -, -, -, -, hstages⟩ := hready
  exact stageTableIs_setStageTable lens _ (hn.trans_lt (hstages.trans_lt hstage))
    (fun m h => (hm m h).2.trans_lt hdly) _ _

theorem cascadeEnd_frame (lens : List Nat) (s : State) (x : List Sample) :
    Kept s (cascadeEnd lens s x) ∧ PhasesKept s (cascadeEnd lens s x) ∧ DrawsKept s (cascadeEnd lens s x) := by
  refine ⟨?_, ?_, ?_⟩
  · constructor <;> simp [cascadeEnd]
  · simp [PhasesKept, cascadeEnd]
  · simp [DrawsKept, cascadeEnd]

@[simp] theorem afterDraws_params (s : State) : (afterDraws s).params = s.params := rfl

theorem kept_of_kept_afterDraws {t : State} (h : Kept (afterDraws s) t) : Kept s t := { h with }

theorem exec_difd_of_input {b0 : Nat} (hready : DifdReady s) (hlen : x.length = s.params.inLen.toNat)
    (hx : InputIs s x)
    (hb : s.params.dlStages.toNat ≠ 0 → floorLen s.params.dlDelay s.params.sampleRate = .samples b0)
    (hlens : lens = (List.range s.params.dlStages.toNat).map (fun k => b0 / (k + s.params.divOffset.toNat)))
    (hm : ∀ m ∈ lens, 1 ≤ m ∧ m ≤ s.caps.dlyCap) : exec .difd s = .next (cascadeEnd lens s x) := by
  subst hlens
  rw [exec_difd_of_table hready (scanTable_eq_ok.2 ⟨difdLengths_of_samples hb, hm⟩), ← hlen, readSignal_ok.2 hx, onRead]

theorem exec_schr_of_input {rs : List F} (hready : SchrReady s) (hlen : x.length = s.params.inLen.toNat)
    (hx : InputIs s x)
    (hdraw : drawMany (drawLo s) (drawHi s) s.params.dlStages.toNat s = .ok (rs, afterDraws s))
    (hlens : drawnLengths s rs = lens.map SampleCount.samples)
    (hm : ∀ m ∈ lens, 1 ≤ m ∧ m ≤ s.caps.dlyCap) : exec .schr s = .next (cascadeEnd lens (afterDraws s) x) := by
  rw [exec_schr_of_table hready hdraw (scanTable_eq_ok.2 ⟨hlens, hm⟩), ← hlen, readSignal_ok.2 hx, onRead]

end

/-- Settles O32: the table passes the scan, and the stages run one after the other. -/
theorem difdCompletesWithTheDivisorCascade : Obligations.DifdCompletesWithTheDivisorCascade := by
  intro s x b0 ms W hcaps hready hlen hx hb hms hm hW0 hW
  have hshared : CascadeReady s := hready.1
  have hout := outputIs_cascadeEnd (lens := ms) hcaps hshared hlen
  rw [← hW0, cascade_of_stages hW] at hout
  have hn : ms.length = s.params.dlStages.toNat := by rw [hms, List.length_map, List.length_range]
  exact ⟨_, exec_difd_of_input hready hlen hx hb hms hm, cascadeEnd_result ms s x, hout,
    stageTableIs_cascadeEnd hcaps hshared hn hm, outLen_cascadeEnd hcaps hshared hlen, cascadeEnd_frame ms s x⟩

/-- Settles O33: the scripted answers are the draws, and the rest is as for `DIFD`, in the state after them. -/
theorem schrCompletesWithTheDrawnCascade : Obligations.SchrCompletesWithTheDrawnCascade := by
  intro s x rs later ms W hcaps hready hlen hx hscript hrslen hrs htable hm hW0 hW
  have hshared : CascadeReady (afterDraws s) := hready.1
  obtain ⟨hdraw, hlater⟩ := draws_of_script hscript hrslen hrs
  have hout := outputIs_cascadeEnd (s := afterDraws s) (lens := ms) hcaps hshared hlen
  rw [afterDraws_params, ← hW0, cascade_of_stages hW] at hout
  have hn : ms.length = s.params.dlStages.toNat := by
    rw [← hrslen]
    simpa using (congrArg List.length htable).symm
  obtain ⟨hkept, hphases, hscript', hcount⟩ := cascadeEnd_frame ms (afterDraws s) x
  exact ⟨_, exec_schr_of_input hready hlen hx hdraw htable hm, cascadeEnd_result _ _ _, hout,
    stageTableIs_cascadeEnd (s := afterDraws s) hcaps hshared hn hm,
    outLen_cascadeEnd (s := afterDraws s) hcaps hshared hlen,
    hscript'.trans hlater, hcount, kept_of_kept_afterDraws hkept, hphases⟩

/-- Settles O40: with no stages there is no length to check and no answer to draw. -/
theorem cascadeWithoutStagesOnlyPads : Obligations.CascadeWithoutStagesOnlyPads := by
  rintro i s x hcaps hi hn hlen hx
  have hn' : s.params.dlStages.toNat = 0 := u32_eq_zero.1 hn
  rcases hi with ⟨rfl, hready⟩ | ⟨rfl, hready⟩
  · have hshared : CascadeReady s := hready.1
    have hlens : [] = (List.range s.params.dlStages.toNat).map (fun k => 0 / (k + s.params.divOffset.toNat)) := by
      rw [hn']; rfl
    obtain ⟨-, -, hdraws⟩ := cascadeEnd_frame [] s x
    exact ⟨_, exec_difd_of_input hready hlen hx (absurd hn') hlens (by simp), cascadeEnd_result _ _ _,
      outputIs_cascadeEnd hcaps hshared hlen, stageTableIs_cascadeEnd hcaps hshared hn'.symm (by simp), hdraws⟩
  · have hshared : CascadeReady (afterDraws s) := hready.1
    obtain ⟨hdraw, -⟩ := draws_of_script (s := s) (rs := []) (later := s.drawScript) rfl hn'.symm (by simp)
    obtain ⟨-, -, hscript, hcount⟩ := cascadeEnd_frame [] (afterDraws s) x
    refine ⟨_, exec_schr_of_input hready hlen hx hdraw (lens := []) rfl (by simp), cascadeEnd_result _ _ _,
      outputIs_cascadeEnd (s := afterDraws s) hcaps hshared hlen,
      stageTableIs_cascadeEnd (s := afterDraws s) hcaps hshared hn'.symm (by simp), hscript.trans ?_, hcount.trans ?_⟩
    · rw [afterDraws, hn', List.drop_zero]
    · rw [afterDraws, hn', Nat.add_zero]

/-! ## What a completed cascade command was -/

section
variable {i : Instr} {s t : State}

/-- A completed cascade command ended with its table and its output, in the state itself or in that after its draws. -/
theorem completed_cascade (h : exec i s = .next t) (hi : i = .difd ∨ i = .schr) (h0 : codeOf t.result = 0) :
    CascadeReady s ∧ ∃ x lens, readSignal s s.params.inLen.toNat = .ok x ∧ (∀ m ∈ lens, 1 ≤ m ∧ m ≤ s.caps.dlyCap) ∧
      (t = cascadeEnd lens s x ∨ t = cascadeEnd lens (afterDraws s) x) := by
  cases exec_next h with
  | rejected i r _ hr => exact absurd (codeOf_resultWord_eq_zero.1 h0) hr
  | rejectedCascade i r _ hr | rejectedAfterDraws r _ hr =>
    exact absurd (codeOf_resultWord_eq_zero.1 h0) (ne_ok_of_cascade_rejection hr)
  | difd x lens hready hx _ hm _ => exact ⟨hready.1, x, lens, hx, hm, .inl rfl⟩
  | schr x lens rs hready hx _ _ hm _ => exact ⟨hready.1, x, lens, hx, hm, .inr rfl⟩
  | apf | rmod | dsmp => simp at hi

theorem completed_apf (h : exec .apf s = .next t) (h0 : codeOf t.result = 0) :
    ApfReady s ∧ ∃ x, readSignal s s.params.inLen.toNat = .ok x ∧ t = apfEnd s x := by
  cases exec_next h with
  | rejected i r _ hr => exact absurd (codeOf_resultWord_eq_zero.1 h0) hr
  | rejectedCascade i r hi => simp at hi
  | apf x hready hx => exact ⟨hready, x, hx, rfl⟩

/-- A completed `SCHR` had answers within the contract, and its table is their lengths. -/
theorem completed_schr (h : exec .schr s = .next t) (h0 : codeOf t.result = 0) :
    SchrReady s ∧ ∃ (lens : List Nat) (rs : List F), (∀ r ∈ rs, drawAllowed (drawLo s) (drawHi s) r = true) ∧
      drawnLengths s rs = lens.map SampleCount.samples ∧ (∀ m ∈ lens, 1 ≤ m ∧ m ≤ s.caps.dlyCap) ∧
      lens.length = s.params.dlStages.toNat ∧ t.mtab = memOfList (lens.map (BitVec.ofNat 32)) := by
  cases exec_next h with
  | rejected i r hi => simp at hi
  | rejectedCascade i r _ hr | rejectedAfterDraws r _ hr =>
    exact absurd (codeOf_resultWord_eq_zero.1 h0) (ne_ok_of_cascade_rejection hr)
  | schr x lens rs hready _ hallowed hlens hm hn => exact ⟨hready, lens, rs, hallowed, hlens, hm, hn, rfl⟩

/-! ## Silence -/

theorem readSignal_silence {n : Nat} {x : List Sample} (hs : ∀ j, j < n → memRead s.sigi j = some 0)
    (hx : readSignal s n = .ok x) : x = List.replicate n 0 := by
  obtain ⟨hlen, hread⟩ := readSamples_range.1 hx
  refine List.eq_replicate_iff.2 ⟨hlen, fun v hv => ?_⟩
  obtain ⟨j, hj, rfl⟩ := List.mem_iff_getElem.1 hv
  have := hread j (hlen ▸ hj)
  rw [hs j (hlen ▸ hj), List.getElem?_eq_getElem hj] at this
  exact (Option.some.inj this).symm

theorem memRead_complete_silence (n : Nat) (x : Bool) (s : State) {j : Nat}
    (hj : j < (complete (List.replicate n 0) x s).outLen.toNat) :
    memRead (complete (List.replicate n 0) x s).sigo j = some 0 := by
  have hjn : j < n := by
    rw [complete_outLen, BitVec.toNat_ofNat, List.length_replicate] at hj
    exact hj.trans_le (Nat.mod_le _ _)
  rw [complete_sigo, memRead_memOfList, List.getElem?_replicate_of_lt hjn]

theorem cascadeEnd_silence {n : Nat} {lens : List Nat} (hfb : FeedbackOk s) (hm : ∀ m ∈ lens, 1 ≤ m) :
    cascadeEnd lens s (List.replicate n 0) = complete (List.replicate (n + 5 * s.params.sampleRate.toNat) 0) false
      (setStageTable lens (forgetDelays s)) := by
  rw [cascadeEnd, padSignal, List.replicate_append_replicate, cascade_silence _ hm (feedback_finite hfb).1]

end

/-- Settles O39: every stage keeps the length, so the padding alone lengthens the signal. -/
theorem cascadeOutputIsFiveSecondsLonger : Obligations.CascadeOutputIsFiveSecondsLonger := by
  intro i s t hcaps hi h h0
  obtain ⟨hready, x, lens, hx, -, rfl | rfl⟩ := completed_cascade h hi h0
  · exact outLen_cascadeEnd hcaps hready (readSignal_length hx)
  · exact outLen_cascadeEnd (s := afterDraws s) hcaps hready (readSignal_length hx)

/-- Settles O41: a silent signal stays silent through any stage. -/
theorem silenceStaysSilent : Obligations.SilenceStaysSilent := by
  intro i s t hi h h0 hs j hj
  rcases hi with rfl | hi
  · obtain ⟨⟨-, hm, -, hfb⟩, x, hx, rfl⟩ := completed_apf h h0
    obtain rfl := readSignal_silence hs hx
    rw [apfEnd, stage_silence _ hm (feedback_finite hfb).1] at hj ⊢
    exact memRead_complete_silence _ _ _ hj
  · obtain ⟨⟨-, -, -, -, hfb, -⟩, x, lens, hx, hm, rfl | rfl⟩ := completed_cascade h hi h0 <;>
      obtain rfl := readSignal_silence hs hx
    · rw [cascadeEnd_silence hfb (fun m hmem => (hm m hmem).1)] at hj ⊢
      exact memRead_complete_silence _ _ _ hj
    · rw [cascadeEnd_silence (s := afterDraws s) hfb (fun m hmem => (hm m hmem).1)] at hj ⊢
      exact memRead_complete_silence _ _ _ hj

/-! ## The drawn lengths (R174, R175) -/

theorem fLe_of_fLt {a b : F} (h : fLt a b = true) : fLe a b = true := by
  obtain ⟨ha, hb⟩ := not_isNaN_of_fLt h
  rw [fLt_iff ha hb] at h
  rw [fLe_iff ha hb]
  omega

theorem fLt_of_fLt_of_fLe {a b c : F} (h : fLt a b = true) (h' : fLe b c = true) : fLt a c = true := by
  obtain ⟨ha, hb⟩ := not_isNaN_of_fLt h
  obtain ⟨-, hc⟩ := not_isNaN_of_fLe h'
  rw [fLt_iff ha hb] at h
  rw [fLe_iff hb hc] at h'
  rw [fLt_iff ha hc]
  omega

/-- The lower bound of the draws is positive: 0.9 of the smallest value rounds to the smallest value. -/
theorem fLt_zero_drawLo {s : State} (hready : SchrReady s) : fLt F_0 (drawLo s) = true := by
  obtain ⟨hlo, -, -⟩ := drawAllowed_iff.1 (drawAllowed_lo hready)
  obtain ⟨⟨-, -, -, ⟨hfin, hpos⟩, -⟩, -⟩ := hready
  obtain ⟨hunits, hsign⟩ := units_pos_of_fLt hpos
  have hone : magBits (1 : F) ≤ magBits s.params.dlDelay := by
    rw [show magBits (1 : F) = 1 by decide, Nat.one_le_iff_ne_zero]
    intro h0
    rw [units_eq_zero.2 (isZero_iff.2 h0)] at hunits
    exact absurd hunits (lt_irrefl 0)
  have hmag : 1 ≤ magBits (drawLo s) := by
    have hsmallest : magBits (fMul F_0p9 1) = 1 := by decide +kernel
    rw [← hsmallest]
    exact fMul_le (by decide) (by decide) (by decide) hfin le_rfl hone
  have hsignLo : signBit (drawLo s) = false := by
    rw [drawLo, fMul_finite (by decide) hfin, signBit_roundF, hsign]
    decide
  rw [fLt_iff (by decide) (isNaN_of_isFinite hlo), signedUnits_F_0, signedUnits_of_signBit_false hsignLo]
  have := unitsOfBits_le.2 hmag
  rw [unitsOfBits_magBits, show unitsOfBits 1 = 1 by decide] at this
  omega

/-- A drawn length lies between the lengths of the bounds (R175). -/
theorem drawn_length_bounds {s : State} {r : F} {n : Nat} (hready : SchrReady s)
    (hr : drawAllowed (drawLo s) (drawHi s) r = true) (hn : floorLen r s.params.sampleRate = .samples n) :
    (∃ lo, floorLen (drawLo s) s.params.sampleRate = .samples lo ∧ lo ≤ n) ∧
      ∀ hi, floorLen (drawHi s) s.params.sampleRate = .samples hi → n ≤ hi := by
  obtain ⟨hlo, -, -⟩ := drawAllowed_iff.1 (drawAllowed_lo hready)
  obtain ⟨hfin, hle, hlt⟩ := drawAllowed_iff.1 hr
  obtain ⟨-, hhi, -⟩ := id hready
  have hpos := fLt_zero_drawLo hready
  refine ⟨floorLen_mono hlo hfin hle hpos hn, fun hi hhi' => ?_⟩
  obtain ⟨m, hm, hmle⟩ := floorLen_mono hfin hhi (fLe_of_fLt hlt) (fLt_of_fLt_of_fLe hpos hle) hhi'
  rw [hn] at hm
  cases hm
  exact hmle

/-- Settles O38: each entry of the table is the length of an answer within the bounds. -/
theorem drawnLengthsLieBetweenTheBounds : Obligations.DrawnLengthsLieBetweenTheBounds := by
  intro s t k lo hi hcaps h h0 hk
  obtain ⟨-, ⟨-, hdly⟩, -⟩ := hcaps
  obtain ⟨hready, lens, rs, hallowed, hlens, hm, hn, hmtab⟩ := completed_schr h h0
  have hk' : k < lens.length := by omega
  have hrs : rs.length = lens.length := by simpa [drawnLengths] using congrArg List.length hlens
  have hkr : k < rs.length := hrs ▸ hk'
  have hlen : floorLen rs[k] s.params.sampleRate = .samples lens[k] := by
    simpa [drawnLengths, hk', hkr] using congrArg (fun l => l[k]?) hlens
  obtain ⟨⟨low, hlow, hle⟩, hupper⟩ := drawn_length_bounds hready (hallowed _ (List.getElem_mem hkr)) hlen
  have hread : memRead t.mtab k = some (BitVec.ofNat 32 lens[k]) := by
    rw [hmtab, memRead_memOfList]
    simp [hk']
  have hvalue : (BitVec.ofNat 32 lens[k]).toNat = lens[k] :=
    toNat_ofNat_of_lt ((hm _ (List.getElem_mem hk')).2.trans_lt hdly)
  change floorLen (fMul F_0p9 s.params.dlDelay) s.params.sampleRate = _ at hlow
  rw [hlow]
  refine ⟨fun h => ⟨_, hread, ?_⟩, fun hhi => ⟨_, hread, ?_⟩, by simp⟩
  · cases h
    rw [hvalue]
    exact hle
  · rw [hvalue]
    exact hupper hi hhi

end Sys2Proof.Proofs

/-! The ring modulator's phases and its dry path (`42_ring_modulator.md` R203 to R207): bounds on the increments, the
circle the phases stay on, and what the loop does not depend on. -/

namespace Sys2Proof.Proofs
open Sys2Proof.Machine Sys2Proof.Laws

/-! ## Products and quotients with a factor of magnitude at most 1 -/

section
variable {a b : F}

theorem fMul_comm_of_isFinite (ha : isFinite a = true) (hb : isFinite b = true) : fMul a b = fMul b a := by
  rw [fMul_finite ha hb, fMul_finite hb ha, Bool.xor_comm, Nat.mul_comm]

theorem isFinite_fMul_le_one (ha : isFinite a = true) (hb : isFinite b = true) (h1 : magBits b ≤ magBits F_1) :
    isFinite (fMul a b) = true := by
  rw [fMul_comm_of_isFinite ha hb]
  exact isFinite_of_le ha (magBits_fMul_le hb h1 ha)

/-- A quotient by a value of no smaller magnitude has magnitude at most 1. -/
theorem magBits_fDiv_le_one (ha : isFinite a = true) (hb : isFinite b = true) (hz : isZero b = false)
    (h : magBits a ≤ magBits b) : magBits (fDiv a b) ≤ magBits F_1 := by
  rw [fDiv_finite ha hb hz, magBits_roundF]
  refine roundMag_le_of_le (units_pos hz) ?_ (by decide)
  rw [unitsOfBits_magBits, units_F_1, Nat.mul_comm]
  exact Nat.mul_le_mul_left _ (unitsOfBits_le.2 h)

theorem fMul_F_1 (ha : isFinite a = true) : fMul a F_1 = a := by
  rw [fMul_finite ha (by decide)]
  refine roundF_exact oneUnits_pos ?_ (isNaN_of_isFinite ha) (by rw [units_F_1])
  rw [show signBit F_1 = false by decide, Bool.xor_false]

theorem fSub_F_1_zero (hz : isZero a = true) : fSub F_1 a = F_1 := by
  rw [fSub_finite (by decide) (isFinite_of_isZero hz), signedUnits_eq_zero.2 hz, Int.sub_zero]
  refine roundUnits_exact (by decide) rfl fun h => ?_
  rw [signedUnits_eq_zero] at h
  exact absurd h (by decide)

end

/-! ## The increments (R193, R197) -/

/-- `10^300`, the bound of R203 on the rate and the frequency. -/
def rateLimit : F := 0x7E37E43C8800759C

/-- A bound on `TWO_PI` times the rate. -/
def lfoLimit : F := fMul TWO_PI rateLimit

/-- A bound on the modulation of the frequency: the LFO value and `AMTN` are of magnitude at most 1. -/
def modulationLimit : F := fMul (fMul rateLimit F_3) F_1

/-- A bound on `TWO_PI` times the modulated frequency. -/
def carrierLimit : F := fMul TWO_PI (fAdd rateLimit modulationLimit)

theorem isFinite_limits :
    isFinite rateLimit = true ∧ isFinite (fMul rateLimit F_3) = true ∧ isFinite modulationLimit = true ∧
      isFinite (fAdd rateLimit modulationLimit) = true ∧ isFinite lfoLimit = true ∧ isFinite carrierLimit = true := by
  decide +kernel

theorem signBit_limits : signBit rateLimit = false ∧ signBit modulationLimit = false ∧ signBit lfoLimit = false ∧
    signBit carrierLimit = false := by
  decide +kernel

/-- Neither limit takes a phase on the circle beyond the finite values. -/
theorem isFinite_phase_limits :
    isFinite (fAdd TWO_PI lfoLimit) = true ∧ isFinite (fAdd TWO_PI carrierLimit) = true := by
  decide +kernel

section
variable {s : State}

theorem sampleRateF_bounds (hready : RmodReady s) :
    isFinite (sampleRateF s) = true ∧ oneUnits ≤ units (sampleRateF s) := by
  obtain ⟨-, hpos, -⟩ := hready
  obtain ⟨hfin, -, hunits⟩ := i2f_nat (n := s.params.sampleRate.toNat) (by omega)
  exact ⟨hfin, by rw [sampleRateF, hunits]; exact Nat.le_mul_of_pos_left _ hpos⟩

theorem amountN_bounds (hready : RmodReady s) : isFinite (amountN s) = true ∧ magBits (amountN s) ≤ magBits F_1 := by
  obtain ⟨-, -, -, hamount, -⟩ := hready
  have hmag := magBits_le_of_inRange_zero (by decide) (by decide) hamount
  have hle : magBits (amountN s) ≤ magBits F_1 := magBits_fDiv_le_one hamount.1 (by decide) (by decide) hmag
  exact ⟨isFinite_of_le (by decide) hle, hle⟩

theorem magBits_le_rateLimit {x : F} (h : InRange (fNeg rateLimit) rateLimit x) : magBits x ≤ magBits rateLimit :=
  magBits_le_of_inRange (by decide) (by decide) h

theorem lfoInc_bounds (hready : RmodReady s) (hrate : InRange (fNeg rateLimit) rateLimit s.params.rmRate) :
    isFinite (ringSetup s).lfoInc = true ∧ magBits (ringSetup s).lfoInc ≤ magBits lfoLimit := by
  obtain ⟨hlim, -, -, -, hlfo, -⟩ := isFinite_limits
  obtain ⟨hsr, hsr1⟩ := sampleRateF_bounds hready
  have hmul : magBits (fMul TWO_PI s.params.rmRate) ≤ magBits lfoLimit :=
    fMul_le isFinite_TWO_PI hrate.1 isFinite_TWO_PI hlim le_rfl (magBits_le_rateLimit hrate)
  have hle : magBits (ringSetup s).lfoInc ≤ magBits lfoLimit := fDiv_le (isFinite_of_le hlfo hmul) hsr hmul hlfo hsr1
  exact ⟨isFinite_of_le hlfo hle, hle⟩

theorem carrierInc_bounds (hready : RmodReady s)
    (hfreq : InRange (fNeg rateLimit) rateLimit s.params.rmFrequency) {lv : F}
    (hlv : isFinite lv = true) (hlv1 : magBits lv ≤ magBits F_1) :
    isFinite (carrierInc (ringSetup s) lv) = true ∧ magBits (carrierInc (ringSetup s) lv) ≤ magBits carrierLimit := by
  obtain ⟨hlim, hlim3, hmodlim, hsumlim, -, hcarlim⟩ := isFinite_limits
  obtain ⟨hslim, hsmodlim, -⟩ := signBit_limits
  obtain ⟨hsr, hsr1⟩ := sampleRateF_bounds hready
  obtain ⟨hamt, hamt1⟩ := amountN_bounds hready
  have hf := magBits_le_rateLimit hfreq
  have h1 : magBits (fMul lv s.params.rmFrequency) ≤ magBits rateLimit := (magBits_fMul_le hlv hlv1 hfreq.1).trans hf
  have h2 : magBits (fMul (fMul lv s.params.rmFrequency) F_3) ≤ magBits (fMul rateLimit F_3) :=
    fMul_le (isFinite_of_le hlim h1) (by decide) hlim (by decide) h1 le_rfl
  have h3 : magBits (fMul (fMul (fMul lv s.params.rmFrequency) F_3) (amountN s)) ≤ magBits modulationLimit :=
    fMul_le (isFinite_of_le hlim3 h2) hamt hlim3 (by decide) h2 hamt1
  have h4 := fAdd_le hfreq.1 (isFinite_of_le hmodlim h3) hlim hmodlim hslim hsmodlim hf h3
  have h5 : magBits (fMul TWO_PI (fAdd s.params.rmFrequency
      (fMul (fMul (fMul lv s.params.rmFrequency) F_3) (amountN s)))) ≤ magBits carrierLimit :=
    fMul_le isFinite_TWO_PI (isFinite_of_le hsumlim h4) isFinite_TWO_PI hsumlim le_rfl h4
  have hle : magBits (carrierInc (ringSetup s) lv) ≤ magBits carrierLimit :=
    fDiv_le (isFinite_of_le hcarlim h5) hsr h5 hcarlim hsr1
  exact ⟨isFinite_of_le hcarlim hle, hle⟩

/-! ## The circle (R203) -/

/-- A phase in `[0, TWO_PI)` with sign bit 0. -/
def OnCircle (x : F) : Prop := signBit x = false ∧ magBits x < magBits TWO_PI

theorem onCircle_F_0 : OnCircle F_0 := by unfold OnCircle; decide

theorem OnCircle.finite {x : F} (h : OnCircle x) : isFinite x = true := isFinite_of_magBits_lt h.2

/-- The circle, by comparisons. -/
theorem OnCircle.range {x : F} (h : OnCircle x) :
    isFinite x = true ∧ fLe F_0 x = true ∧ fLt x TWO_PI = true :=
  ⟨h.finite, fLe_zero_of_signBit (isNaN_of_isFinite h.finite) h.1, fLt_TWO_PI h.1 h.2⟩

/-- A phase on the circle and an increment within a limit have a finite sum, which wraps onto the circle. -/
theorem onCircle_fWrap_fAdd {x d limit : F} (hx : OnCircle x) (hd : isFinite d = true ∧ magBits d ≤ magBits limit)
    (hs : signBit limit = false) (hlim : isFinite limit = true) (hsum : isFinite (fAdd TWO_PI limit) = true) :
    OnCircle (fWrap (fAdd x d)) := by
  obtain ⟨hdfin, hdle⟩ := hd
  have hle := fAdd_le hx.finite hdfin isFinite_TWO_PI hlim signBit_TWO_PI hs hx.2.le hdle
  exact fWrap_spec (isFinite_of_le hsum hle)

theorem sine_bounds {x : F} (hx : isFinite x = true) : isFinite (sine x) = true ∧ magBits (sine x) ≤ magBits F_1 := by
  have h := inRange_sine hx
  exact ⟨h.1, magBits_le_of_inRange (by decide) (by decide) h⟩

theorem lfoValue_bounds (w : Waveform) {x : F} (hx : isFinite x = true) :
    isFinite (lfoValue sine w x) = true ∧ magBits (lfoValue sine w x) ≤ magBits F_1 := by
  cases w with
  | sinusoidal => exact sine_bounds hx
  | square =>
    rw [lfoValue]
    split <;> decide

/-- Both phases are on the circle. -/
def BothOnCircle (ph : Phases) : Prop := OnCircle ph.lfo ∧ OnCircle ph.carrier

theorem bothOnCircle_start : BothOnCircle ⟨F_0, F_0⟩ := ⟨onCircle_F_0, onCircle_F_0⟩

section
variable (hready : RmodReady s) (hrate : InRange (fNeg rateLimit) rateLimit s.params.rmRate)
  (hfreq : InRange (fNeg rateLimit) rateLimit s.params.rmFrequency)
include hready hrate hfreq

theorem bothOnCircle_nextPhases {ph : Phases} (hph : BothOnCircle ph) :
    BothOnCircle (nextPhases sine (ringSetup s) ph) := by
  obtain ⟨-, -, -, -, hlfo, hcar⟩ := isFinite_limits
  obtain ⟨-, -, hslfo, hscar⟩ := signBit_limits
  obtain ⟨hlfosum, hcarsum⟩ := isFinite_phase_limits
  obtain ⟨hl, hc⟩ := hph
  have hnext : OnCircle (nextLfo (ringSetup s) ph.lfo) :=
    onCircle_fWrap_fAdd hl (lfoInc_bounds hready hrate) hslfo hlfo hlfosum
  obtain ⟨hlv, hlv1⟩ := lfoValue_bounds (ringSetup s).wave hnext.finite
  exact ⟨hnext, onCircle_fWrap_fAdd hc (carrierInc_bounds hready hfreq hlv hlv1) hscar hcar hcarsum⟩

theorem bothOnCircle_ringLoop (x : List Sample) {ph : Phases} (hph : BothOnCircle ph) :
    BothOnCircle (ringLoop sine (ringSetup s) ph x).2 := by
  induction x generalizing ph with
  | nil => exact hph
  | cons v vs ih => exact ih (bothOnCircle_nextPhases hready hrate hfreq hph)

end

end

/-! ## The dry path (R207) -/

/-- With a zero mix the blend is the sample itself. -/
theorem ringSample_of_mix_zero {u : RingSetup} {c : F} (hmix : isZero u.mix = true) (hc : isFinite c = true)
    (v : Sample) : ringSample sine u c v = v := by
  obtain ⟨hsin, hsin1⟩ := sine_bounds hc
  have hv := isFinite_sampleF v
  have hwet : isZero (fMul (fMul (sampleF v) (sine c)) u.mix) = true :=
    isZero_fMul (isFinite_fMul_le_one hv hsin hsin1) (isFinite_of_isZero hmix) (.inr hmix)
  have hblend : blend u (sampleF v) (sine c) = fAdd (sampleF v) (fMul (fMul (sampleF v) (sine c)) u.mix) := by
    rw [blend, fSub_F_1_zero hmix, fMul_F_1 hv]
  obtain ⟨hfin, hvalue⟩ := fAdd_zero hv hwet
  rw [ringSample, hblend, f2i32_congr (isNaN_of_isFinite hfin) (isNaN_of_isFinite hv) hvalue]
  exact f2i32_i2f v

theorem ringLoop_of_mix_zero {s : State} (hready : RmodReady s)
    (hrate : InRange (fNeg rateLimit) rateLimit s.params.rmRate)
    (hfreq : InRange (fNeg rateLimit) rateLimit s.params.rmFrequency) (hmix : isZero (ringSetup s).mix = true)
    (x : List Sample) {ph : Phases} (hph : BothOnCircle ph) : (ringLoop sine (ringSetup s) ph x).1 = x := by
  induction x generalizing ph with
  | nil => rfl
  | cons v vs ih =>
    have hnext := bothOnCircle_nextPhases hready hrate hfreq hph
    rw [ringLoop, ih hnext, ringSample_of_mix_zero hmix hnext.2.finite]

/-- Settles O45: every carrier phase is finite, so every sample comes back as it is. -/
theorem mixZeroIsTheIdentity : Obligations.MixZeroIsTheIdentity := by
  intro s x hready hzero hrate hfreq hlen hx
  have hmix : isZero (ringSetup s).mix = true := isZero_fDiv hzero (by decide) (by decide)
  have hexec := exec_rmod_of_ready hready hlen hx
  rw [ringLoop_of_mix_zero hready hrate hfreq hmix x bothOnCircle_start] at hexec
  have hfits : x.length < 2 ^ 32 := hlen ▸ (Nat.min_le_right _ _).trans_lt s.params.inLen.isLt
  exact ⟨_, hexec, codeOf_complete _ _ _, outputIs_complete _ _ _ hfits⟩

/-! ## Completed runs -/

theorem onRead_eq_next {read : Except Nat (List Sample)} {finish : List Sample → State} {t : State}
    (h : onRead read finish = .next t) : ∃ x, read = .ok x ∧ t = finish x := by
  cases read with
  | error j => cases h
  | ok x => cases h; exact ⟨x, rfl, rfl⟩

/-- An `RMOD` that passed its checks and ended completed on the samples it read. -/
theorem rmod_completed {s t : State} (hready : RmodReady s) (h : exec .rmod s = .next t) :
    ∃ x, x.length = ringLength s ∧ t = ringEnd (ringLoop sine (ringSetup s) ⟨F_0, F_0⟩ x).1
      (ringLoop sine (ringSetup s) ⟨F_0, F_0⟩ x).2 s := by
  rw [exec_rmod_eq_onRead hready] at h
  obtain ⟨x, hx, rfl⟩ := onRead_eq_next h
  exact ⟨x, readSignal_length hx, rfl⟩

/-- Settles O46: the circle is an invariant of the loop, whatever the number of samples. -/
theorem phasesNeverLeaveTheCircle : Obligations.PhasesNeverLeaveTheCircle := by
  intro s t hready hrate hfreq h
  obtain ⟨x, -, rfl⟩ := rmod_completed hready h
  obtain ⟨hl, hc⟩ := bothOnCircle_ringLoop hready hrate hfreq x bothOnCircle_start
  obtain ⟨hlfin, hlge, hllt⟩ := hl.range
  exact ⟨hlfin, hlge, hllt, hc.range⟩

/-! ## The oscillators and the input (R204) -/

/-- The last phases depend on the number of samples only. -/
theorem ringLoop_phases_of_length {sin : F → F} {u : RingSetup} {x x' : List Sample} (ph : Phases)
    (h : x'.length = x.length) : (ringLoop sin u ph x').2 = (ringLoop sin u ph x).2 := by
  induction x generalizing x' ph with
  | nil => rw [List.length_eq_zero_iff.1 h]
  | cons v vs ih =>
    obtain ⟨v', vs', rfl⟩ := List.exists_cons_of_length_eq_add_one h
    exact ih _ (Nat.succ.inj h)

theorem rmodReady_of_completed {s t : State} (h : exec .rmod s = .next t) (h0 : codeOf t.result = 0) : RmodReady s := by
  cases exec_next h with
  | rejected i r _ hr => exact absurd (codeOf_resultWord_eq_zero.1 h0) hr
  | rejectedCascade i r hi => simp at hi
  | rmod x hready _ => exact hready

/-- Settles O47: both runs pass the same checks and take the same number of samples. -/
theorem oscillatorsIgnoreTheInput : Obligations.OscillatorsIgnoreTheInput := by
  intro s s' t t' hparams hcaps h h' h0
  have hready := rmodReady_of_completed h h0
  have hready' : RmodReady s' := by
    rw [RmodReady, InputFits, hparams, hcaps]
    exact hready
  have hsetup : ringSetup s' = ringSetup s := by
    rw [ringSetup, ringSetup, sampleRateF, sampleRateF, mixN, mixN, amountN, amountN, hparams]
  have hlength : ringLength s' = ringLength s := by rw [ringLength, ringLength, hparams]
  obtain ⟨x, hx, rfl⟩ := rmod_completed hready h
  obtain ⟨x', hx', rfl⟩ := rmod_completed hready' h'
  have hsame : x'.length = x.length := hx'.trans (hlength.trans hx.symm)
  have hphases := ringLoop_phases_of_length (sin := sine) (u := ringSetup s) ⟨F_0, F_0⟩ hsame
  rw [hsetup, hphases]
  exact ⟨codeOf_complete _ _ _, .inl rfl, .inl rfl⟩

end Sys2Proof.Proofs

/-! The resampler at a ratio below 2 (`43_resampler.md` R234). -/

namespace Sys2Proof.Proofs
open Sys2Proof.Machine Sys2Proof.Laws

/-- Settles O51: the factor is 1, so `DSMP` takes every sample. -/
theorem ratioBelowTwoCopiesTheInput : Obligations.RatioBelowTwoCopiesTheInput := by
  intro s x hready hratio hlen hx
  obtain ⟨-, hpos, hle⟩ := id hready
  have hfactor : 1 = s.params.sampleRate.toNat / s.params.newSampleRate.toNat :=
    (Nat.div_eq_of_lt_le (by omega) (by omega)).symm
  obtain ⟨t, hexec, hresult, hout, -⟩ := dsmpCompletesWithEveryFactorthSample s x 1 x.length hready hfactor hlen
    (fun j hj => by rw [Nat.mul_one] at hj ⊢; exact hx j hj) (fun j => by rw [Nat.mul_one])
  have hcopy : (List.range x.length).map (fun j => x.getD (j * 1) 0) = x := by
    refine List.ext_getElem (by simp) fun j hj hj' => ?_
    simp [hj']
  rw [hcopy] at hout
  exact ⟨t, hexec, hresult, hout⟩

end Sys2Proof.Proofs
